-- ==== Sys2Proof/Word.lean ====
section
/-! DEFINITION. The plain data the block works on: bytes, the 64-bit TransferWord, the 1024-byte frame
buffer, frame addresses, path keys and file records (spec/00_scope.md R9 to R11, spec/10_state.md R25 to R30). -/

namespace Sys2Proof

/-- One byte of a frame or of a host byte sequence (R10). -/
abbrev Byte := BitVec 8

/-- A TransferWord: "a 64-bit opaque value" (R80). -/
abbrev Word := BitVec 64

/-- A path: an opaque key the block only compares for equality (R26, R135, decision D10; log entry 9).
Byte strings are used, the empty one included. -/
abbrev Path := List Byte

/-- A frame buffer: exactly 1024 bytes, byte `i` of the list is byte `i` of the buffer (R10, R33). -/
structure Frame where
  bytes : List Byte
  size  : bytes.length = 1024
deriving DecidableEq, Repr

/-- 1024 zero bytes: what ZeroCartridge makes of a frame (R59, R111). -/
@[irreducible] def Frame.zero : Frame := ⟨List.replicate 1024 0, List.length_replicate⟩

/-- FrameAddress: cartridge index 0 to 63 and frame index 0 to 1023 (R30, conflict C2). -/
structure FrameAddress where
  cart  : Fin 64
  frame : Fin 1024
deriving DecidableEq, Repr

/-- The linear index `cartridgeIndex * 1024 + frameIndex` of a frame address (R16, R67). -/
def FrameAddress.linear (a : FrameAddress) : Nat := a.cart.val * 1024 + a.frame.val

/-- A FileRecord (R25 to R29): `isOpen` is `ft[h].open`, `endPos` is `ft[h].end`. -/
structure FileRecord where
  path   : Path
  isOpen : Bool
  endPos : Nat
  cursor : Nat
  frames : List FrameAddress
deriving DecidableEq, Repr

/-- What the table holds at a handle no record was ever written to. No rule reads it: every reader first
checks `h < n_files` (R130, R131). -/
def FileRecord.blank : FileRecord :=
  { path := [], isOpen := false, endPos := 0, cursor := 0, frames := [] }

end Sys2Proof
end

