-- ==== Sys2Proof/Config.lean ====
section
/-! DEFINITION. What an implementation fixes (the named parameters of spec/00_scope.md R7), the numbers of the
encoding that the spec lets a model re-bind (R81, R83), and the free values: constants with no body, so that no
proof can see what the environment draws or what an unspecified register holds (R14, decisions D12, D21). -/

namespace Sys2Proof.Config

/-- The open parameters of R7. They are plain data in `State`, never written, so a statement about every state
is a statement about every value of them (log entry 8). -/
structure Params where
  /-- `MAX_FILES` (R134, decision D9). -/
  maxFiles : Nat
  /-- `LEN_W`, the width of a host handle, count, offset and data length (R88, decision D17). -/
  lenW : Nat
  /-- `WRITE_ABORT_COMMITS_LENGTH` (R146, decision D15). -/
  writeAbortCommitsLength : Bool
deriving DecidableEq, Repr

/-- The values R7 suggests: `MAX_FILES` 1024, `LEN_W` 32, `WRITE_ABORT_COMMITS_LENGTH` true (log entry 8). -/
def params : Params := { maxFiles := 1024, lenW := 32, writeAbortCommitsLength := true }

/-- `MAX_FILES` is "a model parameter, at least 1" (decision D9). -/
def Params.legal (p : Params) : Bool := decide (1 ≤ p.maxFiles)

/-! The shifts of R81. -/
@[simp] abbrev shiftOpcode : Nat := 56
@[simp] abbrev shiftKey2 : Nat := 48
@[simp] abbrev shiftStatus : Nat := 47
@[simp] abbrev shiftCartridge : Nat := 31
@[simp] abbrev shiftFrame : Nat := 15

/-! The opcode numbers of R83. -/
@[simp] abbrev opInit : Nat := 0
@[simp] abbrev opZero : Nat := 1
@[simp] abbrev opLoad : Nat := 2
@[simp] abbrev opRead : Nat := 3
@[simp] abbrev opWrite : Nat := 4
@[simp] abbrev opOff : Nat := 5

/-- The response word the environment draws for transfer number `n` (R14, U7, U9). -/
opaque drawWord : Nat → Word

/-- Byte `i` of the buffer the environment draws for transfer number `n` (R14, U8, U10, U11). -/
opaque drawByte : Nat → Nat → Byte

/-- Byte `a` of a device content that is unspecified since transfer number `n` (R59, U13). -/
opaque freeDeviceByte : Nat → Nat → Byte

/-- The cartridge the device has mounted after a transfer `n` that leaves it unspecified (R38, log entries 6 and 11). -/
opaque freeMounted : Nat → Option (Fin 64)

/-- `next_free` after a powerOn that failed at draw `n` (R38, R161, U16). -/
opaque freeNextFree : Nat → Fin 65537

/-- `n_files` after a powerOn that failed at draw `n` (R38, R161, U16), before it is brought into the register's range. -/
opaque freeNFiles : Nat → Nat

/-- The File Table after a powerOn that failed at draw `n` (R38, R161, U16). -/
opaque freeTable : Nat → List FileRecord

/-- Byte `i` of `scratch` after a powerOn that failed at draw `n` (R38, decision D12). -/
opaque freeScratch : Nat → Nat → Byte

end Sys2Proof.Config
end

