-- ==== Sys2Proof/Syntax.lean ====
section
/-! DEFINITION. The instructions: one constructor for each row of spec/opcode_table.json, six bus commands
(spec/41_bus_commands.md R110 to R115), seven host commands (spec/30_encoding.md R88) and the reserved host code
(R89); and the two forms in which they are presented to the block's decoder. -/

namespace Sys2Proof

/-- The six names of the source's opcode enumeration (R83, R105). -/
inductive BusCommand
  | initSystem
  | zeroCartridge
  | loadCartridge
  | readFrame
  | writeFrame
  | powerOff
deriving DecidableEq, Repr

/-- One constructor per row of spec/opcode_table.json. -/
inductive Instr
  /-- InitSystem, R110. -/
  | initSystem
  /-- ZeroCartridge, R111. -/
  | zeroCartridge
  /-- LoadCartridge `c`, R112; the operand as wide as its field. -/
  | loadCartridge (c : BitVec 16)
  /-- ReadFrame `f`, R113. -/
  | readFrame (f : BitVec 16)
  /-- WriteFrame `f`, R114. -/
  | writeFrame (f : BitVec 16)
  /-- the bus command PowerOff, R115. -/
  | busPowerOff
  /-- powerOn, R160. -/
  | powerOn
  /-- the host command powerOff, R162. -/
  | powerOff
  /-- open, R131. -/
  | openFile (path : Path)
  /-- close, R133. -/
  | close (handle : Nat)
  /-- read, R140. -/
  | read (handle : Nat) (count : Nat)
  /-- write, R143. -/
  | write (handle : Nat) (data : List Byte)
  /-- seek, R147. -/
  | seek (handle : Nat) (offset : Nat)
  /-- `hcmd` = 7, R89. -/
  | reserved7
deriving DecidableEq, Repr

/-- What the host presents on its port (R88): the command code and the operand lines, as values. `number` is the
count of a read and the offset of a seek; a command looks only at the lines it takes. -/
structure HostWord where
  hcmd   : BitVec 3
  path   : Path
  handle : Nat
  number : Nat
  data   : List Byte
deriving DecidableEq, Repr

/-- A presented command: a host command on the host port, or the request word the sequencer has ready for the
bus port. -/
inductive Encoded
  | host (h : HostWord)
  | bus (w : Word)
deriving DecidableEq, Repr

end Sys2Proof
end

