-- ==== Sys2Proof/WellFormed.lean ====
section
/-! DEFINITION. The operand ranges the spec gives: cartridge and frame indices of requests (spec/30_encoding.md
R84, spec/41_bus_commands.md R117) and the widths of the host port (R88). -/

namespace Sys2Proof

/-- The operands are in the ranges the spec gives them. -/
def Instr.wellFormed (p : Config.Params) : Instr → Bool
  | .initSystem => true
  | .zeroCartridge => true
  | .loadCartridge c => decide (c.toNat < 64)
  | .readFrame f => decide (f.toNat < 1024)
  | .writeFrame f => decide (f.toNat < 1024)
  | .busPowerOff => true
  | .powerOn => true
  | .powerOff => true
  | .openFile _ => true
  | .close h => decide (h < 2 ^ p.lenW)
  | .read h n => decide (h < 2 ^ p.lenW) && decide (n < 2 ^ p.lenW)
  | .write h bs => decide (h < 2 ^ p.lenW) && decide (bs.length < 2 ^ p.lenW)
  | .seek h o => decide (h < 2 ^ p.lenW) && decide (o < 2 ^ p.lenW)
  | .reserved7 => true

end Sys2Proof
end

