-- ==== Sys2Proof/Decode.lean ====
section
/-! DEFINITION. The Register Codec (spec/40_register_codec.md R100, R101), the decoder of presented commands, and
the encoder (spec/30_encoding.md R80 to R90). -/

namespace Sys2Proof

/-- The five logical fields of a TransferWord (R81). -/
structure Fields where
  opcode         : BitVec 8
  key2           : BitVec 8
  status         : BitVec 1
  cartridgeIndex : BitVec 16
  frameIndex     : BitVec 16
deriving DecidableEq, Repr

/-- `pack` (R100): each argument, of any width, is masked to its field and shifted into place. -/
def pack (op k2 st c f : Nat) : Word :=
  ((BitVec.ofNat 64 op &&& 0xFF#64) <<< Config.shiftOpcode)
    ||| ((BitVec.ofNat 64 k2 &&& 0xFF#64) <<< Config.shiftKey2)
    ||| ((BitVec.ofNat 64 st &&& 0x1#64) <<< Config.shiftStatus)
    ||| ((BitVec.ofNat 64 c &&& 0xFFFF#64) <<< Config.shiftCartridge)
    ||| ((BitVec.ofNat 64 f &&& 0xFFFF#64) <<< Config.shiftFrame)

/-- `unpack` (R101): each field is shifted down and masked; `w[14:0]` is ignored. -/
def unpack (w : Word) : Fields :=
  { opcode         := ((w >>> Config.shiftOpcode) &&& 0xFF#64).setWidth 8
    key2           := ((w >>> Config.shiftKey2) &&& 0xFF#64).setWidth 8
    status         := ((w >>> Config.shiftStatus) &&& 0x1#64).setWidth 1
    cartridgeIndex := ((w >>> Config.shiftCartridge) &&& 0xFFFF#64).setWidth 16
    frameIndex     := ((w >>> Config.shiftFrame) &&& 0xFFFF#64).setWidth 16 }

/-- `pack` of unpacked fields, as in R103. -/
def Fields.repack (u : Fields) : Word :=
  pack u.opcode.toNat u.key2.toNat u.status.toNat u.cartridgeIndex.toNat u.frameIndex.toNat

/-- The opcode number of a bus command (R83, R105). -/
def BusCommand.code : BusCommand → Nat
  | .initSystem => Config.opInit
  | .zeroCartridge => Config.opZero
  | .loadCartridge => Config.opLoad
  | .readFrame => Config.opRead
  | .writeFrame => Config.opWrite
  | .powerOff => Config.opOff

/-- The partial decoder from opcode numbers to names (R105): numbers outside the six give none (R86). -/
def BusCommand.ofCode (n : Nat) : Option BusCommand :=
  if n = Config.opInit then some .initSystem
  else if n = Config.opZero then some .zeroCartridge
  else if n = Config.opLoad then some .loadCartridge
  else if n = Config.opRead then some .readFrame
  else if n = Config.opWrite then some .writeFrame
  else if n = Config.opOff then some .powerOff
  else none

/-! The request words (R84, R90): `key2`, `status` and every address field the command does not use are 0. -/

def requestInit : Word := pack Config.opInit 0 0 0 0
def requestZero : Word := pack Config.opZero 0 0 0 0
def requestLoad (c : Nat) : Word := pack Config.opLoad 0 0 c 0
def requestRead (f : Nat) : Word := pack Config.opRead 0 0 0 f
def requestWrite (f : Nat) : Word := pack Config.opWrite 0 0 0 f
def requestOff : Word := pack Config.opOff 0 0 0 0

/-- Why a word is no request of the block (R84 to R86, R117). -/
inductive DecodeError
  /-- `opcode` 6 to 255 selects no bus command (R86). -/
  | reservedOpcode (op : BitVec 8)
  /-- `key2` is not 0 (R85). -/
  | key2NotZero
  /-- `status` is not 0 in a request (R85). -/
  | statusNotZero
  /-- an address field the command does not use is not 0 (R84). -/
  | unusedFieldNotZero
  /-- `w[14:0]` is not 0 (R54). -/
  | unusedBitsNotZero
deriving DecidableEq, Repr

/-- The bus command whose request word is `w`, or the reason it is none. -/
def decodeBus (w : Word) : Except DecodeError Instr :=
  let u := unpack w
  match BusCommand.ofCode u.opcode.toNat with
  | none => .error (.reservedOpcode u.opcode)
  | some k =>
    if u.key2 ≠ 0#8 then .error .key2NotZero
    else if u.status ≠ 0#1 then .error .statusNotZero
    else if w &&& 0x7FFF#64 ≠ 0#64 then .error .unusedBitsNotZero
    else match k with
      | .initSystem =>
        if u.cartridgeIndex = 0#16 ∧ u.frameIndex = 0#16 then .ok .initSystem else .error .unusedFieldNotZero
      | .zeroCartridge =>
        if u.cartridgeIndex = 0#16 ∧ u.frameIndex = 0#16 then .ok .zeroCartridge else .error .unusedFieldNotZero
      | .loadCartridge =>
        if u.frameIndex = 0#16 then .ok (.loadCartridge u.cartridgeIndex) else .error .unusedFieldNotZero
      | .readFrame =>
        if u.cartridgeIndex = 0#16 then .ok (.readFrame u.frameIndex) else .error .unusedFieldNotZero
      | .writeFrame =>
        if u.cartridgeIndex = 0#16 then .ok (.writeFrame u.frameIndex) else .error .unusedFieldNotZero
      | .powerOff =>
        if u.cartridgeIndex = 0#16 ∧ u.frameIndex = 0#16 then .ok .busPowerOff else .error .unusedFieldNotZero

/-- The host command a presentation names (R88, R89); total, all eight codes have a row. -/
def decodeHost (h : HostWord) : Instr :=
  match h.hcmd.toNat with
  | 0 => .powerOn
  | 1 => .powerOff
  | 2 => .openFile h.path
  | 3 => .close h.handle
  | 4 => .read h.handle h.number
  | 5 => .write h.handle h.data
  | 6 => .seek h.handle h.number
  | _ => .reserved7

/-- The decoder: total on every presentation. -/
def decode : Encoded → Except DecodeError Instr
  | .host h => .ok (decodeHost h)
  | .bus w => decodeBus w

/-- A presentation with the code `n` and every operand line at zero. -/
def HostWord.bare (n : Nat) : HostWord :=
  { hcmd := BitVec.ofNat 3 n, path := [], handle := 0, number := 0, data := [] }

/-- The encoder: the request word (R84, R90) or the host presentation (R88) of an instruction. -/
def encode : Instr → Encoded
  | .initSystem => .bus requestInit
  | .zeroCartridge => .bus requestZero
  | .loadCartridge c => .bus (requestLoad c.toNat)
  | .readFrame f => .bus (requestRead f.toNat)
  | .writeFrame f => .bus (requestWrite f.toNat)
  | .busPowerOff => .bus requestOff
  | .powerOn => .host (.bare 0)
  | .powerOff => .host (.bare 1)
  | .openFile p => .host { HostWord.bare 2 with path := p }
  | .close h => .host { HostWord.bare 3 with handle := h }
  | .read h n => .host { HostWord.bare 4 with handle := h, number := n }
  | .write h bs => .host { HostWord.bare 5 with handle := h, data := bs }
  | .seek h o => .host { HostWord.bare 6 with handle := h, number := o }
  | .reserved7 => .host (.bare 7)

/-- The presentation that bits `w` of a table row of `nbits` bits stand for: up to one byte, a host command code
with every operand line at zero; up to 64 bits, a request word. No byte order enters: the spec defines none (R63). -/
def tableWord (nbits w : Nat) : Option Encoded :=
  if nbits ≤ 8 then
    if w < 8 then some (.host (.bare w)) else none
  else if nbits ≤ 64 then
    if w < 2 ^ 64 then some (.bus (BitVec.ofNat 64 w)) else none
  else none

/-- The instruction the decoder reads from a table row's bits; none where it refuses. -/
def decodeTableWord (nbits w : Nat) : Option Instr :=
  match tableWord nbits w with
  | none => none
  | some e =>
    match decode e with
    | .ok i => some i
    | .error _ => none

end Sys2Proof
end

