-- ==== Sys2Proof/Machine/State.lean ====
section
/-! DEFINITION. The state of the block and of its two ports as plain data (spec/10_state.md R20 to R39), the
reasons a step can stop, and the state after hardware reset (R38, spec/70_reset_and_hazards.md R190). -/

namespace Sys2Proof.Machine

/-- The error kinds (spec/60_exceptions.md R170); the set is closed. -/
inductive ErrorKind
  | invalidHandle
  | notOpen
  | alreadyOpen
  | outOfRange
  | deviceFull
  | deviceError
  | tooManyFiles
deriving DecidableEq, Repr

/-- The success values of the host commands (R88). -/
inductive Value
  | unit
  | handle (h : Nat)
  | data (bytes : List Byte)
  | written (n : Nat)
deriving DecidableEq, Repr

/-- A result: a value or an error kind, never both (R176). -/
inductive HostResult
  | success (v : Value)
  | error (e : ErrorKind)
deriving DecidableEq, Repr

/-- A completed transfer (R58): request word, buffer passed, response word, buffer filled (ReadFrame only). -/
structure Event where
  cmd  : Word
  out  : Option Frame
  resp : Word
  inp  : Option Frame
deriving DecidableEq, Repr

/-- What a transfer returns (R12): the response word, and the buffer as the callee left it (meaningful only for
ReadFrame). -/
structure Answer where
  resp : Word
  data : Frame
deriving DecidableEq, Repr

/-- What answers the block's transfers (R4, R14, R59; log entry 3). -/
inductive Agent
  /-- Any Bus Transport: the answers it will give next, then free draws (R14). -/
  | oracle (answers : List Answer)
  /-- The reference device (R59), with single responses overridden: `some w` answers `w` in place of its own word. -/
  | reference (overrides : List (Option Word))
deriving DecidableEq, Repr

/-- What a byte of a cartridge holds where no byte is listed. -/
inductive Background
  /-- Zero: the cartridge has been zeroed (R111). -/
  | zero
  /-- Unspecified since transfer number `n` (R59, U13): a free value for each byte. -/
  | unspecified (n : Nat)
deriving DecidableEq, Repr

/-- The reference device's frame store (R50, R59, R67): byte `i` of frame `(c, f)` at address
`(c * 1024 + f) * 1024 + i`. `cells` lists, at rising addresses, the bytes that differ from the background. -/
structure Memory where
  base  : Vector Background 64
  cells : List Host.Cell
deriving DecidableEq, Repr

/-- The bus port and what lies behind it (R37, R58, R59). -/
structure Bus where
  /-- Who answers. -/
  agent   : Agent
  /-- The mounted cartridge of the reference device. -/
  mounted : Option (Fin 64)
  /-- The frame store of the reference device. -/
  mem     : Memory
  /-- The model's own counter of transfers: the index of the next free draw. -/
  draws   : Nat
  /-- The transfers of the current host command, oldest first (R58). -/
  trace   : List Event
deriving DecidableEq, Repr

/-- A read in progress (R34): handle, bytes remaining, output so far. -/
structure ReadJob where
  handle : Nat
  rem    : Nat
  out    : List Byte
deriving DecidableEq, Repr

/-- A write in progress (R34): handle, input bytes still to move, length of the whole input. -/
structure WriteJob where
  handle : Nat
  rest   : List Byte
  total  : Nat
deriving DecidableEq, Repr

/-- The point of a command at which the sequencer waits for a transfer (R150). -/
inductive Job
  /-- A transfer of its own, part of no host command. -/
  | single
  /-- INIT of powerOn. -/
  | init
  /-- LOAD of powerOn, cartridge `c`. -/
  | load (c : Fin 64)
  /-- ZERO of powerOn, cartridge `c`. -/
  | zero (c : Fin 64)
  /-- OFF of powerOff. -/
  | off
  /-- LOAD of read. -/
  | readLoad (j : ReadJob)
  /-- FETCH of read. -/
  | readFetch (j : ReadJob)
  /-- LOAD of write. -/
  | writeLoad (j : WriteJob)
  /-- FETCH of write. -/
  | writeFetch (j : WriteJob)
  /-- STORE of write. -/
  | writeStore (j : WriteJob)
deriving DecidableEq, Repr

/-- The sequencer (R150): idle between host commands, or waiting for the transfer of a request word (R34). -/
inductive Seq
  | idle
  | waiting (request : Word) (job : Job)
deriving DecidableEq, Repr

/-- The machine: the state of the block (R22 to R33), its sequencer, and its two ports. -/
structure State where
  /-- The implementation's parameters (R7); no step writes them. -/
  cfg      : Config.Params
  /-- `powered` (R22). -/
  powered  : Bool
  /-- `next_free`, 0 to 65536 (R23). -/
  nextFree : Fin 65537
  /-- `n_files` (R24). -/
  nFiles   : Nat
  /-- `ft` (R25): the record of handle `h` at index `h`. -/
  ft       : List FileRecord
  /-- `scratch` (R33). -/
  scratch  : Frame
  /-- The sequencer (R38, R150). -/
  seq      : Seq
  /-- Host port, in: the commands the host will present, next first (R4, R88). -/
  pending  : List HostWord
  /-- Host port, out: the result of the last command (R88, R174). -/
  result   : Option HostResult
  /-- Bus port (R58). -/
  bus      : Bus
deriving DecidableEq, Repr

/-- Why the machine stops: an assumption about its environment was broken. -/
inductive Fault
  /-- The reference device was sent a request in a case R59 does not list ("a model must treat it as a fault of the
  environment"). Raised by the bus commands run on their own; no host command causes it (R117). Safe: it stops. -/
  | environment
  /-- A host command was given while another is in progress (R194, U18). Raised by every host command's meaning
  when the sequencer is not idle; `step` never does it. Safe. -/
  | hostOverlap
  /-- A read whose byte range the record's frame list does not cover: R31 invariant (2) is broken and R62 gives
  no address. Raised by read; no state that meets the invariant has it (log entry 12). Safe. -/
  | rangeNotCovered
deriving DecidableEq, Repr

/-- Why an instruction has no meaning. -/
inductive Refusal
  /-- Not modelled yet. Raised by a dispatch arm only; safe. -/
  | notModelled (mnemonic : String)
  /-- A host command other than powerOn while `powered = 0` (R164, U14). Raised by powerOff, open, close, read,
  write and seek. Safe. -/
  | notPowered
  /-- `hcmd` = 7 (R89, U15). Raised by reserved7. Safe. -/
  | reservedCommand
  /-- The sequencer's request word is no request of the block (R84 to R86, R117). Raised by `step`. Safe. -/
  | notARequest (e : DecodeError)
deriving DecidableEq, Repr

/-- A frame store whose content is unspecified throughout since transfer number `n` (R59, U13). -/
def Memory.unspecified (n : Nat) : Memory :=
  { base := Vector.replicate 64 (.unspecified n), cells := [] }

/-- The state right after hardware reset (R38, R190): `powered` 0 and the sequencer idle. The other registers,
which R38 leaves unspecified, hold the values log entry 1 names; the ports' values are log entries 2 to 4. -/
def State.reset : State :=
  { cfg      := Config.params
    powered  := false
    nextFree := 0
    nFiles   := 0
    ft       := []
    scratch  := Frame.zero
    seq      := .idle
    pending  := []
    result   := none
    bus      := { agent := .oracle [], mounted := none, mem := .unspecified 0, draws := 1, trace := [] } }

end Sys2Proof.Machine
end

