-- ==== Sys2Proof/Machine/Flags.lean ====
section
/-! DEFINITION. The one-bit indicators (spec/10_state.md R36): the status bit of a response word, `powered`, and
the open flag of a record. The block has no condition codes and no arithmetic flags. -/

namespace Sys2Proof.Machine

/-- The status field of a word: 0 success, 1 failure (R36, R80). -/
def statusOf (w : Word) : BitVec 1 := (unpack w).status

/-- The status check's condition (R55): the response reports failure. No other bit of it is read (R53). -/
def failed (resp : Word) : Bool := decide (statusOf resp = 1#1)

/-- `powered <- b` (R22). -/
def State.setPowered (b : Bool) (s : State) : State := { s with powered := b }

/-- The record with its open flag set or cleared (R28). -/
def withOpen (b : Bool) (r : FileRecord) : FileRecord := { r with isOpen := b }

end Sys2Proof.Machine
end

