-- ==== Sys2Proof/Machine/Operands.lean ====
section
/-! DEFINITION. The operand forms: the File Table behind a handle (spec/43_file_table.md R130 to R135), a path, a
count, an offset, and byte ranges with their split into frames (spec/44_rw_engine.md R140, R143, R149). -/

namespace Sys2Proof.Machine

/-! ### The table as a map from handles to records (R25) -/

/-- `ft[h]`. -/
def tableGet (t : List FileRecord) (h : Nat) : FileRecord := t.getD h FileRecord.blank

/-- `ft[h] <- r`: handle `h` holds `r` and every other handle what it held. -/
def tableSet : List FileRecord → Nat → FileRecord → List FileRecord
  | [], 0, r => [r]
  | [], h + 1, r => FileRecord.blank :: tableSet [] h r
  | _ :: t, 0, r => r :: t
  | x :: t, h + 1, r => x :: tableSet t h r

/-- `ft[h]` of the machine. -/
def State.record (s : State) (h : Nat) : FileRecord := tableGet s.ft h

/-- `ft[h] <- r` of the machine. -/
def State.setRecord (h : Nat) (r : FileRecord) (s : State) : State := { s with ft := tableSet s.ft h r }

/-- `ft[h].open <- b` (R28). -/
def State.setOpen (h : Nat) (b : Bool) (s : State) : State := s.setRecord h (withOpen b (s.record h))

/-- `ft[h].cursor <- p` (R27). -/
def State.setCursor (h : Nat) (p : Nat) (s : State) : State :=
  s.setRecord h { s.record h with cursor := p }

/-- `ft[h].end <- p` (R27). -/
def State.setEnd (h : Nat) (p : Nat) (s : State) : State :=
  s.setRecord h { s.record h with endPos := p }

/-- The handle whose record has path `p`, when one is known (R131, R135). -/
def State.findPath (s : State) (p : Path) : Option Nat :=
  (List.range s.nFiles).find? (fun h => decide ((s.record h).path = p))

/-! ### Byte ranges and frames -/

/-- `ceil(a / 1024)` (R9). -/
def ceilFrames (a : Nat) : Nat := (a + 1023) / 1024

/-- `bytesToRead` (R140): the count clamped to what is left before the end. -/
def bytesToRead (r : FileRecord) (count : Nat) : Nat :=
  if r.endPos ≤ r.cursor then 0 else min count (r.endPos - r.cursor)

/-- How many frames a write of `len` bytes must append (R143, R145). -/
def framesMissing (r : FileRecord) (len : Nat) : Nat := ceilFrames (r.cursor + len) - r.frames.length

/-- No byte is asked for, or the frame list covers the `n` bytes from the cursor on (R62, R149). -/
def covered (r : FileRecord) (n : Nat) : Bool := decide (n = 0 ∨ r.cursor + n ≤ 1024 * r.frames.length)

/-- `frames[frameListIndex]` at the cursor (R62). The default is never used: the engine only asks inside the
list (R62, R149; log entry 12). -/
def frameAtCursor (r : FileRecord) : FrameAddress := r.frames.getD (r.cursor / 1024) ⟨0, 0⟩

/-- `offsetInFrame` (R62). -/
def offsetAtCursor (r : FileRecord) : Nat := r.cursor % 1024

/-- The bytes one iteration moves: `min(1024 - offsetInFrame, bytesRemaining)` (R141, R144, R196). -/
def chunkSize (r : FileRecord) (rem : Nat) : Nat := min (1024 - offsetAtCursor r) rem

/-- The iterations of a transfer of `n` bytes that starts at cursor `c` (R149). -/
def iterations (c n : Nat) : Nat := if n = 0 then 0 else (c + n - 1) / 1024 - c / 1024 + 1

/-! ### Frame buffers (R10, R65) -/

/-- `buf[off .. off + k)`. -/
def slice (b : Frame) (off k : Nat) : List Byte := (b.bytes.drop off).take k

/-- `buf[off .. off + len(bs)) <- bs`, kept inside the 1024 bytes (R65, R196). -/
def overwrite (b : Frame) (off : Nat) (bs : List Byte) : Frame :=
  ⟨b.bytes.take off ++ bs.take (1024 - off) ++ b.bytes.drop (off + bs.length), by
    simp only [List.length_append, List.length_take, List.length_drop, b.size]; omega⟩

/-- The buffer whose byte `i` is `g i`. -/
@[irreducible] def tabulate (g : Nat → Byte) : Frame :=
  ⟨(List.range 1024).map g, by rw [List.length_map, List.length_range]⟩

end Sys2Proof.Machine
end

