-- ==== Sys2Proof/Machine/Ops.lean ====
section
/-! DEFINITION. The shared operations: the device's frame store, one transfer on the bus port and its status check
(spec/20_memory.md R51 to R61), the six requests, the Frame Allocator (spec/42_frame_allocator.md), and the
reporting of results and errors, which stands where other hardware takes an exception (spec/60_exceptions.md R174). -/

namespace Sys2Proof.Machine

/-! ### The frame store (R50, R59, R67) -/

/-- The device address of byte `i` of frame `a` (R67). -/
def byteAddress (a : FrameAddress) (i : Nat) : Nat := a.linear * 1024 + i

/-- What address `a` reads as where no byte is listed (log entry 5). -/
def Memory.background (m : Memory) (a : Nat) : Byte :=
  match m.base[a / 1048576]? with
  | some (.unspecified n) => Config.freeDeviceByte n a
  | _ => 0

/-- The byte listed at address `a`, if one is. -/
def lookupCell : List Host.Cell → Nat → Option Byte
  | [], _ => none
  | (b, v) :: t, a => if b = a then some v else lookupCell t a

/-- The byte at device address `a`. -/
def Memory.read (m : Memory) (a : Nat) : Byte := (lookupCell m.cells a).getD (m.background a)

/-- The canonical form: addresses strictly rising and inside the device, no byte equal to its background. -/
abbrev Memory.wf (m : Memory) : Prop :=
  m.cells.Pairwise (fun x y => x.1 < y.1) ∧ ∀ x ∈ m.cells, x.1 < 67108864 ∧ x.2 ≠ m.background x.1

/-- The bytes of a row at `a`, `a + 1`, … that must be listed over the background `bg`. -/
def rowCells (bg : Nat → Byte) : Nat → List Byte → List Host.Cell
  | _, [] => []
  | a, b :: bs => if b = bg a then rowCells bg (a + 1) bs else (a, b) :: rowCells bg (a + 1) bs

/-- The cells with those at addresses `lo` to `hi - 1` replaced by `new`. -/
def replaceCells (cells : List Host.Cell) (lo hi : Nat) (new : List Host.Cell) : List Host.Cell :=
  cells.filter (fun x => decide (x.1 < lo)) ++ new ++ cells.filter (fun x => decide (hi ≤ x.1))

/-- `dev[c][f]`. -/
def Memory.readFrame (m : Memory) (a : FrameAddress) : Frame :=
  tabulate (fun i => m.read (byteAddress a i))

/-- `dev[c][f] <- b`. -/
def Memory.writeFrame (m : Memory) (a : FrameAddress) (b : Frame) : Memory :=
  { m with cells := replaceCells m.cells (byteAddress a 0) (byteAddress a 1024)
             (rowCells m.background (byteAddress a 0) b.bytes) }

/-- Cartridge `c` as a whole takes the background `g`, no byte listed. -/
def Memory.fillCartridge (m : Memory) (c : Fin 64) (g : Background) : Memory :=
  { base := m.base.set c.val g c.isLt
    cells := replaceCells m.cells (c.val * 1048576) ((c.val + 1) * 1048576) [] }

/-! ### The reference device (R59) -/

/-- What a listed case of R59 does: the buffer filled (ReadFrame), the mounted cartridge and the frame store after. -/
structure Served where
  data    : Frame
  mounted : Option (Fin 64)
  mem     : Memory

/-- One transfer of the reference device; none in every case R59 does not list. DESIGN CHOICE: R59's table puts no
condition on `key2`, on `w[14:0]` or on an address field the command does not use, while note N6 counts a request with
`key2` or `w[14:0]` not 0 among those whose answer is not in the source; the model serves such a word as the listed case
its other fields make it (log entry 20). The block never sends one (R117). -/
def Bus.serve (b : Bus) (cmd : Word) (out : Option Frame) : Option Served :=
  let u := unpack cmd
  if u.status ≠ 0#1 then none
  else match BusCommand.ofCode u.opcode.toNat with
    | none => none
    | some .initSystem => some { data := Frame.zero, mounted := none, mem := .unspecified b.draws }
    | some .powerOff => some { data := Frame.zero, mounted := none, mem := .unspecified b.draws }
    | some .loadCartridge =>
      if h : u.cartridgeIndex.toNat < 64 then
        some { data := Frame.zero, mounted := some ⟨u.cartridgeIndex.toNat, h⟩, mem := b.mem }
      else none
    | some .zeroCartridge =>
      match b.mounted with
      | some m => some { data := Frame.zero, mounted := some m, mem := b.mem.fillCartridge m .zero }
      | none => none
    | some .readFrame =>
      match b.mounted, out with
      | some m, some _ =>
        if h : u.frameIndex.toNat < 1024 then
          some { data := b.mem.readFrame ⟨m, ⟨u.frameIndex.toNat, h⟩⟩, mounted := some m, mem := b.mem }
        else none
      | _, _ => none
    | some .writeFrame =>
      match b.mounted, out with
      | some m, some buf =>
        if h : u.frameIndex.toNat < 1024 then
          some { data := Frame.zero, mounted := some m,
                 mem := b.mem.writeFrame ⟨m, ⟨u.frameIndex.toNat, h⟩⟩ buf }
        else none
      | _, _ => none

/-- The buffer the environment draws for transfer `n` (R14, U8, U10). -/
def drawFrame (n : Nat) : Frame := tabulate (Config.drawByte n)

/-- The device after a listed transfer it answers with failure: what the transfer would have written is
unspecified (U11, R61, R198; log entry 6). A powerOn that ends in such a failure loses the rest too (`Bus.lose`). -/
def Bus.afterFailure (b : Bus) (cmd : Word) : Bus :=
  let u := unpack cmd
  match BusCommand.ofCode u.opcode.toNat with
  | none => b
  | some .initSystem => { b with mounted := Config.freeMounted b.draws, mem := .unspecified b.draws }
  | some .powerOff => { b with mounted := Config.freeMounted b.draws, mem := .unspecified b.draws }
  | some .loadCartridge => { b with mounted := Config.freeMounted b.draws }
  | some .zeroCartridge =>
    match b.mounted with
    | some m => { b with mem := b.mem.fillCartridge m (.unspecified b.draws) }
    | none => b
  | some .readFrame => b
  | some .writeFrame =>
    match b.mounted with
    | some m => { b with mem := b.mem.writeFrame ⟨m, Fin.ofNat 1024 u.frameIndex.toNat⟩ (drawFrame b.draws) }
    | none => b

/-- The device after a powerOn that failed: which cartridge is mounted and what every frame holds are unspecified from
the last transfer on (R38, R161). Only the reference device has either (log entry 3). -/
def Bus.lose (b : Bus) : Bus :=
  { b with
    mounted := match b.agent with
      | .oracle _ => b.mounted
      | .reference _ => Config.freeMounted (b.draws - 1)
    mem := match b.agent with
      | .oracle _ => b.mem
      | .reference _ => .unspecified (b.draws - 1) }

/-- The reference device's own response word: the request's fields with status 0 (R59). -/
def echo (cmd : Word) : Word :=
  let u := unpack cmd
  pack u.opcode.toNat u.key2.toNat 0 u.cartridgeIndex.toNat u.frameIndex.toNat

/-! ### One transfer (R51 to R58) -/

/-- Who answers a transfer, with what, and the bus side after it, the counter and the trace apart. -/
def Bus.respond (b : Bus) (cmd : Word) (out : Option Frame) : Answer × Bus :=
  match b.agent with
  | .oracle (a :: rest) => (a, { b with agent := .oracle rest })
  | .oracle [] => ({ resp := Config.drawWord b.draws, data := drawFrame b.draws }, b)
  | .reference overrides =>
    let b1 := { b with agent := .reference overrides.tail }
    match b.serve cmd out with
    | none =>
      ({ resp := Config.drawWord b.draws, data := drawFrame b.draws },
       { b1 with mounted := Config.freeMounted b.draws, mem := .unspecified b.draws })
    | some d =>
      match overrides.head? with
      | some (some w) =>
        if failed w then ({ resp := w, data := drawFrame b.draws }, b1.afterFailure cmd)
        else ({ resp := w, data := d.data }, { b1 with mounted := d.mounted, mem := d.mem })
      | _ => ({ resp := echo cmd, data := d.data }, { b1 with mounted := d.mounted, mem := d.mem })

/-- The word's opcode is ReadFrame's: the only command whose buffer the callee fills (R52). -/
def isRead (cmd : Word) : Bool := decide ((unpack cmd).opcode.toNat = Config.opRead)

/-- `Xfer(cmd, out)` (R12, R51): the answer, and the bus side with the event recorded (R58). -/
def Bus.xfer (b : Bus) (cmd : Word) (out : Option Frame) : Answer × Bus :=
  let r := b.respond cmd out
  (r.1, { r.2 with
            draws := b.draws + 1
            trace := b.trace ++ [{ cmd := cmd, out := out, resp := r.1.resp,
                                   inp := if isRead cmd then some r.1.data else none }] })

/-- The environment takes the request: any Bus Transport does, the reference device in the cases R59 lists. -/
def Bus.accepts (b : Bus) (cmd : Word) (out : Option Frame) : Bool :=
  match b.agent with
  | .oracle _ => true
  | .reference _ => (b.serve cmd out).isSome

/-! ### Flow of a host command (R13) -/

/-- What a piece of a host command comes to: it goes on with a value, or it has raised an error. The state
written before a `raise` stays written (R13). -/
inductive Flow (α : Type) where
  | done (a : α) (s : State)
  | raised (e : ErrorKind) (s : State)
deriving Repr

/-- What comes next runs unless an error has been raised (R13). -/
def Flow.bind {α β : Type} (m : Flow α) (k : α → State → Flow β) : Flow β :=
  match m with
  | .done a s => k a s
  | .raised e s => .raised e s

/-- The state in which a flow ends, with or without an error. -/
def Flow.state {α : Type} (m : Flow α) : State :=
  match m with
  | .done _ s => s
  | .raised _ s => s

/-! ### Reporting, in place of trap entry and return (R174, R177) -/

/-- An error ends the command: its kind goes to the host and the sequencer to idle. Nothing is saved, no handler
is entered, nothing else is written (R172, R174). -/
def State.reportError (e : ErrorKind) (s : State) : State :=
  { s with result := some (.error e), seq := .idle }

/-- A success value ends the command (R13); there is no other return (R177). -/
def State.reportSuccess (v : Value) (s : State) : State :=
  { s with result := some (.success v), seq := .idle }

/-- The state after a command that came to `m`. -/
def finish (m : Flow Value) : State :=
  match m with
  | .done v s => s.reportSuccess v
  | .raised e s => s.reportError e

/-- `rc`, the 3-bit result code (R171). -/
def HostResult.rc : HostResult → BitVec 3
  | .success _ => 0
  | .error .invalidHandle => 1
  | .error .notOpen => 2
  | .error .alreadyOpen => 3
  | .error .outOfRange => 4
  | .error .deviceFull => 5
  | .error .deviceError => 6
  | .error .tooManyFiles => 7

/-! ### Starting a command -/

/-- A new host command starts with an empty trace (R58). -/
def State.start (s : State) : State := { s with bus := { s.bus with trace := [] } }

/-- The host gives a command only while the sequencer is idle (R194). -/
def whenIdle (s : State) (body : State → Host.Outcome State Fault Refusal) : Host.Outcome State Fault Refusal :=
  match s.seq with
  | .idle => body s.start
  | .waiting _ _ => .fault .hostOverlap

/-- Every host command but powerOn is refused while not powered (R164, R173). -/
def inSession (s : State) (body : State → Host.Outcome State Fault Refusal) : Host.Outcome State Fault Refusal :=
  whenIdle s (fun t => if t.powered then body t else .refused .notPowered)

/-! ### The six requests as the block issues them (R110 to R115), each with its status check (R55) -/

/-- `scratch <- b` (R33). -/
def State.setScratch (b : Frame) (s : State) : State := { s with scratch := b }

/-- The transfer alone: the answer, and the machine after it. -/
def State.issue (s : State) (cmd : Word) (out : Option Frame) : Answer × State :=
  ((s.bus.xfer cmd out).1, { s with bus := (s.bus.xfer cmd out).2 })

/-- The status check (R55): status 1 raises DeviceError at once, status 0 goes on. -/
def statusCheck (resp : Word) (s : State) : Flow Unit :=
  if failed resp then .raised .deviceError s else .done () s

def busInit (s : State) : Flow Unit :=
  let x := s.issue requestInit none
  statusCheck x.1.resp x.2

def busZero (s : State) : Flow Unit :=
  let x := s.issue requestZero none
  statusCheck x.1.resp x.2

def busLoad (c : Nat) (s : State) : Flow Unit :=
  let x := s.issue (requestLoad c) none
  statusCheck x.1.resp x.2

/-- ReadFrame leaves in `scratch` what the callee left in the buffer; after a failure nothing is known of it (R33, R113). -/
def busRead (f : Nat) (s : State) : Flow Unit :=
  let x := s.issue (requestRead f) (some s.scratch)
  statusCheck x.1.resp (x.2.setScratch x.1.data)

def busWrite (f : Nat) (s : State) : Flow Unit :=
  let x := s.issue (requestWrite f) (some s.scratch)
  statusCheck x.1.resp x.2

def busOff (s : State) : Flow Unit :=
  let x := s.issue requestOff none
  statusCheck x.1.resp x.2

/-- `FrameFetch(c, f)` (R60): LoadCartridge, then ReadFrame. -/
def frameFetch (a : FrameAddress) (s : State) : Flow Unit :=
  (busLoad a.cart.val s).bind (fun _ t => busRead a.frame.val t)

/-- `FrameStore(f)` (R61): WriteFrame, with no LoadCartridge before it. -/
def frameStore (f : Fin 1024) (s : State) : Flow Unit := busWrite f.val s

/-- One bus command run on its own: the transfer, its status check and the report; a fault of the environment
where the reference device does not list the request (R59). -/
def runBus (s : State) (cmd : Word) (out : Option Frame) (op : State → Flow Unit) : Host.Outcome State Fault Refusal :=
  if s.bus.accepts cmd out then .next (finish ((op s).bind (fun _ t => .done .unit t))) else .fault .environment

/-! ### The Frame Allocator (R120 to R127) -/

/-- The free address that comes first: cartridge `next_free / 1024`, frame `next_free % 1024` (R121). -/
def lowestFree (n : Nat) : FrameAddress := { cart := Fin.ofNat 64 (n / 1024), frame := Fin.ofNat 1024 (n % 1024) }

/-- `allocate` (R121): pops the lowest-ordered free address. The block only runs it inside `allocAppend` (R122). -/
def allocate (s : State) : Flow FrameAddress :=
  if h : s.nextFree.val < 65536 then
    .done (lowestFree s.nextFree.val) { s with nextFree := ⟨s.nextFree.val + 1, by omega⟩ }
  else .raised .deviceFull s

/-- `alloc_append(h)` (R122): allocation and assignment in one step, both or neither. -/
def allocAppend (h : Nat) (s : State) : Flow Unit :=
  (allocate s).bind (fun a t =>
    .done () (t.setRecord h { t.record h with frames := (t.record h).frames ++ [a] }))

/-- `n` times `alloc_append(h)`, up to the first that fails (R143, R145). -/
def allocFrames (h : Nat) : Nat → State → Flow Unit
  | 0, s => .done () s
  | n + 1, s => (allocAppend h s).bind (fun _ t => allocFrames h n t)

/-! ### Handles (R130) -/

/-- `resolve(h)`: InvalidHandle, then NotOpen. -/
def resolve (h : Nat) (s : State) : Flow Unit :=
  if ¬ h < s.nFiles then .raised .invalidHandle s
  else if (s.record h).isOpen = false then .raised .notOpen s
  else .done () s

end Sys2Proof.Machine
end

