-- ==== Sys2Proof/Machine/BusCommands.lean ====
section
/-! DEFINITION. The six bus commands (spec/41_bus_commands.md R110 to R115), each as the one transfer it is. -/

namespace Sys2Proof.Machine

/-- InitSystem (R110). -/
def execInitSystem (s : State) : Host.Outcome State Fault Refusal :=
  runBus s requestInit none busInit

/-- ZeroCartridge (R111). -/
def execZeroCartridge (s : State) : Host.Outcome State Fault Refusal :=
  runBus s requestZero none busZero

/-- LoadCartridge `c` (R112). -/
def execLoadCartridge (c : BitVec 16) (s : State) : Host.Outcome State Fault Refusal :=
  runBus s (requestLoad c.toNat) none (busLoad c.toNat)

/-- ReadFrame `f` (R113). -/
def execReadFrame (f : BitVec 16) (s : State) : Host.Outcome State Fault Refusal :=
  runBus s (requestRead f.toNat) (some s.scratch) (busRead f.toNat)

/-- WriteFrame `f` (R114). -/
def execWriteFrame (f : BitVec 16) (s : State) : Host.Outcome State Fault Refusal :=
  runBus s (requestWrite f.toNat) (some s.scratch) (busWrite f.toNat)

/-- PowerOff, the bus command (R115). -/
def execBusPowerOff (s : State) : Host.Outcome State Fault Refusal :=
  runBus s requestOff none busOff

end Sys2Proof.Machine
end

