-- ==== Sys2Proof/Machine/Engine.lean ====
section
/-! DEFINITION. The Read/Write Engine: read and write (spec/44_rw_engine.md R140 to R146). -/

namespace Sys2Proof.Machine

/-- `ft[h].cursor <- ft[h].cursor + k`. -/
def advanceCursor (h k : Nat) (s : State) : State := s.setCursor h ((s.record h).cursor + k)

/-- The copy step of read: the bytes of this iteration, from `scratch` at the cursor's offset (R141). -/
def chunkRead (h rem : Nat) (s : State) : List Byte :=
  slice s.scratch (offsetAtCursor (s.record h)) (chunkSize (s.record h) rem)

/-- The modify step of write: the bytes of this iteration go into `scratch`, the others stay as fetched (R144). -/
def modifyScratch (h : Nat) (rest : List Byte) (s : State) : State :=
  s.setScratch (overwrite s.scratch (offsetAtCursor (s.record h)) (rest.take (chunkSize (s.record h) rest.length)))

/-- `if ft[h].cursor > ft[h].end then ft[h].end <- ft[h].cursor` (R143, R146). -/
def commitLength (h : Nat) (s : State) : State :=
  if (s.record h).endPos < (s.record h).cursor then s.setEnd h (s.record h).cursor else s

/-- The loop of read (R140, R141). `fuel` bounds the iterations; each moves at least one byte, so the bytes
remaining at the start are enough. -/
def readLoop : Nat → Nat → Nat → List Byte → State → Flow (List Byte)
  | 0, _, _, out, s => .done out s
  | fuel + 1, h, rem, out, s =>
    if rem = 0 then .done out s
    else (frameFetch (frameAtCursor (s.record h)) s).bind (fun _ t =>
      readLoop fuel h (rem - chunkSize (t.record h) rem) (out ++ chunkRead h rem t)
        (advanceCursor h (chunkSize (t.record h) rem) t))

/-- read on a resolved handle whose clamped count is `n` (R140). -/
def readBytes (h n : Nat) (s : State) : Flow Value :=
  (readLoop n h n [] s).bind (fun out t => .done (.data out) t)

/-- read (R140 to R142). -/
def execRead (h count : Nat) (s : State) : Host.Outcome State Fault Refusal :=
  inSession s (fun t =>
    match resolve h t with
    | .raised e u => .next (u.reportError e)
    | .done _ u =>
      if covered (u.record h) (bytesToRead (u.record h) count) then
        .next (finish (readBytes h (bytesToRead (u.record h) count) u))
      else .fault .rangeNotCovered)

/-- The loop of write (R143, R144): fetch, modify, store, advance; `rest` is the input not yet moved. -/
def writeLoop : Nat → Nat → List Byte → State → Flow Unit
  | 0, _, _, s => .done () s
  | fuel + 1, h, rest, s =>
    if rest.length = 0 then .done () s
    else (frameFetch (frameAtCursor (s.record h)) s).bind (fun _ t =>
      (frameStore (frameAtCursor (t.record h)).frame (modifyScratch h rest t)).bind (fun _ u =>
        writeLoop fuel h (rest.drop (chunkSize (u.record h) rest.length))
          (advanceCursor h (chunkSize (u.record h) rest.length) u)))

/-- The end of write (R143): the length update on success, and on the abort path unless the parameter
`WRITE_ABORT_COMMITS_LENGTH` is false (R146). -/
def endWrite (h len : Nat) (m : Flow Unit) : Flow Value :=
  match m with
  | .done _ s => .done (.written len) (commitLength h s)
  | .raised e s => .raised e (if s.cfg.writeAbortCommitsLength then commitLength h s else s)

/-- write on a resolved handle (R143, R145): all allocation before the first transfer. -/
def writeBytes (h : Nat) (data : List Byte) (s : State) : Flow Value :=
  (allocFrames h (framesMissing (s.record h) data.length) s).bind (fun _ t =>
    endWrite h data.length (writeLoop data.length h data t))

/-- write (R143 to R146). -/
def execWrite (h : Nat) (data : List Byte) (s : State) : Host.Outcome State Fault Refusal :=
  inSession s (fun t => .next (finish ((resolve h t).bind (fun _ u => writeBytes h data u))))

end Sys2Proof.Machine
end

