-- ==== Sys2Proof/Machine/FileTable.lean ====
section
/-! DEFINITION. The File Table's commands: open, close (spec/43_file_table.md R131 to R136) and seek
(spec/44_rw_engine.md R147). None of them issues a transfer. -/

namespace Sys2Proof.Machine

/-- open of a known path (R131): AlreadyOpen, or the record reopened with its cursor at 0. -/
def reopen (h : Nat) (s : State) : Flow Value :=
  if (s.record h).isOpen then .raised .alreadyOpen s
  else .done (.handle h) (s.setRecord h { withOpen true (s.record h) with cursor := 0 })

/-- open of an unknown path (R131, R132, R134): TooManyFiles, or a new record under the next handle. -/
def createFile (p : Path) (s : State) : Flow Value :=
  if s.cfg.maxFiles ≤ s.nFiles then .raised .tooManyFiles s
  else .done (.handle s.nFiles)
    { s.setRecord s.nFiles { path := p, isOpen := true, endPos := 0, cursor := 0, frames := [] } with
      nFiles := s.nFiles + 1 }

/-- open(p) (R131). -/
def openPath (p : Path) (s : State) : Flow Value :=
  match s.findPath p with
  | some h => reopen h s
  | none => createFile p s

/-- open (R131). -/
def execOpen (p : Path) (s : State) : Host.Outcome State Fault Refusal :=
  inSession s (fun t => .next (finish (openPath p t)))

/-- close (R133). -/
def execClose (h : Nat) (s : State) : Host.Outcome State Fault Refusal :=
  inSession s (fun t => .next (finish ((resolve h t).bind (fun _ u => .done .unit (u.setOpen h false)))))

/-- seek to `o` on a resolved handle (R147). -/
def seekTo (h o : Nat) (s : State) : Flow Value :=
  if (s.record h).endPos < o then .raised .outOfRange s else .done .unit (s.setCursor h o)

/-- seek (R147). -/
def execSeek (h o : Nat) (s : State) : Host.Outcome State Fault Refusal :=
  inSession s (fun t => .next (finish ((resolve h t).bind (fun _ u => seekTo h o u))))

end Sys2Proof.Machine
end

