-- ==== Sys2Proof/Machine/Lifecycle.lean ====
section
/-! DEFINITION. Power on and power off (spec/45_lifecycle.md R160 to R165) and the reserved host code (R89). -/

namespace Sys2Proof.Machine

/-- LoadCartridge and ZeroCartridge for each cartridge of the list, in order (R160). -/
def zeroCartridges : List (Fin 64) → State → Flow Unit
  | [], s => .done () s
  | c :: cs, s => (busLoad c.val s).bind (fun _ t => (busZero t).bind (fun _ u => zeroCartridges cs u))

/-- The transfers of powerOn (R160): InitSystem, then cartridges 0 to 63. -/
def powerOnTransfers (s : State) : Flow Unit :=
  (busInit s).bind (fun _ t => zeroCartridges (List.finRange 64) t)

/-- A session begins: table empty, pool fully free, powered (R160, R191). `scratch` stays as it was: R38 calls it
unspecified here, and powerOn is not among the writers R33 lists (log entry 11). -/
def beginSession (s : State) : State :=
  { s with nFiles := 0, nextFree := 0, ft := [], powered := true }

/-- A failed powerOn: not powered; `n_files`, `next_free`, `ft` and `scratch`, the mounted cartridge and the device's
frames are unspecified from then on, here free values inside their ranges (R38, R161, decision D12; log entry 11). -/
def loseSession (s : State) : State :=
  { s with
    nFiles   := Config.freeNFiles s.bus.draws % (s.cfg.maxFiles + 1)
    nextFree := Config.freeNextFree s.bus.draws
    ft       := Config.freeTable s.bus.draws
    scratch  := tabulate (Config.freeScratch s.bus.draws)
    bus      := s.bus.lose
    powered  := false }

/-- What powerOn comes to after its transfers (R160, R161). -/
def endPowerOn (m : Flow Unit) : Flow Value :=
  match m with
  | .done _ s => .done .unit (beginSession s)
  | .raised e s => .raised e (loseSession s)

/-- powerOn (R160, R161, R165): accepted in every state between commands. -/
def execPowerOn (s : State) : Host.Outcome State Fault Refusal :=
  whenIdle s (fun t => .next (finish (endPowerOn (powerOnTransfers t))))

/-- What powerOff comes to after its transfer (R162, R163): on failure nothing changes. -/
def endPowerOff (m : Flow Unit) : Flow Value :=
  m.bind (fun _ s => .done .unit (s.setPowered false))

/-- powerOff (R162). -/
def execPowerOff (s : State) : Host.Outcome State Fault Refusal :=
  inSession s (fun t => .next (finish (endPowerOff (busOff t))))

/-- `hcmd` = 7 (R89): "A model treats it as refused". -/
def execReserved7 (_ : State) : Host.Outcome State Fault Refusal := .refused .reservedCommand

end Sys2Proof.Machine
end

