-- ==== Sys2Proof/Machine/Dispatch.lean ====
section
/-! DEFINITION. The meaning of each instruction, one arm per constructor. -/

namespace Sys2Proof.Machine

def exec (i : Instr) (s : State) : Host.Outcome State Fault Refusal :=
  match i with
  | .initSystem => Sys2Proof.Machine.execInitSystem s
  | .zeroCartridge => Sys2Proof.Machine.execZeroCartridge s
  | .loadCartridge c => Sys2Proof.Machine.execLoadCartridge c s
  | .readFrame f => Sys2Proof.Machine.execReadFrame f s
  | .writeFrame f => Sys2Proof.Machine.execWriteFrame f s
  | .busPowerOff => Sys2Proof.Machine.execBusPowerOff s
  | .powerOn => Sys2Proof.Machine.execPowerOn s
  | .powerOff => Sys2Proof.Machine.execPowerOff s
  | .openFile p => Sys2Proof.Machine.execOpen p s
  | .close h => Sys2Proof.Machine.execClose h s
  | .read h n => Sys2Proof.Machine.execRead h n s
  | .write h bs => Sys2Proof.Machine.execWrite h bs s
  | .seek h o => Sys2Proof.Machine.execSeek h o s
  | .reserved7 => Sys2Proof.Machine.execReserved7 s

end Sys2Proof.Machine
end

