-- ==== Sys2Proof/Machine/Sequencer.lean ====
section
/-! DEFINITION. The sequencer that walks a host command one transfer at a time (spec/44_rw_engine.md R150): where
a command first waits, and what it does when the transfer it waits for is answered. -/

namespace Sys2Proof.Machine

/-- The sequencer waits for the transfer of `w`. -/
def State.await (w : Word) (j : Job) (s : State) : State := { s with seq := .waiting w j }

/-- LOAD of powerOn for cartridge `c`. -/
def awaitLoad (c : Fin 64) (s : State) : State := s.await (requestLoad c.val) (.load c)

/-- LOAD of read, or FINISH when no byte remains (R150). -/
def awaitRead (j : ReadJob) (s : State) : State :=
  if j.rem = 0 then s.reportSuccess (.data j.out)
  else s.await (requestLoad (frameAtCursor (s.record j.handle)).cart.val) (.readLoad j)

/-- LOAD of write, or FINISH with the length update when no byte remains (R150). -/
def awaitWrite (j : WriteJob) (s : State) : State :=
  if j.rest.length = 0 then (commitLength j.handle s).reportSuccess (.written j.total)
  else s.await (requestLoad (frameAtCursor (s.record j.handle)).cart.val) (.writeLoad j)

/-- What the sequencer does when the transfer of `job` has succeeded (R150). -/
def onSuccess (job : Job) (s : State) : State :=
  match job with
  | .single => s
  | .init => awaitLoad 0 s
  | .load c => s.await requestZero (.zero c)
  | .zero c =>
    if h : c.val + 1 < 64 then awaitLoad ⟨c.val + 1, h⟩ s else (beginSession s).reportSuccess .unit
  | .off => (s.setPowered false).reportSuccess .unit
  | .readLoad j => s.await (requestRead (frameAtCursor (s.record j.handle)).frame.val) (.readFetch j)
  | .readFetch j =>
    awaitRead
      { handle := j.handle
        rem    := j.rem - chunkSize (s.record j.handle) j.rem
        out    := j.out ++ chunkRead j.handle j.rem s }
      (advanceCursor j.handle (chunkSize (s.record j.handle) j.rem) s)
  | .writeLoad j => s.await (requestRead (frameAtCursor (s.record j.handle)).frame.val) (.writeFetch j)
  | .writeFetch j =>
    (modifyScratch j.handle j.rest s).await (requestWrite (frameAtCursor (s.record j.handle)).frame.val) (.writeStore j)
  | .writeStore j =>
    awaitWrite
      { handle := j.handle
        rest   := j.rest.drop (chunkSize (s.record j.handle) j.rest.length)
        total  := j.total }
      (advanceCursor j.handle (chunkSize (s.record j.handle) j.rest.length) s)

/-- ABORT: what the sequencer does when the transfer of `job` has failed (R142, R146, R150, R161, R162). -/
def onFailure (job : Job) (s : State) : State :=
  match job with
  | .single => s
  | .init => (loseSession s).reportError .deviceError
  | .load _ => (loseSession s).reportError .deviceError
  | .zero _ => (loseSession s).reportError .deviceError
  | .off => s.reportError .deviceError
  | .readLoad _ => s.reportError .deviceError
  | .readFetch _ => s.reportError .deviceError
  | .writeLoad j => (if s.cfg.writeAbortCommitsLength then commitLength j.handle s else s).reportError .deviceError
  | .writeFetch j => (if s.cfg.writeAbortCommitsLength then commitLength j.handle s else s).reportError .deviceError
  | .writeStore j => (if s.cfg.writeAbortCommitsLength then commitLength j.handle s else s).reportError .deviceError

/-- The sequencer after the bus command it waited for has run: `s` holds what the status check reported. -/
def continueJob (job : Job) (s : State) : State :=
  match s.result with
  | some (.error _) => onFailure job s
  | _ => onSuccess job s

/-- CHECK and ALLOC (R150): a host command accepted to be walked one transfer at a time. A command that issues no
transfer finishes here. -/
def accept (i : Instr) (s : State) : Host.Outcome State Fault Refusal :=
  match i with
  | .powerOn => whenIdle s (fun t => .next (t.await requestInit .init))
  | .powerOff => inSession s (fun t => .next (t.await requestOff .off))
  | .read h count =>
    inSession s (fun t =>
      match resolve h t with
      | .raised e u => .next (u.reportError e)
      | .done _ u =>
        if covered (u.record h) (bytesToRead (u.record h) count) then
          .next (awaitRead { handle := h, rem := bytesToRead (u.record h) count, out := [] } u)
        else .fault .rangeNotCovered)
  | .write h data =>
    inSession s (fun t =>
      match (resolve h t).bind (fun _ u => allocFrames h (framesMissing (u.record h) data.length) u) with
      | .raised e u => .next (u.reportError e)
      | .done _ u => .next (awaitWrite { handle := h, rest := data, total := data.length } u))
  | .initSystem => exec .initSystem s
  | .zeroCartridge => exec .zeroCartridge s
  | .loadCartridge c => exec (.loadCartridge c) s
  | .readFrame f => exec (.readFrame f) s
  | .writeFrame f => exec (.writeFrame f) s
  | .busPowerOff => exec .busPowerOff s
  | .openFile p => exec (.openFile p) s
  | .close h => exec (.close h) s
  | .seek h o => exec (.seek h o) s
  | .reserved7 => exec .reserved7 s

end Sys2Proof.Machine
end

