-- ==== Sys2Proof/Machine/Step.lean ====
section
/-! DEFINITION. One step: the idle block runs the next host command to its end (R150, decision D20); a block that
waits for a transfer runs the bus command of its request word and goes on with what the transfer belongs to. -/

namespace Sys2Proof.Machine

/-- One step. With nothing presented the idle block waits (R178, R190). -/
def step (s : State) : Host.Outcome State Fault Refusal :=
  match s.seq with
  | .waiting w job =>
    match decode (.bus w) with
    | .error e => .refused (.notARequest e)
    | .ok i =>
      match exec i s with
      | .next t => .next (continueJob job t)
      | .fault r => .fault r
      | .refused r => .refused r
  | .idle =>
    match s.pending with
    | [] => .next s
    | p :: ps =>
      match decode (.host p) with
      | .error e => .refused (.notARequest e)
      | .ok i => exec i { s with pending := ps }

/-- The state with a command placed where `step` takes its next one from: a host command at the head of the host
port with the sequencer idle, a request word in the sequencer (log entry 4). -/
def State.withFetch (s : State) (e : Encoded) : State :=
  match e with
  | .host p => { s with seq := .idle, pending := p :: s.pending }
  | .bus w => { s with seq := .waiting w .single }

/-- `withFetch` for a table row's bits. -/
def State.withFetchWord (s : State) (nbits w : Nat) : State :=
  match tableWord nbits w with
  | some e => s.withFetch e
  | none => s

end Sys2Proof.Machine
end

