-- ==== Sys2Proof/Safety.lean ====
section
/-! DEFINITION. The terms claims are stated in: the invariants of spec/10_state.md R31 and R32, which commands the
host gives, what a trace of transfers looks like (spec/41_bus_commands.md R116, R117), the file byte space
(spec/20_memory.md R62), and what it is for a command to leave things as they were. -/

namespace Sys2Proof.Machine

/-! ### Invariants -/

/-- All frame addresses of all records, record by record (R32). -/
def ownedAddresses (s : State) : List FrameAddress := s.ft.flatMap (fun r => r.frames)

/-- What holds between host commands of a session (R31, R32, R134). -/
structure SessionInv (s : State) : Prop where
  /-- The table lists exactly the known handles (R24). -/
  count : s.nFiles = s.ft.length
  /-- R32 (d). -/
  capacity : s.nFiles ≤ s.cfg.maxFiles
  /-- R32 (e). -/
  paths : (s.ft.map (fun r => r.path)).Nodup
  /-- R31 (1), R32 (a) and (b): the owned addresses are, each once, the linear indices below `next_free`. -/
  pool : ((ownedAddresses s).map FrameAddress.linear).Perm (List.range s.nextFree.val)
  /-- R31 (2), the frame list's part. -/
  frames : ∀ r ∈ s.ft, r.endPos ≤ 1024 * r.frames.length ∧ r.cursor ≤ 1024 * r.frames.length
  /-- R31 (2), the cursor's part; under `WRITE_ABORT_COMMITS_LENGTH` = false it can fail (decision D15). -/
  cursor : s.cfg.writeAbortCommitsLength = true → ∀ r ∈ s.ft, r.cursor ≤ r.endPos

/-- The invariant: the frame store is canonical, no host command is in progress, and a session meets `SessionInv`. -/
structure Inv (s : State) : Prop where
  mem : s.bus.mem.wf
  quiet : s.seq = .idle ∨ ∃ w, s.seq = .waiting w .single
  session : s.powered = true → SessionInv s

/-! ### Commands -/

/-- The seven host commands (R16). -/
def isHostCommand : Instr → Bool
  | .powerOn => true
  | .powerOff => true
  | .openFile _ => true
  | .close _ => true
  | .read _ _ => true
  | .write _ _ => true
  | .seek _ _ => true
  | .initSystem => false
  | .zeroCartridge => false
  | .loadCartridge _ => false
  | .readFrame _ => false
  | .writeFrame _ => false
  | .busPowerOff => false
  | .reserved7 => false

/-- The six bus commands (R16). -/
def isBusCommand : Instr → Bool
  | .initSystem => true
  | .zeroCartridge => true
  | .loadCartridge _ => true
  | .readFrame _ => true
  | .writeFrame _ => true
  | .busPowerOff => true
  | .powerOn => false
  | .powerOff => false
  | .openFile _ => false
  | .close _ => false
  | .read _ _ => false
  | .write _ _ => false
  | .seek _ _ => false
  | .reserved7 => false

/-- The results a host command can end in (R88, R186). -/
def MayEndIn : Instr → HostResult → Prop
  | .powerOn, r => r = .success .unit ∨ r = .error .deviceError
  | .powerOff, r => r = .success .unit ∨ r = .error .deviceError
  | .openFile _, r => (∃ h, r = .success (.handle h)) ∨ r = .error .alreadyOpen ∨ r = .error .tooManyFiles
  | .close _, r => r = .success .unit ∨ r = .error .invalidHandle ∨ r = .error .notOpen
  | .read _ count, r => (∃ bytes, bytes.length ≤ count ∧ r = .success (.data bytes)) ∨ r = .error .invalidHandle ∨
      r = .error .notOpen ∨ r = .error .deviceError
  | .write _ data, r => r = .success (.written data.length) ∨ r = .error .invalidHandle ∨ r = .error .notOpen ∨
      r = .error .deviceFull ∨ r = .error .deviceError
  | .seek _ _, r => r = .success .unit ∨ r = .error .invalidHandle ∨ r = .error .notOpen ∨ r = .error .outOfRange
  | .initSystem, _ => False
  | .zeroCartridge, _ => False
  | .loadCartridge _, _ => False
  | .readFrame _, _ => False
  | .writeFrame _, _ => False
  | .busPowerOff, _ => False
  | .reserved7, _ => False

/-- The state after a bus command on its own: one transfer of `w` with buffer `o`, then its status check (R55, R110 to
R115); `scratch` is left as `buf`. -/
def afterTransfer (s : State) (w : Word) (o : Option Frame) (buf : Frame) : State :=
  { s with
    bus     := (s.bus.xfer w o).2
    scratch := buf
    seq     := .idle
    result  := some (if failed (s.bus.xfer w o).1.resp then .error .deviceError else .success .unit) }

/-- The host may give a command on handle `h` that runs to its own effect: idle, powered, known and open (R130, R148). -/
def Usable (s : State) (h : Nat) : Prop :=
  s.seq = .idle ∧ s.powered = true ∧ h < s.nFiles ∧ (s.record h).isOpen = true

/-- Any Bus Transport answers (R14), not the reference device. -/
def Bus.isOracle (b : Bus) : Bool :=
  match b.agent with
  | .oracle _ => true
  | .reference _ => false

/-- The cases of the reference device's table for the block's own requests (R59). -/
def Bus.lists (b : Bus) : Instr → Prop
  | .initSystem => True
  | .zeroCartridge => b.mounted ≠ none
  | .loadCartridge c => c.toNat < 64
  | .readFrame f => b.mounted ≠ none ∧ f.toNat < 1024
  | .writeFrame f => b.mounted ≠ none ∧ f.toNat < 1024
  | .busPowerOff => True
  | .powerOn => False
  | .powerOff => False
  | .openFile _ => False
  | .close _ => False
  | .read _ _ => False
  | .write _ _ => False
  | .seek _ _ => False
  | .reserved7 => False

/-- The environment takes the bus command: any Bus Transport (R14), or the reference device in a listed case (R59). -/
def Ready (s : State) (i : Instr) : Prop := s.bus.isOracle = true ∨ s.bus.lists i

/-- The reference device answers and no response is overridden (R59). -/
def Undisturbed (s : State) : Prop := s.bus.agent = .reference []

/-! ### Traces -/

/-- The opcode number of a request word. -/
def opcodeOf (w : Word) : Nat := (unpack w).opcode.toNat

/-- No transfer of the trace failed (R55). -/
def allOk (tr : List Event) : Bool := tr.all (fun e => !failed e.resp)

/-- The last transfer of the trace failed and none before it: nothing is issued after a failure (R55, R116). -/
def StopsAtFailure (tr : List Event) : Prop :=
  ∃ pre e, tr = pre ++ [e] ∧ allOk pre = true ∧ failed e.resp = true

/-- The frame addresses that a transfer of `n` bytes from the cursor of `r` on touches, one per iteration (R62, R149). -/
def framesTouched (r : FileRecord) (n : Nat) : List FrameAddress :=
  (List.range (iterations r.cursor n)).map (fun j => r.frames.getD (r.cursor / 1024 + j) ⟨0, 0⟩)

/-- LoadCartridge, ReadFrame for each address (R141). -/
def readRequests (l : List FrameAddress) : List Word :=
  l.flatMap (fun a => [requestLoad a.cart.val, requestRead a.frame.val])

/-- LoadCartridge, ReadFrame, WriteFrame for each address (R144). -/
def writeRequests (l : List FrameAddress) : List Word :=
  l.flatMap (fun a => [requestLoad a.cart.val, requestRead a.frame.val, requestWrite a.frame.val])

/-- InitSystem, then LoadCartridge and ZeroCartridge for cartridges 0 to 63 (R160). -/
def powerOnRequests : List Word :=
  requestInit :: (List.finRange 64).flatMap (fun c => [requestLoad c.val, requestZero])

/-- The cursor after `m` complete iterations of a transfer that started at `c` and was not finished (R142, R146). -/
def cursorAfter (c m : Nat) : Nat := if m = 0 then c else (c / 1024 + m) * 1024

/-- The buffers the ReadFrames of a trace delivered, one after the other. -/
def fetchedBytes (tr : List Event) : List Byte := (tr.filterMap (fun e => e.inp)).flatMap (fun b => b.bytes)

/-- The buffers the WriteFrames of a trace sent, one after the other. -/
def sentBytes (tr : List Event) : List Byte :=
  ((tr.filter (fun e => decide (opcodeOf e.cmd = Config.opWrite))).filterMap (fun e => e.out)).flatMap (fun b => b.bytes)

/-- Each ReadFrame and ZeroCartridge directly follows a LoadCartridge that succeeded, each WriteFrame a ReadFrame
that succeeded (R117); `before` is the event before the trace. -/
def WellOrdered : Option Event → List Event → Prop
  | _, [] => True
  | before, e :: tr =>
    ((opcodeOf e.cmd = Config.opRead ∨ opcodeOf e.cmd = Config.opZero) →
        ∃ p, before = some p ∧ opcodeOf p.cmd = Config.opLoad ∧ failed p.resp = false) ∧
    (opcodeOf e.cmd = Config.opWrite →
        ∃ p, before = some p ∧ opcodeOf p.cmd = Config.opRead ∧ failed p.resp = false) ∧
    WellOrdered (some e) tr

/-- The frame addresses with linear indices `n` to `n + m - 1`, in order: what `m` allocations take when `next_free` is
`n` (R124). -/
def nextAddresses (n m : Nat) : List FrameAddress := (List.range m).map (fun j => lowestFree (n + j))

/-! ### The file byte space (R62) -/

/-- Byte `p` of the file of record `r`, in the frame store `m`. -/
def fileByte (m : Memory) (r : FileRecord) (p : Nat) : Byte :=
  m.read (byteAddress (r.frames.getD (p / 1024) ⟨0, 0⟩) (p % 1024))

/-- The `n` bytes of the file from position `p` on. -/
def fileBytes (m : Memory) (r : FileRecord) (p n : Nat) : List Byte :=
  (List.range n).map (fun j => fileByte m r (p + j))

/-! ### Leaving things as they were -/

/-- Nothing of the block but what the other clauses of a claim name: the parameters, `powered` and the host's queue
are as before, and no command is left in progress. -/
def SameSession (s t : State) : Prop :=
  t.cfg = s.cfg ∧ t.powered = s.powered ∧ t.pending = s.pending ∧ t.seq = .idle

/-- The table is as before but for the record of `h`. -/
def SameTableExcept (h : Nat) (s t : State) : Prop :=
  t.nFiles = s.nFiles ∧ ∀ j, j ≠ h → t.record j = s.record j

/-- No transfer was issued: the bus side is as before, with an empty trace for the command. -/
def NoTransfer (s t : State) : Prop := t.bus = { s.bus with trace := [] }

/-- Every byte of the device outside the frames of `l` reads as before. -/
def DeviceSameOutside (l : List FrameAddress) (s t : State) : Prop :=
  ∀ x, (∀ a ∈ l, ¬ (byteAddress a 0 ≤ x ∧ x < byteAddress a 1024)) → t.bus.mem.read x = s.bus.mem.read x

/-- Every byte of the device reads as before. -/
def DeviceSame (s t : State) : Prop := ∀ x, t.bus.mem.read x = s.bus.mem.read x

end Sys2Proof.Machine
end

