-- ==== Sys2Proof/Certificates/Slice0/Obligations.lean ====
section
/-! DEFINITION. What is claimed of the machine, each claim with the rules of spec/ it comes from. -/

section

open Sys2Proof Sys2Proof.Machine

/-! ### The Register Codec (spec/40_register_codec.md) -/

/-- R100: `pack` cuts each argument to its field, shifts it into place and joins the five, which occupy disjoint bits,
so that the word is also their sum; its low fifteen bits are zero. -/
def Obligations.PackPlacesEachFieldInItsBits : Prop :=
  ∀ op k2 st c f : Nat,
    pack op k2 st c f =
      BitVec.ofNat 64 (((op &&& 0xFF) <<< 56) ||| ((k2 &&& 0xFF) <<< 48) ||| ((st &&& 0x1) <<< 47) |||
        ((c &&& 0xFFFF) <<< 31) ||| ((f &&& 0xFFFF) <<< 15)) ∧
    (pack op k2 st c f).toNat =
      (op % 256) * 2 ^ 56 + (k2 % 256) * 2 ^ 48 + (st % 2) * 2 ^ 47 + (c % 65536) * 2 ^ 31 + (f % 65536) * 2 ^ 15 ∧
    pack op k2 st c f &&& 0x7FFF#64 = 0#64

/-- R102: unpacking a packed word gives each argument cut to its field, and the argument itself where it fits. Not the
source's own: the masking law is the inference the spec marks "[derived: the general law from rule R100 and rule
R101]". -/
def Obligations.UnpackOfPackMasksEachField : Prop :=
  ∀ op k2 st c f : Nat,
    ((unpack (pack op k2 st c f)).opcode.toNat = op &&& 0xFF ∧
     (unpack (pack op k2 st c f)).key2.toNat = k2 &&& 0xFF ∧
     (unpack (pack op k2 st c f)).status.toNat = st &&& 1 ∧
     (unpack (pack op k2 st c f)).cartridgeIndex.toNat = c &&& 0xFFFF ∧
     (unpack (pack op k2 st c f)).frameIndex.toNat = f &&& 0xFFFF) ∧
    (op < 256 → k2 < 256 → st < 2 → c < 65536 → f < 65536 →
      unpack (pack op k2 st c f) =
        { opcode := BitVec.ofNat 8 op, key2 := BitVec.ofNat 8 k2, status := BitVec.ofNat 1 st,
          cartridgeIndex := BitVec.ofNat 16 c, frameIndex := BitVec.ofNat 16 f } ∧
      (BitVec.ofNat 8 op).toNat = op ∧ (BitVec.ofNat 8 k2).toNat = k2 ∧ (BitVec.ofNat 1 st).toNat = st ∧
      (BitVec.ofNat 16 c).toNat = c ∧ (BitVec.ofNat 16 f).toNat = f)

/-- R103: packing the unpacked fields clears `w[14:0]` and nothing else; in-range `pack` is injective and its image is
the words whose low fifteen bits are zero. Not the source's own: the law is marked "[derived: from rule R100, rule
R101 ...]"; that unpack ignores the low bits is decision D5. -/
def Obligations.PackOfUnpackClearsUnusedBits : Prop :=
  (∀ w : Word, (unpack w).repack = w &&& 0xFFFFFFFFFFFF8000#64) ∧
  (∀ w : Word, (unpack w).repack = w ↔ w &&& 0x7FFF#64 = 0#64) ∧
  (∀ u v : Fields, u.repack = v.repack → u = v) ∧
  (∀ w : Word, (∃ u : Fields, u.repack = w) ↔ w &&& 0x7FFF#64 = 0#64)

/-- R104: a field of a word depends on that field's bits alone, an argument of `pack` reaches its own field's bits
alone, and setting the status bit changes no other field. Not the source's own: the law is marked "[derived: from
`30_encoding.md` rule R81]", and the bit places are decision D1. -/
def Obligations.FieldsAreIndependent : Prop :=
  (∀ v w : Word,
    (v &&& 0xFF00000000000000#64 = w &&& 0xFF00000000000000#64 → (unpack v).opcode = (unpack w).opcode) ∧
    (v &&& 0x00FF000000000000#64 = w &&& 0x00FF000000000000#64 → (unpack v).key2 = (unpack w).key2) ∧
    (v &&& 0x0000800000000000#64 = w &&& 0x0000800000000000#64 → (unpack v).status = (unpack w).status) ∧
    (v &&& 0x00007FFF80000000#64 = w &&& 0x00007FFF80000000#64 →
      (unpack v).cartridgeIndex = (unpack w).cartridgeIndex) ∧
    (v &&& 0x000000007FFF8000#64 = w &&& 0x000000007FFF8000#64 → (unpack v).frameIndex = (unpack w).frameIndex)) ∧
  (∀ op k2 st c f x : Nat,
    pack x k2 st c f &&& ~~~0xFF00000000000000#64 = pack op k2 st c f &&& ~~~0xFF00000000000000#64 ∧
    pack op x st c f &&& ~~~0x00FF000000000000#64 = pack op k2 st c f &&& ~~~0x00FF000000000000#64 ∧
    pack op k2 x c f &&& ~~~0x0000800000000000#64 = pack op k2 st c f &&& ~~~0x0000800000000000#64 ∧
    pack op k2 st x f &&& ~~~0x00007FFF80000000#64 = pack op k2 st c f &&& ~~~0x00007FFF80000000#64 ∧
    pack op k2 st c x &&& ~~~0x000000007FFF8000#64 = pack op k2 st c f &&& ~~~0x000000007FFF8000#64) ∧
  (∀ w : Word, unpack (w ||| 0x0000800000000000#64) = { unpack w with status := 1#1 })

/-- R83, R86, R105: the numbers 0 to 5 name the six commands, each once, and every other number names none; a word
with such a number is no request. Not the source's own: the numbers are decision D2; that the decoder refuses other
numbers by name is log entry 14. -/
def Obligations.OpcodeNumbersNameSixCommands : Prop :=
  (∀ k : BusCommand, BusCommand.ofCode k.code = some k) ∧
  (∀ (n : Nat) (k : BusCommand), BusCommand.ofCode n = some k → n = k.code) ∧
  (∀ n : Nat, (BusCommand.ofCode n).isSome = true ↔ n ≤ 5) ∧
  (∀ w : Word, 6 ≤ (unpack w).opcode.toNat → decode (.bus w) = .error (.reservedOpcode (unpack w).opcode))

/-! ### Decoding and encoding (spec/30_encoding.md) -/

/-- One request word of spec/95_test_vectors.md V3 for each bus command, and the host codes of R88 and R89, as the
decoder reads them. Not the source's own: the words rest on decisions D1, D2, D3 and D6. -/
def Obligations.WordsDecodeAsTheSpecWritesThem : Prop :=
  decodeTableWord 64 0x0000000000000000 = some .initSystem ∧
  decodeTableWord 64 0x0100000000000000 = some .zeroCartridge ∧
  decodeTableWord 64 0x0200001F80000000 = some (.loadCartridge 63) ∧
  decodeTableWord 64 0x0300000000008000 = some (.readFrame 1) ∧
  decodeTableWord 64 0x0400000001FF8000 = some (.writeFrame 1023) ∧
  decodeTableWord 64 0x0500000000000000 = some .busPowerOff ∧
  decodeTableWord 3 0 = some .powerOn ∧
  decodeTableWord 3 1 = some .powerOff ∧
  decodeHost { hcmd := 2, path := [97], handle := 0, number := 0, data := [] } = .openFile [97] ∧
  decodeHost { hcmd := 3, path := [], handle := 7, number := 0, data := [] } = .close 7 ∧
  decodeHost { hcmd := 4, path := [], handle := 7, number := 100, data := [] } = .read 7 100 ∧
  decodeHost { hcmd := 5, path := [], handle := 7, number := 0, data := [1, 2] } = .write 7 [1, 2] ∧
  decodeHost { hcmd := 6, path := [], handle := 7, number := 100, data := [] } = .seek 7 100 ∧
  decodeTableWord 3 7 = some .reserved7

/-- Decoding the encoding of any instruction gives it back, with every operand at every value it can hold. Not the
source's own: the encoding rests on decisions D1, D2, D3 and D6. -/
def Obligations.DecodeOfEncodeIsTheInstruction : Prop :=
  ∀ i : Instr, decode (encode i) = .ok i

/-- The other direction: a word that decodes is the request word of what it decodes to (R54, R84), so each word has
one meaning; a host presentation keeps its code. Not the source's own: that unused bits are zero is decision D3;
refusing other words is log entry 14. -/
def Obligations.DecodedWordIsTheRequestWord : Prop :=
  (∀ (w : Word) (i : Instr), decode (.bus w) = .ok i → encode i = .bus w) ∧
  (∀ (p : HostWord) (i : Instr), decode (.host p) = .ok i → ∃ q : HostWord, encode i = .host q ∧ q.hcmd = p.hcmd)

/-! ### The step -/

/-- A step of the idle block runs the host command presented next, with the port moved past it; a step of a block that
waits for a transfer runs the bus command of its request word, then what the sequencer does next; with nothing
presented the block waits (R178). A word that is no request is refused. Not the source's own: the port, the waiting
and the stepping are the model's, log entries 2 and 4, after decisions D6 and D20. -/
def Obligations.StepRunsTheDecodedCommand : Prop :=
  (∀ (s : State) (p : HostWord) (ps : List HostWord) (i : Instr), s.seq = .idle → s.pending = p :: ps →
    decode (.host p) = .ok i → step s = exec i { s with pending := ps }) ∧
  (∀ (s : State) (w : Word) (i : Instr), s.seq = .waiting w .single → decode (.bus w) = .ok i → step s = exec i s) ∧
  (∀ (s t : State) (w : Word) (j : Job) (i : Instr), s.seq = .waiting w j → decode (.bus w) = .ok i →
    exec i s = .next t → step s = .next (continueJob j t)) ∧
  (∀ (s : State) (w : Word) (j : Job) (e : DecodeError), s.seq = .waiting w j → decode (.bus w) = .error e →
    step s = .refused (.notARequest e)) ∧
  (∀ s : State, s.seq = .idle → s.pending = [] → step s = .next s) ∧
  (∀ (s : State) (p : HostWord), step (s.withFetch (.host p)) = exec (decodeHost p) { s with seq := .idle }) ∧
  (∀ (s : State) (w : Word) (i : Instr), decode (.bus w) = .ok i →
    step (s.withFetch (.bus w)) = exec i { s with seq := .waiting w .single })

/-- R38, R190: after hardware reset the block is not powered and idle, and it waits. Not the source's own: what
hardware reset does is decision D14. -/
def Obligations.HardwareResetLeavesTheBlockIdle : Prop :=
  State.reset.powered = false ∧ State.reset.seq = .idle ∧ step State.reset = .next State.reset

/-- The state after hardware reset meets the invariant. Not the source's own: the reset state is decision D14 and log
entries 1 to 4. -/
def Obligations.ResetMeetsTheInvariant : Prop := Inv State.reset

/-- R31, R32: every step keeps the invariant, from every state that meets it. Not the source's own: the further
invariants are marked "[derived: from rule R23 ...]"; the cursor clause holds under the default of decision D15. -/
def Obligations.EveryStepKeepsTheInvariant : Prop :=
  ∀ s t : State, Inv s → step s = .next t → Inv t

/-! ### Stops -/

/-- R164: while not powered every host command but powerOn is refused, and powerOn is not. Not the source's own: the
refusal is decision D11. -/
def Obligations.CommandsRefusedWhileUnpowered : Prop :=
  ∀ s : State, s.seq = .idle → s.powered = false →
    (∀ i : Instr, isHostCommand i = true → i ≠ .powerOn → exec i s = .refused .notPowered) ∧
    ∃ t, exec .powerOn s = .next t

/-- R89: host code 7 is refused wherever it is given. Not the source's own: the code and its refusal are decision D6.
-/
def Obligations.ReservedHostCodeRefused : Prop :=
  (∀ s : State, exec .reserved7 s = .refused .reservedCommand) ∧
  (∀ p : HostWord, p.hcmd = 7#3 → decode (.host p) = .ok .reserved7) ∧
  (∀ (s : State) (p : HostWord) (ps : List HostWord), s.seq = .idle → s.pending = p :: ps → p.hcmd = 7#3 →
    step s = .refused .reservedCommand)

/-- R194: a host command given while another is in progress is a fault of the environment. Not the source's own: that
the fault is raised by the command's meaning is log entry 10. -/
def Obligations.OverlappingHostCommandFaults : Prop :=
  ∀ (s : State) (w : Word) (j : Job) (i : Instr), s.seq = .waiting w j → isHostCommand i = true →
    exec i s = .fault .hostOverlap

/-- R31: in a state that meets the invariant no host command given to the idle block faults. -/
def Obligations.HostCommandsNeverFaultUnderTheInvariant : Prop :=
  ∀ (s : State) (i : Instr) (r : Fault), Inv s → s.seq = .idle → isHostCommand i = true → exec i s ≠ .fault r

/-- R59: a bus command in a case the reference device does not list is a fault of the environment. Not the source's
own: the reference device is decision D21. -/
def Obligations.UnlistedRequestsFault : Prop :=
  ∀ (s : State) (i : Instr), isBusCommand i = true → ¬ Ready s i → exec i s = .fault .environment

/-- R62 gives no address for a read the frame list does not cover: the model stops there by name (log entry 12). Not
the source's own: the stop is the model's, log entry 12; no state of a session has such a record. -/
def Obligations.UncoveredReadStops : Prop :=
  ∀ (s : State) (h count : Nat), Usable s h →
    min count ((s.record h).endPos - (s.record h).cursor) ≠ 0 →
    1024 * (s.record h).frames.length < (s.record h).cursor + min count ((s.record h).endPos - (s.record h).cursor) →
    exec (.read h count) s = .fault .rangeNotCovered

/-! ### The bus commands (spec/41_bus_commands.md) -/

/-- R110, R111, R112, R115: InitSystem, ZeroCartridge, LoadCartridge and PowerOff are one transfer each of the word
the rule gives, with no buffer, then the status check; of the block nothing else changes but the result. Not the
source's own: the words rest on decisions D1, D2 and D3; running a bus command on its own and what it then reports are
log entries 4 and 24. -/
def Obligations.SessionBusCommandsAreOneTransfer : Prop :=
  (∀ s : State, exec .initSystem s = .next (afterTransfer s 0x0000000000000000#64 none s.scratch)) ∧
  (∀ s : State, Ready s .zeroCartridge →
    exec .zeroCartridge s = .next (afterTransfer s 0x0100000000000000#64 none s.scratch)) ∧
  (∀ (s : State) (c : BitVec 16), Ready s (.loadCartridge c) →
    exec (.loadCartridge c) s =
      .next (afterTransfer s (0x0200000000000000#64 ||| (c.setWidth 64 <<< 31)) none s.scratch)) ∧
  (∀ s : State, exec .busPowerOff s = .next (afterTransfer s 0x0500000000000000#64 none s.scratch))

/-- R113, R114: ReadFrame and WriteFrame are one transfer each of the word the rule gives, with `scratch` as the
buffer; ReadFrame leaves in `scratch` what the callee left in the buffer (after a failure, an unspecified content,
R33). Not the source's own: the words rest on decisions D1 to D3, the unspecified scratch after a failure on D22;
running a bus command on its own and what it then reports, whatever `powered` is, are log entries 4 and 24. -/
def Obligations.FrameBusCommandsAreOneTransfer : Prop :=
  (∀ (s : State) (f : BitVec 16), Ready s (.readFrame f) →
    exec (.readFrame f) s =
      .next (afterTransfer s (0x0300000000000000#64 ||| (f.setWidth 64 <<< 15)) (some s.scratch)
        (s.bus.xfer (0x0300000000000000#64 ||| (f.setWidth 64 <<< 15)) (some s.scratch)).1.data)) ∧
  (∀ (s : State) (f : BitVec 16), Ready s (.writeFrame f) →
    exec (.writeFrame f) s =
      .next (afterTransfer s (0x0400000000000000#64 ||| (f.setWidth 64 <<< 15)) (some s.scratch) s.scratch))

/-- R66: what a bus command leaves of the reference device's bytes, also when it fails. LoadCartridge and ReadFrame
change none, WriteFrame none outside its frame, ZeroCartridge none outside the mounted cartridge. With any other Bus
Transport the store kept for the reference device is not touched at all. Not the source's own: the reference device is
decision D21; what a failed transfer leaves is log entry 6. -/
def Obligations.BusCommandsLeaveOtherBytes : Prop :=
  ∀ s t : State,
    (∀ c, exec (.loadCartridge c) s = .next t → DeviceSame s t) ∧
    (∀ f, exec (.readFrame f) s = .next t → DeviceSame s t) ∧
    (∀ f m, s.bus.mounted = some m → exec (.writeFrame f) s = .next t →
      DeviceSameOutside [⟨m, Fin.ofNat 1024 f.toNat⟩] s t) ∧
    (∀ m : Fin 64, s.bus.mounted = some m → exec .zeroCartridge s = .next t →
      ∀ x, x / 1048576 ≠ m.val → t.bus.mem.read x = s.bus.mem.read x) ∧
    (∀ i, isBusCommand i = true → s.bus.isOracle = true → exec i s = .next t → DeviceSame s t)

/-- R12, R14, R58: a transfer is recorded as the event it is, and any Bus Transport gives the answers it was given,
then free draws. That a model's environment stands in State is the model's choice (log entry 3). Not the source's own:
that the environment stands in State is log entry 3. -/
def Obligations.TransfersAreAnsweredAndRecorded : Prop :=
  ∀ (b : Bus) (w : Word) (o : Option Frame),
    (b.xfer w o).2.trace = b.trace ++
      [{ cmd := w, out := o, resp := (b.xfer w o).1.resp,
         inp := if (unpack w).opcode.toNat = 3 then some (b.xfer w o).1.data else none }] ∧
    (∀ a as, b.agent = .oracle (a :: as) → (b.xfer w o).1 = a ∧ (b.xfer w o).2.agent = .oracle as) ∧
    (b.agent = .oracle [] → (b.xfer w o).1.resp = Config.drawWord b.draws ∧
      (∀ i, i < 1024 → (b.xfer w o).1.data.bytes[i]? = some (Config.drawByte b.draws i)) ∧
      (b.xfer w o).2.agent = .oracle [] ∧ (b.xfer w o).2.draws = b.draws + 1)

/-- R59: the reference device's table, for every word and buffer, byte by byte. Not the source's own: the reference
device is decision D21; that a word with key2 or w[14:0] not 0 is served is log entry 20. -/
def Obligations.ReferenceDeviceFollowsItsTable : Prop :=
  ∀ (b : Bus) (w : Word) (o : Option Frame), b.agent = .reference [] → (unpack w).status = 0#1 →
    ((unpack w).opcode = 0#8 → (b.xfer w o).1.resp = w &&& 0xFFFFFFFFFFFF8000#64 ∧ (b.xfer w o).2.mounted = none) ∧
    ((unpack w).opcode = 1#8 → ∀ m : Fin 64, b.mounted = some m →
      (b.xfer w o).1.resp = w &&& 0xFFFFFFFFFFFF8000#64 ∧ (b.xfer w o).2.mounted = some m ∧
      ∀ x, (b.xfer w o).2.mem.read x = if x / 1048576 = m.val then 0 else b.mem.read x) ∧
    ((unpack w).opcode = 2#8 → ∀ c : Fin 64, (unpack w).cartridgeIndex.toNat = c.val →
      (b.xfer w o).1.resp = w &&& 0xFFFFFFFFFFFF8000#64 ∧ (b.xfer w o).2.mounted = some c ∧
      ∀ x, (b.xfer w o).2.mem.read x = b.mem.read x) ∧
    ((unpack w).opcode = 3#8 → ∀ (m : Fin 64) (f : Fin 1024) (buf : Frame), b.mounted = some m →
      (unpack w).frameIndex.toNat = f.val → o = some buf →
      (b.xfer w o).1.resp = w &&& 0xFFFFFFFFFFFF8000#64 ∧ (b.xfer w o).2.mounted = some m ∧
      (∀ x, (b.xfer w o).2.mem.read x = b.mem.read x) ∧
      ∀ i, i < 1024 → (b.xfer w o).1.data.bytes[i]? = some (b.mem.read ((m.val * 1024 + f.val) * 1024 + i))) ∧
    ((unpack w).opcode = 4#8 → ∀ (m : Fin 64) (f : Fin 1024) (buf : Frame), b.mounted = some m →
      (unpack w).frameIndex.toNat = f.val → o = some buf →
      (b.xfer w o).1.resp = w &&& 0xFFFFFFFFFFFF8000#64 ∧ (b.xfer w o).2.mounted = some m ∧
      ∀ x, (b.xfer w o).2.mem.read x =
        if (m.val * 1024 + f.val) * 1024 ≤ x ∧ x < (m.val * 1024 + f.val) * 1024 + 1024
        then buf.bytes.getD (x - (m.val * 1024 + f.val) * 1024) 0 else b.mem.read x) ∧
    ((unpack w).opcode = 5#8 → (b.xfer w o).1.resp = w &&& 0xFFFFFFFFFFFF8000#64 ∧ (b.xfer w o).2.mounted = none)

/-! ### Power (spec/45_lifecycle.md) -/

/-- R160, R161, R165: powerOn of the idle block, powered or not, runs InitSystem and then LoadCartridge and
ZeroCartridge for every cartridge, and either all succeed and a session with an empty table and a full pool begins, or
it stops at the first failure, not powered, with n_files in its range. Not the source's own: the failed powerOn and
powerOn while powered are decision D12; that a successful powerOn leaves scratch as it was, and that the n_files of a
failed one is in its range, are log entry 11. -/
def Obligations.PowerOnStartsASessionOrStops : Prop :=
  ∀ s : State, s.seq = .idle → ∃ t, exec .powerOn s = .next t ∧
    t.cfg = s.cfg ∧ t.pending = s.pending ∧ t.seq = .idle ∧
    (∀ e ∈ t.bus.trace, e.out = none) ∧
    ((allOk t.bus.trace = true ∧ t.bus.trace.map (fun e => e.cmd) = powerOnRequests ∧
        t.result = some (.success .unit) ∧ t.powered = true ∧ t.nFiles = 0 ∧ t.nextFree = 0 ∧ t.ft = [] ∧
        t.scratch = s.scratch) ∨
     (StopsAtFailure t.bus.trace ∧ t.bus.trace.map (fun e => e.cmd) <+: powerOnRequests ∧
        t.result = some (.error .deviceError) ∧ t.powered = false ∧ t.nFiles ≤ s.cfg.maxFiles))

/-- R160, R191: powerOn with the reference device succeeds; every byte of the device is zero and cartridge 63 is
mounted. Not the source's own: the reference device is decision D21. -/
def Obligations.PowerOnZeroesTheReferenceDevice : Prop :=
  ∀ s : State, s.seq = .idle → Undisturbed s → ∃ t, exec .powerOn s = .next t ∧
    t.result = some (.success .unit) ∧ t.powered = true ∧ t.nFiles = 0 ∧ t.nextFree = 0 ∧
    t.bus.trace.length = 129 ∧ (∀ x, x < 67108864 → t.bus.mem.read x = 0) ∧ t.bus.mounted = some 63 ∧ Undisturbed t

/-- R162, R163: powerOff is one transfer; on success the block is not powered, on failure the session goes on, and
either way no record, no counter and no open flag changes. Not the source's own: powered after a failed powerOff is
decision D13. -/
def Obligations.PowerOffEndsTheSession : Prop :=
  ∀ s : State, s.seq = .idle → s.powered = true → ∃ t e, exec .powerOff s = .next t ∧
    t.bus.trace = [e] ∧ e.cmd = 0x0500000000000000#64 ∧ e.out = none ∧
    t.cfg = s.cfg ∧ t.nextFree = s.nextFree ∧ t.nFiles = s.nFiles ∧ t.ft = s.ft ∧ t.scratch = s.scratch ∧
    t.pending = s.pending ∧ t.seq = .idle ∧
    ((failed e.resp = false ∧ t.result = some (.success .unit) ∧ t.powered = false) ∨
     (failed e.resp = true ∧ t.result = some (.error .deviceError) ∧ t.powered = true)) ∧
    (Undisturbed s → failed e.resp = false)

/-! ### The File Table (spec/43_file_table.md) -/

/-- R131: open of a known path reopens its record or fails with AlreadyOpen; open of an unknown path makes a new
record under the next handle or fails with TooManyFiles. Nothing else changes and no transfer is issued. Not the
source's own: that the new handle is n_files is decision D8 (log entry 16), TooManyFiles at MAX_FILES is decision D9
(log entry 23). -/
def Obligations.OpenFollowsItsRule : Prop :=
  ∀ (s : State) (p : Path), s.seq = .idle → s.powered = true →
    (∀ h, h < s.nFiles → (s.record h).path = p → (∀ j, j < s.nFiles → (s.record j).path = p → j = h) →
      ((s.record h).isOpen = true → exec (.openFile p) s = .next (s.start.reportError .alreadyOpen)) ∧
      ((s.record h).isOpen = false → ∃ t, exec (.openFile p) s = .next t ∧ t.result = some (.success (.handle h)) ∧
        t.record h = { s.record h with isOpen := true, cursor := 0 } ∧ SameTableExcept h s t ∧
        t.nextFree = s.nextFree ∧ t.scratch = s.scratch ∧ SameSession s t ∧ NoTransfer s t)) ∧
    ((∀ j, j < s.nFiles → (s.record j).path ≠ p) →
      (s.nFiles = s.cfg.maxFiles → exec (.openFile p) s = .next (s.start.reportError .tooManyFiles)) ∧
      (s.nFiles < s.cfg.maxFiles → ∃ t, exec (.openFile p) s = .next t ∧
        t.result = some (.success (.handle s.nFiles)) ∧ t.nFiles = s.nFiles + 1 ∧
        t.record s.nFiles = { path := p, isOpen := true, endPos := 0, cursor := 0, frames := [] } ∧
        (∀ j, j ≠ s.nFiles → t.record j = s.record j) ∧
        t.nextFree = s.nextFree ∧ t.scratch = s.scratch ∧ SameSession s t ∧ NoTransfer s t))

/-- R130, R173: `resolve` raises InvalidHandle for an unknown handle, else NotOpen for a closed one, else goes on with
nothing changed; and each command that takes a handle fails so before anything else and whatever else holds. -/
def Obligations.HandleChecksComeFirst : Prop :=
  (∀ (s : State) (h : Nat),
    (s.nFiles ≤ h → resolve h s = .raised .invalidHandle s) ∧
    (h < s.nFiles → (s.record h).isOpen = false → resolve h s = .raised .notOpen s) ∧
    (h < s.nFiles → (s.record h).isOpen = true → resolve h s = .done () s)) ∧
  (∀ (s : State) (h : Nat) (i : Instr), s.seq = .idle → s.powered = true →
    (i = .close h ∨ (∃ n, i = .read h n) ∨ (∃ data, i = .write h data) ∨ ∃ o, i = .seek h o) →
    (s.nFiles ≤ h → exec i s = .next (s.start.reportError .invalidHandle)) ∧
    (h < s.nFiles → (s.record h).isOpen = false → exec i s = .next (s.start.reportError .notOpen)))

/-- R133: close of an open handle clears its open flag and does nothing else, and a second close of it fails with
NotOpen; an unknown handle fails with InvalidHandle and a closed one with NotOpen. -/
def Obligations.CloseClearsTheOpenFlag : Prop :=
  ∀ (s : State) (h : Nat), s.seq = .idle → s.powered = true →
    (s.nFiles ≤ h → exec (.close h) s = .next (s.start.reportError .invalidHandle)) ∧
    (h < s.nFiles → (s.record h).isOpen = false → exec (.close h) s = .next (s.start.reportError .notOpen)) ∧
    (h < s.nFiles → (s.record h).isOpen = true → ∃ t, exec (.close h) s = .next t ∧
      t.result = some (.success .unit) ∧ t.record h = { s.record h with isOpen := false } ∧ SameTableExcept h s t ∧
      t.nextFree = s.nextFree ∧ t.scratch = s.scratch ∧ SameSession s t ∧ NoTransfer s t ∧
      exec (.close h) t = .next (t.start.reportError .notOpen))

/-- R136: closing a file and opening its path again gives the same handle, the same length and frame list, cursor 0,
and no second record. Not the source's own: the property is marked "[derived: from rule R131 and rule R133]". -/
def Obligations.ReopenKeepsTheFile : Prop :=
  ∀ (s : State) (h : Nat), Usable s h → (∀ j, j < s.nFiles → (s.record j).path = (s.record h).path → j = h) →
    ∃ t u, exec (.close h) s = .next t ∧ exec (.openFile (s.record h).path) t = .next u ∧
      u.result = some (.success (.handle h)) ∧ u.nFiles = s.nFiles ∧
      u.record h = { s.record h with isOpen := true, cursor := 0 } ∧ ∀ j, j ≠ h → u.record j = s.record j

/-- R147: on an open handle, seek to a position up to the length sets the cursor and nothing else, and beyond it fails
with OutOfRange; an unknown handle fails with InvalidHandle and a closed one with NotOpen. -/
def Obligations.SeekFollowsItsRule : Prop :=
  ∀ (s : State) (h o : Nat), s.seq = .idle → s.powered = true →
    (s.nFiles ≤ h → exec (.seek h o) s = .next (s.start.reportError .invalidHandle)) ∧
    (h < s.nFiles → (s.record h).isOpen = false → exec (.seek h o) s = .next (s.start.reportError .notOpen)) ∧
    (h < s.nFiles → (s.record h).isOpen = true →
      ((s.record h).endPos < o → exec (.seek h o) s = .next (s.start.reportError .outOfRange)) ∧
      (o ≤ (s.record h).endPos → ∃ t, exec (.seek h o) s = .next t ∧ t.result = some (.success .unit) ∧
        t.record h = { s.record h with cursor := o } ∧ SameTableExcept h s t ∧
        t.nextFree = s.nextFree ∧ t.scratch = s.scratch ∧ SameSession s t ∧ NoTransfer s t))

/-! ### The Frame Allocator (spec/42_frame_allocator.md) -/

/-- R121: `allocate` takes the address whose linear index is `next_free` and advances `next_free`, or fails with
DeviceFull on the empty pool and changes nothing. -/
def Obligations.AllocateTakesTheLowestFreeAddress : Prop :=
  ∀ s : State,
    (s.nextFree.val = 65536 → allocate s = .raised .deviceFull s) ∧
    (s.nextFree.val < 65536 → ∃ a t, allocate s = .done a t ∧ a.cart.val = s.nextFree.val / 1024 ∧
      a.frame.val = s.nextFree.val % 1024 ∧ t.nextFree.val = s.nextFree.val + 1 ∧ t = { s with nextFree := t.nextFree })

/-- R122, R195: taking an address from the pool and appending it to the record's frame list happen together or not at
all, and touch nothing else. -/
def Obligations.AllocationAndAppendAreOneStep : Prop :=
  ∀ (h : Nat) (s : State),
    (s.nextFree.val = 65536 → allocAppend h s = .raised .deviceFull s) ∧
    (s.nextFree.val < 65536 → ∃ a t, allocAppend h s = .done () t ∧ a.linear = s.nextFree.val ∧
      t.nextFree.val = s.nextFree.val + 1 ∧ t.record h = { s.record h with frames := (s.record h).frames ++ [a] } ∧
      (∀ j, j ≠ h → t.record j = s.record j) ∧ t = { s with nextFree := t.nextFree, ft := t.ft })

/-- R31 (1), R32, R126, R127: in a session no frame address stands twice in one list or in two, the owned addresses
are those below `next_free`, and the lists' lengths add up to it. Not the source's own: the exact set and the sum are
marked "[derived: from rule R23 ...]". -/
def Obligations.FramesBelongToOneFile : Prop :=
  ∀ s : State, SessionInv s →
    (∀ h, h < s.nFiles → (s.record h).frames.Nodup) ∧
    (∀ h j, h < s.nFiles → j < s.nFiles → h ≠ j → ∀ a ∈ (s.record h).frames, a ∉ (s.record j).frames) ∧
    (∀ a : FrameAddress, (∃ h, h < s.nFiles ∧ a ∈ (s.record h).frames) ↔ a.linear < s.nextFree.val) ∧
    ((List.range s.nFiles).map (fun h => (s.record h).frames.length)).sum = s.nextFree.val

/-- R27, R29, R31 (2): in a session a frame list has at most 65536 entries, and a length and a cursor are at most 2^26
and inside the file's frames, the cursor not beyond the length (log entry 8 for the parameter under which it can be).
Not the source's own: the parameter is decision D15, log entry 8. -/
def Obligations.PositionsFitTheirRegisters : Prop :=
  ∀ s : State, SessionInv s → ∀ h, h < s.nFiles →
    (s.record h).frames.length ≤ 65536 ∧
    (s.record h).endPos ≤ 67108864 ∧ (s.record h).endPos ≤ 1024 * (s.record h).frames.length ∧
    (s.record h).cursor ≤ 67108864 ∧ (s.record h).cursor ≤ 1024 * (s.record h).frames.length ∧
    (s.cfg.writeAbortCommitsLength = true → (s.record h).cursor ≤ (s.record h).endPos)

/-! ### The Read/Write Engine (spec/44_rw_engine.md) -/

/-- R149, R196: an iteration stays inside the buffer and inside the frame list; the next starts at a frame boundary;
the iterations are as many as the rule says. Not the source's own: the iteration count is marked "[derived: from rule
R140 and rule R143]". -/
def Obligations.ChunksStayInsideTheBuffer : Prop :=
  ∀ (r : FileRecord) (n : Nat), 0 < n → r.cursor + n ≤ 1024 * r.frames.length →
    offsetAtCursor r ≤ 1023 ∧ 1 ≤ chunkSize r n ∧ chunkSize r n ≤ 1024 - offsetAtCursor r ∧ chunkSize r n ≤ n ∧
    r.cursor / 1024 < r.frames.length ∧
    (chunkSize r n < n → (r.cursor + chunkSize r n) % 1024 = 0 ∧ offsetAtCursor r + chunkSize r n = 1024) ∧
    iterations r.cursor n = (r.cursor + n - 1) / 1024 - r.cursor / 1024 + 1 ∧
    iterations r.cursor n = 1 + iterations (r.cursor + chunkSize r n) (n - chunkSize r n)

/-- R140, R141, R142: read of an open handle. Either every transfer succeeds, they are LoadCartridge and ReadFrame for
each frame touched, and the result is the clamped count of bytes out of the buffers fetched, from the cursor's offset
on, with the cursor advanced past them; or the first failure ends it with DeviceError, no bytes, and the cursor after
the iterations completed. The record's other fields, every other record, `next_free` and every byte of the device are
as before. Not the source's own: that the cursor after a failure is determinate and no bytes are returned is decision
D16. -/
def Obligations.ReadDeliversOrAborts : Prop :=
  ∀ (s : State) (h count n : Nat), Usable s h → n = min count ((s.record h).endPos - (s.record h).cursor) →
    (n = 0 ∨ (s.record h).cursor + n ≤ 1024 * (s.record h).frames.length) →
    ∃ t, exec (.read h count) s = .next t ∧ SameTableExcept h s t ∧ t.nextFree = s.nextFree ∧ SameSession s t ∧
      DeviceSame s t ∧ t.record h = { s.record h with cursor := (t.record h).cursor } ∧
      (n = 0 → t.scratch = s.scratch) ∧
      ((allOk t.bus.trace = true ∧
          t.bus.trace.map (fun e => e.cmd) = readRequests (framesTouched (s.record h) n) ∧
          t.result = some (.success (.data (((fetchedBytes t.bus.trace).drop ((s.record h).cursor % 1024)).take n))) ∧
          (((fetchedBytes t.bus.trace).drop ((s.record h).cursor % 1024)).take n).length = n ∧
          (t.record h).cursor = (s.record h).cursor + n) ∨
       (StopsAtFailure t.bus.trace ∧
          t.bus.trace.map (fun e => e.cmd) <+: readRequests (framesTouched (s.record h) n) ∧
          t.result = some (.error .deviceError) ∧
          (t.record h).cursor = cursorAfter (s.record h).cursor ((t.bus.trace.length - 1) / 2)))

/-- R62, R140: with the reference device read succeeds and returns the file's bytes from the cursor on. Not the
source's own: the reference device is decision D21. -/
def Obligations.ReadReturnsTheFileBytes : Prop :=
  ∀ (s : State) (h count n : Nat), Usable s h → Undisturbed s →
    n = min count ((s.record h).endPos - (s.record h).cursor) →
    (n = 0 ∨ (s.record h).cursor + n ≤ 1024 * (s.record h).frames.length) →
    ∃ t, exec (.read h count) s = .next t ∧ Undisturbed t ∧ DeviceSame s t ∧
      t.result = some (.success (.data (fileBytes s.bus.mem (s.record h) (s.record h).cursor n))) ∧
      t.record h = { s.record h with cursor := (s.record h).cursor + n }

/-- R143, R144, R146, R151: write of an open handle with room in the pool. The frames missing are appended, lowest
free addresses first; then either every transfer succeeds, they are LoadCartridge, ReadFrame and WriteFrame for each
frame touched, the buffers sent are the buffers fetched with the input in place from the cursor's offset on, cursor
and length become `C + L` and `max E (C + L)` and the count is returned; or the first failure ends it with
DeviceError, the cursor after the iterations completed and the length raised to it, if `WRITE_ABORT_COMMITS_LENGTH`
says so. No byte of the device outside the frames touched changes, no other record changes. Not the source's own: the
length after an abort is decision D15. -/
def Obligations.WriteStoresOrAborts : Prop :=
  ∀ (s : State) (h m : Nat) (data : List Byte) (r : FileRecord), Usable s h →
    m = ((s.record h).cursor + data.length + 1023) / 1024 - (s.record h).frames.length →
    s.nextFree.val + m ≤ 65536 →
    r = { s.record h with frames := (s.record h).frames ++ nextAddresses s.nextFree.val m } →
    ∃ t, exec (.write h data) s = .next t ∧ SameTableExcept h s t ∧ t.nextFree.val = s.nextFree.val + m ∧
      SameSession s t ∧ DeviceSameOutside (framesTouched r data.length) s t ∧
      t.record h = { r with cursor := (t.record h).cursor, endPos := (t.record h).endPos } ∧
      (data = [] → t.scratch = s.scratch) ∧
      ((allOk t.bus.trace = true ∧
          t.bus.trace.map (fun e => e.cmd) = writeRequests (framesTouched r data.length) ∧
          sentBytes t.bus.trace = (fetchedBytes t.bus.trace).take (r.cursor % 1024) ++ data ++
            (fetchedBytes t.bus.trace).drop (r.cursor % 1024 + data.length) ∧
          t.result = some (.success (.written data.length)) ∧
          (t.record h).cursor = r.cursor + data.length ∧
          (t.record h).endPos = max r.endPos (r.cursor + data.length)) ∨
       (StopsAtFailure t.bus.trace ∧
          t.bus.trace.map (fun e => e.cmd) <+: writeRequests (framesTouched r data.length) ∧
          t.result = some (.error .deviceError) ∧
          (t.record h).cursor = cursorAfter r.cursor ((t.bus.trace.length - 1) / 3) ∧
          (t.record h).endPos =
            if s.cfg.writeAbortCommitsLength then max r.endPos (t.record h).cursor else r.endPos))

/-- R145: write without room in the pool appends the addresses that are left, issues no transfer and fails with
DeviceFull; cursor, length, `scratch` and the device are as before. -/
def Obligations.WriteWithoutRoomIsDeviceFull : Prop :=
  ∀ (s : State) (h : Nat) (data : List Byte), Usable s h →
    65536 < s.nextFree.val +
      (((s.record h).cursor + data.length + 1023) / 1024 - (s.record h).frames.length) →
    ∃ t, exec (.write h data) s = .next t ∧ t.result = some (.error .deviceFull) ∧ t.nextFree.val = 65536 ∧
      t.record h = { s.record h with
        frames := (s.record h).frames ++ nextAddresses s.nextFree.val (65536 - s.nextFree.val) } ∧
      SameTableExcept h s t ∧ t.scratch = s.scratch ∧ SameSession s t ∧ NoTransfer s t

/-- R62, R143, R151: with the reference device a write with room succeeds, and the file then holds the input from the
cursor on and what its frames held everywhere else. Not the source's own: the frame count is marked "[derived: the
third sentence from rule R143]", the reference device is decision D21. -/
def Obligations.WriteChangesTheFileBytes : Prop :=
  ∀ (s : State) (h : Nat) (data : List Byte), Inv s → Usable s h → Undisturbed s →
    s.nextFree.val + (((s.record h).cursor + data.length + 1023) / 1024 - (s.record h).frames.length) ≤ 65536 →
    ∃ t, exec (.write h data) s = .next t ∧ Undisturbed t ∧ t.result = some (.success (.written data.length)) ∧
      (t.record h).cursor = (s.record h).cursor + data.length ∧
      (t.record h).endPos = max (s.record h).endPos ((s.record h).cursor + data.length) ∧
      (t.record h).frames.length =
        max (s.record h).frames.length (((s.record h).cursor + data.length + 1023) / 1024) ∧
      ∀ p, p < 1024 * (t.record h).frames.length →
        fileByte t.bus.mem (t.record h) p =
          if (s.record h).cursor ≤ p ∧ p < (s.record h).cursor + data.length
          then data.getD (p - (s.record h).cursor) 0 else fileByte s.bus.mem (t.record h) p

/-- R152: with the reference device, writing bytes at the cursor, seeking back and reading as many returns exactly
them, whatever the cursor and however many frames they cross. Not the source's own: the inverse is marked "[derived:
from rules R140, R143 and R147 ...]", the reference device is decision D21. -/
def Obligations.ReadReturnsWhatWasWritten : Prop :=
  ∀ (s : State) (h : Nat) (data : List Byte), Inv s → Usable s h → Undisturbed s →
    s.nextFree.val + (((s.record h).cursor + data.length + 1023) / 1024 - (s.record h).frames.length) ≤ 65536 →
    ∃ t u v, exec (.write h data) s = .next t ∧ exec (.seek h (s.record h).cursor) t = .next u ∧
      exec (.read h data.length) u = .next v ∧ t.result = some (.success (.written data.length)) ∧
      u.result = some (.success .unit) ∧ v.result = some (.success (.data data))

/-- R153: whoever answers and whatever fails, a write sends its requests for frames of its own file only, and leaves
every other record and every byte of every other file as it was. Not the source's own: the isolation is marked
"[derived: from rule R144 ...]"; what the device holds after a transfer that failed is log entry 6. -/
def Obligations.WritesLeaveOtherFilesAlone : Prop :=
  ∀ (s t : State) (h : Nat) (data : List Byte), Inv s → exec (.write h data) s = .next t →
    (∃ l : List FrameAddress, (∀ a ∈ l, a ∈ (t.record h).frames) ∧
      t.bus.trace.map (fun e => e.cmd) <+: writeRequests l) ∧
    ∀ j, j < s.nFiles → j ≠ h → t.record j = s.record j ∧
      ∀ p, p < 1024 * (s.record j).frames.length →
        fileByte t.bus.mem (s.record j) p = fileByte s.bus.mem (s.record j) p

/-- R153, R68: with the reference device a read returns the same bytes before and after a write to another file. Not
the source's own: the isolation is marked "[derived: from rule R144 ...]". -/
def Obligations.ReadsIgnoreWritesToOtherFiles : Prop :=
  ∀ (s t u : State) (h j count : Nat) (data : List Byte), Inv s → Undisturbed s → j ≠ h →
    exec (.write h data) s = .next t → exec (.read j count) s = .next u →
    ∃ v, exec (.read j count) t = .next v ∧ v.result = u.result ∧ v.record j = u.record j

/-! ### Over all host commands -/

/-- R22 to R24, R27, R29, R39: which command can write which register. The parameters and the host's queue, which are
the model's, no command writes. Not the source's own: the access table is marked "[derived: from rules R22, R23 and
R24]"; parameters and queue are log entries 2 and 8. -/
def Obligations.RegistersAreWrittenByTheirCommandsOnly : Prop :=
  ∀ (i : Instr) (s t : State), exec i s = .next t →
    t.cfg = s.cfg ∧ t.pending = s.pending ∧
    (i ≠ .powerOn → i ≠ .powerOff → t.powered = s.powered) ∧
    (i ≠ .powerOn → (∀ h data, i ≠ .write h data) → t.nextFree = s.nextFree ∧
      ∀ h, h < s.nFiles → (t.record h).endPos = (s.record h).endPos ∧ (t.record h).frames = (s.record h).frames) ∧
    (i ≠ .powerOn → (∀ p, i ≠ .openFile p) → t.nFiles = s.nFiles)

/-- R24, R27, R29, R31 (4), R125, R132: within a session handles keep their paths, lengths and frame lists only grow,
and the pool only shrinks. Not the source's own: handle values are decision D8. -/
def Obligations.RecordsPersistWithinASession : Prop :=
  ∀ (i : Instr) (s t : State), i ≠ .powerOn → exec i s = .next t →
    s.nFiles ≤ t.nFiles ∧ s.nextFree.val ≤ t.nextFree.val ∧
    ∀ h, h < s.nFiles → (t.record h).path = (s.record h).path ∧
      (s.record h).frames <+: (t.record h).frames ∧ (s.record h).endPos ≤ (t.record h).endPos

/-- R28, R148: an open flag changes only by close of its handle or open of its path, and an error changes none. -/
def Obligations.OpenFlagsFollowTheStateMachine : Prop :=
  ∀ (i : Instr) (s t : State) (h : Nat), i ≠ .powerOn → exec i s = .next t → h < s.nFiles →
    ((t.record h).isOpen = (s.record h).isOpen ∨
     (i = .close h ∧ (s.record h).isOpen = true ∧ (t.record h).isOpen = false) ∨
     (i = .openFile (s.record h).path ∧ (s.record h).isOpen = false ∧ (t.record h).isOpen = true)) ∧
    (∀ e, t.result = some (.error e) → (t.record h).isOpen = (s.record h).isOpen ∧ t.nFiles = s.nFiles)

/-- R186: the results each host command can end in. Not the source's own: the table is marked "[derived: from the
rules cited in rule R170]". -/
def Obligations.ResultsOfEachCommand : Prop :=
  ∀ (i : Instr) (s t : State), isHostCommand i = true → exec i s = .next t →
    ∃ r, t.result = some r ∧ MayEndIn i r

/-- R171: the result codes. Not the source's own: the numbers are decision D7. -/
def Obligations.ResultCodesAreNumbered : Prop :=
  (∀ v, (HostResult.success v).rc = 0#3) ∧
  (HostResult.error .invalidHandle).rc = 1#3 ∧ (HostResult.error .notOpen).rc = 2#3 ∧
  (HostResult.error .alreadyOpen).rc = 3#3 ∧ (HostResult.error .outOfRange).rc = 4#3 ∧
  (HostResult.error .deviceFull).rc = 5#3 ∧ (HostResult.error .deviceError).rc = 6#3 ∧
  (HostResult.error .tooManyFiles).rc = 7#3

/-- R175: an error raised before the command has written any state leaves the block exactly as it was, but for the
result and the trace, which is empty. -/
def Obligations.EarlyErrorsArePrecise : Prop :=
  ∀ (i : Instr) (s t : State) (e : ErrorKind), isHostCommand i = true → exec i s = .next t →
    t.result = some (.error e) → e ≠ .deviceError → (e = .deviceFull → s.nextFree.val = 65536) →
    t = s.start.reportError e

/-- R55, R116: a command ends in DeviceError exactly when a transfer failed, that transfer is its last, and a command
that ends in another error has issued none. Not the source's own: the counts on errors are marked "[derived: from
`44_rw_engine.md` rules R140 and R143 ...]". -/
def Obligations.DeviceErrorExactlyAtTheFirstFailure : Prop :=
  ∀ (i : Instr) (s t : State), isHostCommand i = true → exec i s = .next t →
    (t.result = some (.error .deviceError) ∧ StopsAtFailure t.bus.trace) ∨
    (t.result ≠ some (.error .deviceError) ∧ allOk t.bus.trace = true ∧
      ∀ e, t.result = some (.error e) → t.bus.trace = [])

/-- R52, R54, R117: every request the block sends is one of the six, with reserved and unused bits zero and its index
in range, carries a buffer exactly for frame commands, and comes in the order that keeps the right cartridge mounted.
Not the source's own: the list is marked "[derived: from `30_encoding.md` rule R84 ...]" and the zero bits are
decision D3. -/
def Obligations.RequestsObeyTheBusContract : Prop :=
  ∀ (i : Instr) (s t : State), isHostCommand i = true → exec i s = .next t →
    (∀ e ∈ t.bus.trace,
      (unpack e.cmd).opcode.toNat ≤ 5 ∧ (unpack e.cmd).key2 = 0#8 ∧ (unpack e.cmd).status = 0#1 ∧
      e.cmd &&& 0x7FFF#64 = 0#64 ∧ (unpack e.cmd).cartridgeIndex.toNat ≤ 63 ∧ (unpack e.cmd).frameIndex.toNat ≤ 1023 ∧
      (e.out.isSome = true ↔ (unpack e.cmd).opcode = 3#8 ∨ (unpack e.cmd).opcode = 4#8) ∧
      (e.inp.isSome = true ↔ (unpack e.cmd).opcode = 3#8)) ∧
    WellOrdered none t.bus.trace

/-- R116, R202: how many transfers each command that succeeds has issued. Not the source's own: the table is marked
"[derived: from `44_rw_engine.md` rules R140 and R143 ...]". -/
def Obligations.TransferCountsOfSuccess : Prop :=
  ∀ (i : Instr) (s t : State) (v : Value), exec i s = .next t → t.result = some (.success v) →
    (i = .powerOn → t.bus.trace.length = 129) ∧
    (i = .powerOff → t.bus.trace.length = 1) ∧
    (∀ p, i = .openFile p → t.bus.trace.length = 0) ∧
    (∀ h, i = .close h → t.bus.trace.length = 0) ∧
    (∀ h o, i = .seek h o → t.bus.trace.length = 0) ∧
    (∀ h count, i = .read h count → t.bus.trace.length =
      2 * iterations (s.record h).cursor (min count ((s.record h).endPos - (s.record h).cursor))) ∧
    (∀ h data, i = .write h data → t.bus.trace.length = 3 * iterations (s.record h).cursor data.length)

/-- R14, R58: a command takes the answers of any Bus Transport in the order given, one for each transfer, and free
draws after them. The list of answers is the model's form of the environment (log entry 3). Not the source's own: the
list of answers is log entry 3. -/
def Obligations.AnswersAreTakenInOrder : Prop :=
  ∀ (i : Instr) (s t : State) (as : List Answer), isHostCommand i = true → s.bus.agent = .oracle as →
    exec i s = .next t →
    t.bus.agent = .oracle (as.drop t.bus.trace.length) ∧ t.bus.draws = s.bus.draws + t.bus.trace.length ∧
    ∀ k e, t.bus.trace[k]? = some e →
      (∀ a, as[k]? = some a → e.resp = a.resp ∧ ∀ b, e.inp = some b → b = a.data) ∧
      (as[k]? = none → e.resp = Config.drawWord (s.bus.draws + k))

/-- R34, R150: walking a command one transfer at a time, the sequencer goes through as many steps as the command
issues transfers and ends in the state of the command taken as one step. Not the source's own: the sequencer is
decision D20. -/
def Obligations.SequencerAgreesWithTheWholeCommand : Prop :=
  ∀ (i : Instr) (s t : State), isHostCommand i = true → exec i s = .next t →
    ∃ u, accept i s = .next u ∧ Host.Core.run Sys2Proof.core t.bus.trace.length u = .next t

/-- R53: of a response the block reads the status and nothing else. Two environments whose answers agree in status and
in data lead to states that differ only in the recorded responses and in the answers still to come. Not the source's
own: reading nothing but status is decision D4. -/
def Obligations.ResponsesAreReadForStatusOnly : Prop :=
  ∀ (i : Instr) (s t : State) (as bs : List Answer), isHostCommand i = true → s.bus.agent = .oracle as →
    List.Forall₂ (fun a b : Answer => failed a.resp = failed b.resp ∧ a.data = b.data) as bs →
    exec i s = .next t →
    ∃ u, exec i { s with bus := { s.bus with agent := .oracle bs } } = .next u ∧
      u = { t with bus := { t.bus with agent := u.bus.agent, trace := u.bus.trace } } ∧
      u.bus.trace.map (fun e => (e.cmd, e.out, failed e.resp, e.inp)) =
        t.bus.trace.map (fun e => (e.cmd, e.out, failed e.resp, e.inp))

/-- R33: the content `scratch` has when a command starts is not observable: not in the result, not in the table, not
on the device, not in a buffer that WriteFrame sends. (The buffer passed to ReadFrame holds it, to be overwritten.)
Not the source's own: scratch is decision D22. -/
def Obligations.StaleScratchIsNotObservable : Prop :=
  ∀ (i : Instr) (s t : State) (b : Frame), isHostCommand i = true → exec i s = .next t →
    ∃ u, exec i { s with scratch := b } = .next u ∧
      u = { t with scratch := u.scratch, bus := { t.bus with trace := u.bus.trace } } ∧
      u.bus.trace.map (fun e => (e.cmd, if isRead e.cmd then none else e.out, e.resp, e.inp)) =
        t.bus.trace.map (fun e => (e.cmd, if isRead e.cmd then none else e.out, e.resp, e.inp))

/-- R38, R190: powerOn, the only command with a meaning before the first session, reads none of the registers that
hardware reset leaves unspecified: whatever they hold, the state after it is the same, but for scratch after a
success, which powerOn does not write. Not the source's own: reset is decision D14; the values State.reset has for
these registers are log entry 1, scratch after powerOn is log entry 11. -/
def Obligations.UnspecifiedRegistersAreNotRead : Prop :=
  ∀ (s : State) (a : Fin 65537) (n : Nat) (c : List FileRecord) (b : Frame),
    exec .powerOn { s with nextFree := a, nFiles := n, ft := c, scratch := b } =
      match exec .powerOn s with
      | .next t => .next { t with scratch := if t.powered then b else t.scratch }
      | .fault r => .fault r
      | .refused r => .refused r

/-- R172, R177: a command is executed as if no earlier one had ended in an error: neither the last result nor the last
trace is read. Not the source's own: that an error records nothing is marked "[derived: from `10_state.md` rules R22
to R34 ...]". -/
def Obligations.EarlierResultsAreForgotten : Prop :=
  ∀ (i : Instr) (s : State) (r : Option HostResult) (tr : List Event), isHostCommand i = true →
    exec i { s with result := r, bus := { s.bus with trace := tr } } = exec i s

end
end

