-- ==== Sys2Proof/Laws/Codec.lean ====
section
/-! SUPPORT. The codec as concatenation and extraction, the request words' fields, and what the decoder makes of them. -/

namespace Sys2Proof.Machine

/-- `pack` is the concatenation of the five fields, each cut to its width, and fifteen zero bits (R81, R100). -/
theorem pack_eq_append (op k2 st c f : Nat) :
    pack op k2 st c f =
      BitVec.ofNat 8 op ++ (BitVec.ofNat 8 k2 ++ (BitVec.ofNat 1 st ++
        (BitVec.ofNat 16 c ++ (BitVec.ofNat 16 f ++ 0#15)))) := by
  have m16 : ∀ j, Nat.testBit 65535 j = decide (j < 16) := fun j => Nat.testBit_two_pow_sub_one 16 j
  have m8 : ∀ j, Nat.testBit 255 j = decide (j < 8) := fun j => Nat.testBit_two_pow_sub_one 8 j
  have m1 : ∀ j, Nat.testBit 1 j = decide (j < 1) := fun j => Nat.testBit_two_pow_sub_one 1 j
  apply BitVec.eq_of_getLsbD_eq
  intro i hi
  simp only [pack, BitVec.getLsbD_or, BitVec.getLsbD_shiftLeft, BitVec.getLsbD_and, BitVec.getLsbD_append,
    BitVec.getLsbD_ofNat]
  interval_cases i <;> simp [m16, m8, m1]

/-- `unpack` extracts the five fields (R81, R101). -/
theorem unpack_eq_extract (w : Word) :
    unpack w = { opcode := w.extractLsb' 56 8, key2 := w.extractLsb' 48 8, status := w.extractLsb' 47 1,
                 cartridgeIndex := w.extractLsb' 31 16, frameIndex := w.extractLsb' 15 16 } := by
  simp only [unpack, Fields.mk.injEq]
  refine ⟨?_, ?_, ?_, ?_, ?_⟩ <;>
  · apply BitVec.eq_of_getLsbD_eq
    intro i hi
    simp only [BitVec.getLsbD_setWidth, BitVec.getLsbD_and, BitVec.getLsbD_ushiftRight, BitVec.getLsbD_extractLsb']
    interval_cases i <;> simp

/-- The opcode of a word built from an opcode and at most one 16-bit index. -/
theorem unpack_request (op c f : Nat) :
    unpack (pack op 0 0 c f) =
      { opcode := BitVec.ofNat 8 op, key2 := 0#8, status := 0#1,
        cartridgeIndex := BitVec.ofNat 16 c, frameIndex := BitVec.ofNat 16 f } := by
  rw [unpack_eq_extract, pack_eq_append]
  simp only [Fields.mk.injEq]
  refine ⟨?_, ?_, ?_, ?_, ?_⟩ <;>
  · apply BitVec.eq_of_getLsbD_eq
    intro i hi
    simp only [BitVec.getLsbD_extractLsb', BitVec.getLsbD_append]
    interval_cases i <;> simp

/-- No request has a bit set below the fields (R54). -/
theorem request_low (op c f : Nat) : pack op 0 0 c f &&& 0x7FFF#64 = 0#64 := by
  rw [pack_eq_append]
  apply BitVec.eq_of_getLsbD_eq
  intro i hi
  simp only [BitVec.getLsbD_and, BitVec.getLsbD_append]
  interval_cases i <;> simp

theorem unpack_requestInit : unpack requestInit = { opcode := 0#8, key2 := 0#8, status := 0#1, cartridgeIndex := 0#16, frameIndex := 0#16 } := unpack_request _ _ _
theorem unpack_requestZero : unpack requestZero = { opcode := 1#8, key2 := 0#8, status := 0#1, cartridgeIndex := 0#16, frameIndex := 0#16 } := unpack_request _ _ _
theorem unpack_requestOff : unpack requestOff = { opcode := 5#8, key2 := 0#8, status := 0#1, cartridgeIndex := 0#16, frameIndex := 0#16 } := unpack_request _ _ _
theorem unpack_requestLoad (c : Nat) : unpack (requestLoad c) = { opcode := 2#8, key2 := 0#8, status := 0#1, cartridgeIndex := BitVec.ofNat 16 c, frameIndex := 0#16 } := unpack_request _ _ _
theorem unpack_requestRead (f : Nat) : unpack (requestRead f) = { opcode := 3#8, key2 := 0#8, status := 0#1, cartridgeIndex := 0#16, frameIndex := BitVec.ofNat 16 f } := unpack_request _ _ _
theorem unpack_requestWrite (f : Nat) : unpack (requestWrite f) = { opcode := 4#8, key2 := 0#8, status := 0#1, cartridgeIndex := 0#16, frameIndex := BitVec.ofNat 16 f } := unpack_request _ _ _

@[simp] theorem opcodeOf_requestInit : opcodeOf requestInit = 0 := by rw [opcodeOf, unpack_requestInit]; rfl
@[simp] theorem opcodeOf_requestZero : opcodeOf requestZero = 1 := by rw [opcodeOf, unpack_requestZero]; rfl
@[simp] theorem opcodeOf_requestOff : opcodeOf requestOff = 5 := by rw [opcodeOf, unpack_requestOff]; rfl
@[simp] theorem opcodeOf_requestLoad (c : Nat) : opcodeOf (requestLoad c) = 2 := by rw [opcodeOf, unpack_requestLoad]; rfl
@[simp] theorem opcodeOf_requestRead (f : Nat) : opcodeOf (requestRead f) = 3 := by rw [opcodeOf, unpack_requestRead]; rfl
@[simp] theorem opcodeOf_requestWrite (f : Nat) : opcodeOf (requestWrite f) = 4 := by rw [opcodeOf, unpack_requestWrite]; rfl

@[simp] theorem isRead_requestInit : isRead requestInit = false := by simp [isRead, unpack_requestInit]
@[simp] theorem isRead_requestZero : isRead requestZero = false := by simp [isRead, unpack_requestZero]
@[simp] theorem isRead_requestOff : isRead requestOff = false := by simp [isRead, unpack_requestOff]
@[simp] theorem isRead_requestLoad (c : Nat) : isRead (requestLoad c) = false := by simp [isRead, unpack_requestLoad]
@[simp] theorem isRead_requestRead (f : Nat) : isRead (requestRead f) = true := by simp [isRead, unpack_requestRead]
@[simp] theorem isRead_requestWrite (f : Nat) : isRead (requestWrite f) = false := by simp [isRead, unpack_requestWrite]

/-- The six request words as numbers (R83, R112 to R114). -/
theorem requestInit_word : requestInit = 0x0000000000000000#64 := by decide
theorem requestZero_word : requestZero = 0x0100000000000000#64 := by decide
theorem requestOff_word : requestOff = 0x0500000000000000#64 := by decide

/-- The reference device's own answer to a request reports success (R59). -/
theorem failed_echo (cmd : Word) : failed (echo cmd) = false := by
  have h : statusOf (echo cmd) = 0#1 := by
    simp only [statusOf, echo]
    rw [unpack_eq_extract, pack_eq_append]
    apply BitVec.eq_of_getLsbD_eq
    intro i hi
    simp only [BitVec.getLsbD_extractLsb', BitVec.getLsbD_append]
    interval_cases i
    simp
  simp [failed, h]

end Sys2Proof.Machine
end

