-- ==== Sys2Proof/Laws/State.lean ====
section
/-! SUPPORT. What each update of the state does to each field, and the laws of the File Table as a map. -/

namespace Sys2Proof.Machine

variable (s : State)

@[simp] theorem setPowered_cfg (b : Bool) : (s.setPowered b).cfg = s.cfg := rfl
@[simp] theorem setPowered_powered (b : Bool) : (s.setPowered b).powered = b := rfl
@[simp] theorem setPowered_nextFree (b : Bool) : (s.setPowered b).nextFree = s.nextFree := rfl
@[simp] theorem setPowered_nFiles (b : Bool) : (s.setPowered b).nFiles = s.nFiles := rfl
@[simp] theorem setPowered_ft (b : Bool) : (s.setPowered b).ft = s.ft := rfl
@[simp] theorem setPowered_scratch (b : Bool) : (s.setPowered b).scratch = s.scratch := rfl
@[simp] theorem setPowered_seq (b : Bool) : (s.setPowered b).seq = s.seq := rfl
@[simp] theorem setPowered_pending (b : Bool) : (s.setPowered b).pending = s.pending := rfl
@[simp] theorem setPowered_result (b : Bool) : (s.setPowered b).result = s.result := rfl
@[simp] theorem setPowered_bus (b : Bool) : (s.setPowered b).bus = s.bus := rfl

@[simp] theorem setRecord_cfg (h : Nat) (r : FileRecord) : (s.setRecord h r).cfg = s.cfg := rfl
@[simp] theorem setRecord_powered (h : Nat) (r : FileRecord) : (s.setRecord h r).powered = s.powered := rfl
@[simp] theorem setRecord_nextFree (h : Nat) (r : FileRecord) : (s.setRecord h r).nextFree = s.nextFree := rfl
@[simp] theorem setRecord_nFiles (h : Nat) (r : FileRecord) : (s.setRecord h r).nFiles = s.nFiles := rfl
@[simp] theorem setRecord_ft (h : Nat) (r : FileRecord) : (s.setRecord h r).ft = tableSet s.ft h r := rfl
@[simp] theorem setRecord_scratch (h : Nat) (r : FileRecord) : (s.setRecord h r).scratch = s.scratch := rfl
@[simp] theorem setRecord_seq (h : Nat) (r : FileRecord) : (s.setRecord h r).seq = s.seq := rfl
@[simp] theorem setRecord_pending (h : Nat) (r : FileRecord) : (s.setRecord h r).pending = s.pending := rfl
@[simp] theorem setRecord_result (h : Nat) (r : FileRecord) : (s.setRecord h r).result = s.result := rfl
@[simp] theorem setRecord_bus (h : Nat) (r : FileRecord) : (s.setRecord h r).bus = s.bus := rfl

@[simp] theorem setOpen_cfg (h : Nat) (b : Bool) : (s.setOpen h b).cfg = s.cfg := rfl
@[simp] theorem setOpen_powered (h : Nat) (b : Bool) : (s.setOpen h b).powered = s.powered := rfl
@[simp] theorem setOpen_nextFree (h : Nat) (b : Bool) : (s.setOpen h b).nextFree = s.nextFree := rfl
@[simp] theorem setOpen_nFiles (h : Nat) (b : Bool) : (s.setOpen h b).nFiles = s.nFiles := rfl
@[simp] theorem setOpen_ft (h : Nat) (b : Bool) : (s.setOpen h b).ft = tableSet s.ft h (withOpen b (s.record h)) := rfl
@[simp] theorem setOpen_scratch (h : Nat) (b : Bool) : (s.setOpen h b).scratch = s.scratch := rfl
@[simp] theorem setOpen_seq (h : Nat) (b : Bool) : (s.setOpen h b).seq = s.seq := rfl
@[simp] theorem setOpen_pending (h : Nat) (b : Bool) : (s.setOpen h b).pending = s.pending := rfl
@[simp] theorem setOpen_result (h : Nat) (b : Bool) : (s.setOpen h b).result = s.result := rfl
@[simp] theorem setOpen_bus (h : Nat) (b : Bool) : (s.setOpen h b).bus = s.bus := rfl

@[simp] theorem setCursor_cfg (h p : Nat) : (s.setCursor h p).cfg = s.cfg := rfl
@[simp] theorem setCursor_powered (h p : Nat) : (s.setCursor h p).powered = s.powered := rfl
@[simp] theorem setCursor_nextFree (h p : Nat) : (s.setCursor h p).nextFree = s.nextFree := rfl
@[simp] theorem setCursor_nFiles (h p : Nat) : (s.setCursor h p).nFiles = s.nFiles := rfl
@[simp] theorem setCursor_scratch (h p : Nat) : (s.setCursor h p).scratch = s.scratch := rfl
@[simp] theorem setCursor_seq (h p : Nat) : (s.setCursor h p).seq = s.seq := rfl
@[simp] theorem setCursor_pending (h p : Nat) : (s.setCursor h p).pending = s.pending := rfl
@[simp] theorem setCursor_result (h p : Nat) : (s.setCursor h p).result = s.result := rfl
@[simp] theorem setCursor_bus (h p : Nat) : (s.setCursor h p).bus = s.bus := rfl

@[simp] theorem setEnd_cfg (h p : Nat) : (s.setEnd h p).cfg = s.cfg := rfl
@[simp] theorem setEnd_powered (h p : Nat) : (s.setEnd h p).powered = s.powered := rfl
@[simp] theorem setEnd_nextFree (h p : Nat) : (s.setEnd h p).nextFree = s.nextFree := rfl
@[simp] theorem setEnd_nFiles (h p : Nat) : (s.setEnd h p).nFiles = s.nFiles := rfl
@[simp] theorem setEnd_scratch (h p : Nat) : (s.setEnd h p).scratch = s.scratch := rfl
@[simp] theorem setEnd_seq (h p : Nat) : (s.setEnd h p).seq = s.seq := rfl
@[simp] theorem setEnd_pending (h p : Nat) : (s.setEnd h p).pending = s.pending := rfl
@[simp] theorem setEnd_result (h p : Nat) : (s.setEnd h p).result = s.result := rfl
@[simp] theorem setEnd_bus (h p : Nat) : (s.setEnd h p).bus = s.bus := rfl

@[simp] theorem setScratch_cfg (b : Frame) : (s.setScratch b).cfg = s.cfg := rfl
@[simp] theorem setScratch_powered (b : Frame) : (s.setScratch b).powered = s.powered := rfl
@[simp] theorem setScratch_nextFree (b : Frame) : (s.setScratch b).nextFree = s.nextFree := rfl
@[simp] theorem setScratch_nFiles (b : Frame) : (s.setScratch b).nFiles = s.nFiles := rfl
@[simp] theorem setScratch_ft (b : Frame) : (s.setScratch b).ft = s.ft := rfl
@[simp] theorem setScratch_scratch (b : Frame) : (s.setScratch b).scratch = b := rfl
@[simp] theorem setScratch_seq (b : Frame) : (s.setScratch b).seq = s.seq := rfl
@[simp] theorem setScratch_pending (b : Frame) : (s.setScratch b).pending = s.pending := rfl
@[simp] theorem setScratch_result (b : Frame) : (s.setScratch b).result = s.result := rfl
@[simp] theorem setScratch_bus (b : Frame) : (s.setScratch b).bus = s.bus := rfl

@[simp] theorem start_cfg : (s.start).cfg = s.cfg := rfl
@[simp] theorem start_powered : (s.start).powered = s.powered := rfl
@[simp] theorem start_nextFree : (s.start).nextFree = s.nextFree := rfl
@[simp] theorem start_nFiles : (s.start).nFiles = s.nFiles := rfl
@[simp] theorem start_ft : (s.start).ft = s.ft := rfl
@[simp] theorem start_scratch : (s.start).scratch = s.scratch := rfl
@[simp] theorem start_seq : (s.start).seq = s.seq := rfl
@[simp] theorem start_pending : (s.start).pending = s.pending := rfl
@[simp] theorem start_result : (s.start).result = s.result := rfl

@[simp] theorem issue_cfg (w : Word) (o : Option Frame) : ((s.issue w o).2).cfg = s.cfg := rfl
@[simp] theorem issue_powered (w : Word) (o : Option Frame) : ((s.issue w o).2).powered = s.powered := rfl
@[simp] theorem issue_nextFree (w : Word) (o : Option Frame) : ((s.issue w o).2).nextFree = s.nextFree := rfl
@[simp] theorem issue_nFiles (w : Word) (o : Option Frame) : ((s.issue w o).2).nFiles = s.nFiles := rfl
@[simp] theorem issue_ft (w : Word) (o : Option Frame) : ((s.issue w o).2).ft = s.ft := rfl
@[simp] theorem issue_scratch (w : Word) (o : Option Frame) : ((s.issue w o).2).scratch = s.scratch := rfl
@[simp] theorem issue_seq (w : Word) (o : Option Frame) : ((s.issue w o).2).seq = s.seq := rfl
@[simp] theorem issue_pending (w : Word) (o : Option Frame) : ((s.issue w o).2).pending = s.pending := rfl
@[simp] theorem issue_result (w : Word) (o : Option Frame) : ((s.issue w o).2).result = s.result := rfl
@[simp] theorem issue_bus (w : Word) (o : Option Frame) : ((s.issue w o).2).bus = (s.bus.xfer w o).2 := rfl

@[simp] theorem reportError_cfg (e : ErrorKind) : (s.reportError e).cfg = s.cfg := rfl
@[simp] theorem reportError_powered (e : ErrorKind) : (s.reportError e).powered = s.powered := rfl
@[simp] theorem reportError_nextFree (e : ErrorKind) : (s.reportError e).nextFree = s.nextFree := rfl
@[simp] theorem reportError_nFiles (e : ErrorKind) : (s.reportError e).nFiles = s.nFiles := rfl
@[simp] theorem reportError_ft (e : ErrorKind) : (s.reportError e).ft = s.ft := rfl
@[simp] theorem reportError_scratch (e : ErrorKind) : (s.reportError e).scratch = s.scratch := rfl
@[simp] theorem reportError_seq (e : ErrorKind) : (s.reportError e).seq = .idle := rfl
@[simp] theorem reportError_pending (e : ErrorKind) : (s.reportError e).pending = s.pending := rfl
@[simp] theorem reportError_result (e : ErrorKind) : (s.reportError e).result = some (.error e) := rfl
@[simp] theorem reportError_bus (e : ErrorKind) : (s.reportError e).bus = s.bus := rfl

@[simp] theorem reportSuccess_cfg (v : Value) : (s.reportSuccess v).cfg = s.cfg := rfl
@[simp] theorem reportSuccess_powered (v : Value) : (s.reportSuccess v).powered = s.powered := rfl
@[simp] theorem reportSuccess_nextFree (v : Value) : (s.reportSuccess v).nextFree = s.nextFree := rfl
@[simp] theorem reportSuccess_nFiles (v : Value) : (s.reportSuccess v).nFiles = s.nFiles := rfl
@[simp] theorem reportSuccess_ft (v : Value) : (s.reportSuccess v).ft = s.ft := rfl
@[simp] theorem reportSuccess_scratch (v : Value) : (s.reportSuccess v).scratch = s.scratch := rfl
@[simp] theorem reportSuccess_seq (v : Value) : (s.reportSuccess v).seq = .idle := rfl
@[simp] theorem reportSuccess_pending (v : Value) : (s.reportSuccess v).pending = s.pending := rfl
@[simp] theorem reportSuccess_result (v : Value) : (s.reportSuccess v).result = some (.success v) := rfl
@[simp] theorem reportSuccess_bus (v : Value) : (s.reportSuccess v).bus = s.bus := rfl

@[simp] theorem await_cfg (w : Word) (j : Job) : (s.await w j).cfg = s.cfg := rfl
@[simp] theorem await_powered (w : Word) (j : Job) : (s.await w j).powered = s.powered := rfl
@[simp] theorem await_nextFree (w : Word) (j : Job) : (s.await w j).nextFree = s.nextFree := rfl
@[simp] theorem await_nFiles (w : Word) (j : Job) : (s.await w j).nFiles = s.nFiles := rfl
@[simp] theorem await_ft (w : Word) (j : Job) : (s.await w j).ft = s.ft := rfl
@[simp] theorem await_scratch (w : Word) (j : Job) : (s.await w j).scratch = s.scratch := rfl
@[simp] theorem await_seq (w : Word) (j : Job) : (s.await w j).seq = .waiting w j := rfl
@[simp] theorem await_pending (w : Word) (j : Job) : (s.await w j).pending = s.pending := rfl
@[simp] theorem await_result (w : Word) (j : Job) : (s.await w j).result = s.result := rfl
@[simp] theorem await_bus (w : Word) (j : Job) : (s.await w j).bus = s.bus := rfl

@[simp] theorem beginSession_cfg : (beginSession s).cfg = s.cfg := rfl
@[simp] theorem beginSession_powered : (beginSession s).powered = true := rfl
@[simp] theorem beginSession_nextFree : (beginSession s).nextFree = 0 := rfl
@[simp] theorem beginSession_nFiles : (beginSession s).nFiles = 0 := rfl
@[simp] theorem beginSession_ft : (beginSession s).ft = [] := rfl
@[simp] theorem beginSession_scratch : (beginSession s).scratch = s.scratch := rfl
@[simp] theorem beginSession_seq : (beginSession s).seq = s.seq := rfl
@[simp] theorem beginSession_pending : (beginSession s).pending = s.pending := rfl
@[simp] theorem beginSession_result : (beginSession s).result = s.result := rfl
@[simp] theorem beginSession_bus : (beginSession s).bus = s.bus := rfl

@[simp] theorem loseSession_cfg : (loseSession s).cfg = s.cfg := rfl
@[simp] theorem loseSession_powered : (loseSession s).powered = false := rfl
@[simp] theorem loseSession_scratch :
    (loseSession s).scratch = tabulate (Config.freeScratch s.bus.draws) := rfl
@[simp] theorem loseSession_seq : (loseSession s).seq = s.seq := rfl
@[simp] theorem loseSession_pending : (loseSession s).pending = s.pending := rfl
@[simp] theorem loseSession_result : (loseSession s).result = s.result := rfl
@[simp] theorem loseSession_bus : (loseSession s).bus = s.bus.lose := rfl

@[simp] theorem lose_agent (b : Bus) : b.lose.agent = b.agent := rfl
@[simp] theorem lose_draws (b : Bus) : b.lose.draws = b.draws := rfl
@[simp] theorem lose_trace (b : Bus) : b.lose.trace = b.trace := rfl

/-- Any Bus Transport but the reference device keeps what the model holds of it. -/
theorem lose_of_oracle {b : Bus} {as : List Answer} (h : b.agent = .oracle as) : b.lose = b := by
  cases b; cases h; rfl

@[simp] theorem start_bus_trace : s.start.bus.trace = [] := rfl
@[simp] theorem start_bus_agent : s.start.bus.agent = s.bus.agent := rfl
@[simp] theorem start_bus_mounted : s.start.bus.mounted = s.bus.mounted := rfl
@[simp] theorem start_bus_mem : s.start.bus.mem = s.bus.mem := rfl
@[simp] theorem start_bus_draws : s.start.bus.draws = s.bus.draws := rfl
@[simp] theorem issue_fst (w : Word) (o : Option Frame) : (s.issue w o).1 = (s.bus.xfer w o).1 := rfl

/-! ### The table as a map -/

/-- Reading a handle after writing one: the new record there, the old one everywhere else. -/
theorem tableGet_tableSet (t : List FileRecord) (h j : Nat) (r : FileRecord) :
    tableGet (tableSet t h r) j = if j = h then r else tableGet t j := by
  induction t generalizing h j with
  | nil =>
    induction h generalizing j with
    | zero => cases j <;> simp [tableSet, tableGet]
    | succ h ih =>
      cases j with
      | zero => simp [tableSet, tableGet]
      | succ j => simpa [tableSet, tableGet] using ih j
  | cons x t ih =>
    cases h with
    | zero => cases j <;> simp [tableSet, tableGet]
    | succ h =>
      cases j with
      | zero => simp [tableSet, tableGet]
      | succ j => simpa [tableSet, tableGet] using ih h j

@[simp] theorem tableGet_tableSet_self (t : List FileRecord) (h : Nat) (r : FileRecord) :
    tableGet (tableSet t h r) h = r := by simp [tableGet_tableSet]

theorem tableGet_tableSet_ne (t : List FileRecord) {h j : Nat} (r : FileRecord) (hne : j ≠ h) :
    tableGet (tableSet t h r) j = tableGet t j := by simp [tableGet_tableSet, hne]

/-- Writing a listed handle keeps the length and is the list's own update. -/
theorem tableSet_eq_set {t : List FileRecord} {h : Nat} (r : FileRecord) (hlt : h < t.length) :
    tableSet t h r = t.set h r := by
  induction t generalizing h with
  | nil => simp at hlt
  | cons x t ih =>
    cases h with
    | zero => rfl
    | succ h => simpa [tableSet] using ih (by simpa using hlt)

/-- Writing the handle after the last appends the record. -/
theorem tableSet_length (t : List FileRecord) (r : FileRecord) : tableSet t t.length r = t ++ [r] := by
  induction t with
  | nil => rfl
  | cons x t ih => simpa [tableSet] using ih

/-- Writing the same handle twice keeps the second record. -/
theorem tableSet_tableSet (t : List FileRecord) (h : Nat) (r r' : FileRecord) :
    tableSet (tableSet t h r) h r' = tableSet t h r' := by
  induction t generalizing h with
  | nil =>
    induction h with
    | zero => rfl
    | succ h ih => simpa [tableSet] using ih
  | cons x t ih =>
    cases h with
    | zero => rfl
    | succ h => simpa [tableSet] using ih h

@[simp] theorem record_setRecord_self (h : Nat) (r : FileRecord) : (s.setRecord h r).record h = r := by
  simp [State.record]

theorem record_setRecord (h j : Nat) (r : FileRecord) :
    (s.setRecord h r).record j = if j = h then r else s.record j := by
  simp [State.record, tableGet_tableSet]

/-- The record of a handle depends on the table alone. -/
theorem record_congr {s t : State} (h : Nat) (hft : t.ft = s.ft) : t.record h = s.record h := by
  simp [State.record, hft]

@[simp] theorem record_setPowered (b : Bool) (h : Nat) : (s.setPowered b).record h = s.record h := rfl
@[simp] theorem record_setScratch (b : Frame) (h : Nat) : (s.setScratch b).record h = s.record h := rfl
@[simp] theorem record_start (h : Nat) : s.start.record h = s.record h := rfl
@[simp] theorem record_issue (w : Word) (o : Option Frame) (h : Nat) : (s.issue w o).2.record h = s.record h := rfl
@[simp] theorem record_reportError (e : ErrorKind) (h : Nat) : (s.reportError e).record h = s.record h := rfl
@[simp] theorem record_reportSuccess (v : Value) (h : Nat) : (s.reportSuccess v).record h = s.record h := rfl
@[simp] theorem record_await (w : Word) (j : Job) (h : Nat) : (s.await w j).record h = s.record h := rfl

theorem record_setOpen (h j : Nat) (b : Bool) :
    (s.setOpen h b).record j = if j = h then withOpen b (s.record h) else s.record j := record_setRecord _ _ _ _
theorem record_setCursor (h j p : Nat) :
    (s.setCursor h p).record j = if j = h then { s.record h with cursor := p } else s.record j :=
  record_setRecord _ _ _ _
theorem record_setEnd (h j p : Nat) :
    (s.setEnd h p).record j = if j = h then { s.record h with endPos := p } else s.record j :=
  record_setRecord _ _ _ _

end Sys2Proof.Machine
end

