-- ==== Sys2Proof/Laws/Memory.lean ====
section
/-! SUPPORT. The frame store: reading after writing, the canonical form kept by every operation, and frame buffers. -/

namespace Sys2Proof.Machine

/-! ### Buffers -/

@[simp] theorem slice_length (b : Frame) (off k : Nat) : (slice b off k).length = min k (1024 - off) := by
  simp [slice, b.size]

theorem overwrite_bytes (b : Frame) (off : Nat) (bs : List Byte) :
    (overwrite b off bs).bytes = b.bytes.take off ++ bs.take (1024 - off) ++ b.bytes.drop (off + bs.length) := rfl

/-- Byte `i` after an overwrite that stays inside the buffer. -/
theorem overwrite_get (b : Frame) (off : Nat) (bs : List Byte) (hin : off + bs.length ≤ 1024) (i : Nat) :
    (overwrite b off bs).bytes[i]? = if off ≤ i ∧ i < off + bs.length then bs[i - off]? else b.bytes[i]? := by
  have hb := b.size
  have htake : bs.take (1024 - off) = bs := List.take_of_length_le (by omega)
  have hlen : (b.bytes.take off).length = off := by rw [List.length_take]; omega
  rw [overwrite_bytes, htake, List.append_assoc, List.getElem?_append, hlen]
  by_cases h1 : i < off
  · rw [if_pos h1, if_neg (by omega), List.getElem?_take_of_lt h1]
  · rw [if_neg h1, List.getElem?_append]
    by_cases h2 : i - off < bs.length
    · rw [if_pos h2, if_pos (by omega)]
    · rw [if_neg h2, if_neg (by omega), List.getElem?_drop]
      congr 1; omega

theorem tabulate_get (g : Nat → Byte) (i : Nat) (hi : i < 1024) : (tabulate g).bytes[i]? = some (g i) := by
  unfold tabulate
  rw [List.getElem?_map, List.getElem?_range hi, Option.map_some]

/-! ### Listed cells -/

theorem lookupCell_append (l₁ l₂ : List Host.Cell) (a : Nat) :
    lookupCell (l₁ ++ l₂) a = (lookupCell l₁ a).or (lookupCell l₂ a) := by
  induction l₁ with
  | nil => simp [lookupCell]
  | cons x l ih =>
    obtain ⟨b, v⟩ := x
    by_cases h : b = a <;> simp [lookupCell, h, ih]

theorem lookupCell_filter (p : Nat → Bool) (l : List Host.Cell) (a : Nat) :
    lookupCell (l.filter (fun x => p x.1)) a = if p a then lookupCell l a else none := by
  induction l with
  | nil => simp [lookupCell]
  | cons x l ih =>
    obtain ⟨b, v⟩ := x
    by_cases hb : p b
    · by_cases h : b = a
      · subst h; simp [hb, lookupCell]
      · simp [hb, lookupCell, h, ih]
    · by_cases h : b = a
      · subst h; simp [hb, ih]
      · simp [hb, lookupCell, h, ih]

theorem lookupCell_rowCells (bg : Nat → Byte) (bs : List Byte) (a x : Nat) :
    lookupCell (rowCells bg a bs) x =
      if a ≤ x then (match bs[x - a]? with
        | some v => if v = bg x then none else some v
        | none => none) else none := by
  induction bs generalizing a with
  | nil => simp [rowCells, lookupCell]
  | cons b bs ih =>
    unfold rowCells
    by_cases hx : x = a
    · subst hx
      by_cases hb : b = bg x
      · simp [hb, ih]
      · simp [hb, lookupCell]
    · have hne : ¬ a = x := fun h => hx h.symm
      have hstep : (if a + 1 ≤ x then (match bs[x - (a + 1)]? with
          | some v => if v = bg x then none else some v
          | none => none) else none : Option Byte) =
        if a ≤ x then (match (b :: bs)[x - a]? with
          | some v => if v = bg x then none else some v
          | none => none) else none := by
        by_cases hle : a + 1 ≤ x
        · have h1 : x - a = (x - (a + 1)) + 1 := by omega
          rw [if_pos hle, if_pos (by omega), h1, List.getElem?_cons_succ]
        · rw [if_neg hle, if_neg (by omega)]
      by_cases hb : b = bg a
      · rw [if_pos hb, ih, hstep]
      · rw [if_neg hb, lookupCell, if_neg hne, ih, hstep]

theorem lookupCell_replaceCells (cells new : List Host.Cell) (lo hi a : Nat) (hlh : lo ≤ hi)
    (hnew : ∀ x ∈ new, lo ≤ x.1 ∧ x.1 < hi) :
    lookupCell (replaceCells cells lo hi new) a =
      if lo ≤ a ∧ a < hi then lookupCell new a else lookupCell cells a := by
  have hout : ∀ l : List Host.Cell, (∀ x ∈ l, lo ≤ x.1 ∧ x.1 < hi) → ¬(lo ≤ a ∧ a < hi) → lookupCell l a = none := by
    intro l hl ha
    induction l with
    | nil => rfl
    | cons x l ih =>
      obtain ⟨b, v⟩ := x
      have hb := hl (b, v) (by simp)
      have hne : ¬ b = a := by rintro rfl; exact ha hb
      simp only [lookupCell, if_neg hne]
      exact ih (fun y hy => hl y (by simp [hy]))
  unfold replaceCells
  rw [lookupCell_append, lookupCell_append, lookupCell_filter (fun x => decide (x < lo)),
    lookupCell_filter (fun x => decide (hi ≤ x))]
  by_cases hin : lo ≤ a ∧ a < hi
  · simp [hin, Nat.not_lt.mpr hin.1, Nat.not_le.mpr hin.2]
  · rw [if_neg hin, hout new hnew hin]
    by_cases h1 : a < lo
    · have : ¬ hi ≤ a := by omega
      simp [h1, this]
    · have : hi ≤ a := by omega
      simp [h1, this]

theorem mem_rowCells {bg : Nat → Byte} {bs : List Byte} {a : Nat} {x : Host.Cell} (hx : x ∈ rowCells bg a bs) :
    a ≤ x.1 ∧ x.1 < a + bs.length ∧ x.2 ≠ bg x.1 := by
  induction bs generalizing a with
  | nil => simp [rowCells] at hx
  | cons b bs ih =>
    unfold rowCells at hx
    by_cases hb : b = bg a
    · rw [if_pos hb] at hx
      obtain ⟨h1, h2, h3⟩ := ih hx
      exact ⟨by omega, by rw [List.length_cons]; omega, h3⟩
    · rw [if_neg hb, List.mem_cons] at hx
      rcases hx with rfl | hx
      · exact ⟨le_refl _, by rw [List.length_cons]; omega, hb⟩
      · obtain ⟨h1, h2, h3⟩ := ih hx
        exact ⟨by omega, by rw [List.length_cons]; omega, h3⟩

theorem rowCells_sorted (bg : Nat → Byte) (bs : List Byte) (a : Nat) :
    (rowCells bg a bs).Pairwise (fun x y => x.1 < y.1) := by
  induction bs generalizing a with
  | nil => simp [rowCells]
  | cons b bs ih =>
    unfold rowCells
    by_cases hb : b = bg a
    · rw [if_pos hb]; exact ih _
    · rw [if_neg hb, List.pairwise_cons]
      exact ⟨fun x hx => by have := (mem_rowCells hx).1; simp; omega, ih _⟩

theorem replaceCells_sorted {cells new : List Host.Cell} {lo hi : Nat} (hlh : lo ≤ hi)
    (hc : cells.Pairwise (fun x y => x.1 < y.1)) (hn : new.Pairwise (fun x y => x.1 < y.1))
    (hnew : ∀ x ∈ new, lo ≤ x.1 ∧ x.1 < hi) :
    (replaceCells cells lo hi new).Pairwise (fun x y => x.1 < y.1) := by
  unfold replaceCells
  rw [List.append_assoc, List.pairwise_append, List.pairwise_append]
  refine ⟨hc.filter _, ⟨hn, hc.filter _, ?_⟩, ?_⟩
  · intro x hx y hy
    have := hnew x hx
    have hy' := of_decide_eq_true (List.mem_filter.mp hy).2
    omega
  · intro x hx y hy
    have hx' := of_decide_eq_true (List.mem_filter.mp hx).2
    rcases List.mem_append.mp hy with hy | hy
    · have := hnew y hy; omega
    · have hy' := of_decide_eq_true (List.mem_filter.mp hy).2
      omega

theorem mem_replaceCells {cells new : List Host.Cell} {lo hi : Nat} {x : Host.Cell}
    (hx : x ∈ replaceCells cells lo hi new) : x ∈ new ∨ (x ∈ cells ∧ (x.1 < lo ∨ hi ≤ x.1)) := by
  unfold replaceCells at hx
  simp only [List.mem_append, List.mem_filter, decide_eq_true_eq] at hx
  tauto

/-! ### Device addresses -/

theorem linear_lt (a : FrameAddress) : a.linear < 65536 := by
  have h1 := a.cart.isLt
  have h2 := a.frame.isLt
  simp only [FrameAddress.linear]; omega

theorem linear_injective {a b : FrameAddress} (h : a.linear = b.linear) : a = b := by
  obtain ⟨⟨c, hc⟩, ⟨f, hf⟩⟩ := a
  obtain ⟨⟨c', hc'⟩, ⟨f', hf'⟩⟩ := b
  simp only [FrameAddress.linear] at h
  have h1 : c = c' := by omega
  have h2 : f = f' := by omega
  subst h1; subst h2; rfl

theorem byteAddress_lt (a : FrameAddress) {i : Nat} (hi : i < 1024) : byteAddress a i < 67108864 := by
  have := linear_lt a
  simp only [byteAddress]; omega

theorem byteAddress_cartridge (a : FrameAddress) {i : Nat} (hi : i < 1024) :
    byteAddress a i / 1048576 = a.cart.val := by
  have h2 := a.frame.isLt
  simp only [byteAddress, FrameAddress.linear]; omega

theorem byteAddress_inj {a b : FrameAddress} {i j : Nat} (hi : i < 1024) (hj : j < 1024)
    (h : byteAddress a i = byteAddress b j) : a = b ∧ i = j := by
  simp only [byteAddress] at h
  exact ⟨linear_injective (by omega), by omega⟩

/-! ### Writing a frame -/

@[simp] theorem writeFrame_base (m : Memory) (a : FrameAddress) (b : Frame) : (m.writeFrame a b).base = m.base := rfl

@[simp] theorem writeFrame_background (m : Memory) (a : FrameAddress) (b : Frame) (x : Nat) :
    (m.writeFrame a b).background x = m.background x := rfl

theorem row_inside (bg : Nat → Byte) (a : FrameAddress) (b : Frame) :
    ∀ x ∈ rowCells bg (byteAddress a 0) b.bytes, byteAddress a 0 ≤ x.1 ∧ x.1 < byteAddress a 1024 := by
  intro x hx
  have h := mem_rowCells hx
  have hb := b.size
  simp only [byteAddress] at h ⊢
  omega

/-- Reading any byte after a frame was written: the buffer's byte inside the frame, the old byte outside. -/
theorem read_writeFrame (m : Memory) (a : FrameAddress) (b : Frame) (x : Nat) :
    (m.writeFrame a b).read x =
      if byteAddress a 0 ≤ x ∧ x < byteAddress a 1024 then b.bytes.getD (x - byteAddress a 0) 0 else m.read x := by
  unfold Memory.read
  rw [writeFrame_background]
  show (lookupCell (replaceCells m.cells (byteAddress a 0) (byteAddress a 1024) _) x).getD _ = _
  rw [lookupCell_replaceCells _ _ _ _ _ (by simp [byteAddress]) (row_inside _ a b)]
  by_cases hin : byteAddress a 0 ≤ x ∧ x < byteAddress a 1024
  · rw [if_pos hin, if_pos hin, lookupCell_rowCells, if_pos hin.1]
    have hb := b.size
    have hlt : x - byteAddress a 0 < b.bytes.length := by
      have := hin.2; simp only [byteAddress] at this ⊢; omega
    rw [List.getElem?_eq_getElem hlt]
    by_cases hv : b.bytes[x - byteAddress a 0] = m.background x
    · simp [List.getD, hlt, hv]
    · simp [List.getD, hlt, hv]
  · rw [if_neg hin, if_neg hin]

/-- Reading inside the frame written. -/
theorem read_writeFrame_same (m : Memory) (a : FrameAddress) (b : Frame) {i : Nat} (hi : i < 1024) :
    (m.writeFrame a b).read (byteAddress a i) = b.bytes.getD i 0 := by
  rw [read_writeFrame, if_pos (by simp only [byteAddress]; omega)]
  congr 1; simp only [byteAddress]; omega

/-- Reading inside another frame. -/
theorem read_writeFrame_other (m : Memory) {a c : FrameAddress} (b : Frame) {i : Nat} (hi : i < 1024) (hne : c ≠ a) :
    (m.writeFrame a b).read (byteAddress c i) = m.read (byteAddress c i) := by
  have hl : c.linear ≠ a.linear := fun h => hne (linear_injective h)
  rw [read_writeFrame, if_neg (by simp only [byteAddress]; omega)]

theorem writeFrame_wf {m : Memory} (hm : m.wf) (a : FrameAddress) (b : Frame) : (m.writeFrame a b).wf := by
  have hlt := linear_lt a
  refine ⟨replaceCells_sorted (by simp [byteAddress]) hm.1 (rowCells_sorted _ _ _) (row_inside _ a b), ?_⟩
  intro x hx
  rcases mem_replaceCells hx with hx | ⟨hx, -⟩
  · have h := mem_rowCells hx
    have hb := b.size
    refine ⟨?_, h.2.2⟩
    simp only [byteAddress] at h; omega
  · exact hm.2 x hx

/-- The frame read at an address is, byte by byte, what the store reads there. -/
theorem readFrame_get (m : Memory) (a : FrameAddress) {i : Nat} (hi : i < 1024) :
    (m.readFrame a).bytes[i]? = some (m.read (byteAddress a i)) := tabulate_get _ i hi

/-! ### Filling a cartridge -/

theorem fillCartridge_background (m : Memory) (c : Fin 64) (g : Background) (x : Nat) :
    (m.fillCartridge c g).background x =
      if x / 1048576 = c.val then (match g with | .zero => 0 | .unspecified n => Config.freeDeviceByte n x)
      else m.background x := by
  unfold Memory.background Memory.fillCartridge
  by_cases h : x / 1048576 = c.val
  · have hc := c.isLt
    simp only [h, if_true, Vector.getElem?_set_self hc]
    cases g <;> rfl
  · rw [if_neg h, Vector.getElem?_set_ne c.isLt (fun e => h e.symm)]

theorem fillCartridge_cells (m : Memory) (c : Fin 64) (g : Background) :
    (m.fillCartridge c g).cells = replaceCells m.cells (c.val * 1048576) ((c.val + 1) * 1048576) [] := rfl

/-- Reading after a cartridge was filled. -/
theorem read_fillCartridge (m : Memory) (c : Fin 64) (g : Background) (x : Nat) :
    (m.fillCartridge c g).read x =
      if x / 1048576 = c.val then (match g with | .zero => 0 | .unspecified n => Config.freeDeviceByte n x)
      else m.read x := by
  unfold Memory.read
  rw [fillCartridge_background, fillCartridge_cells,
    lookupCell_replaceCells _ _ _ _ _ (by omega) (by simp)]
  by_cases h : x / 1048576 = c.val
  · rw [if_pos h, if_pos h, if_pos (by omega)]; rfl
  · rw [if_neg h, if_neg h, if_neg (by omega)]

theorem fillCartridge_wf {m : Memory} (hm : m.wf) (c : Fin 64) (g : Background) : (m.fillCartridge c g).wf := by
  refine ⟨replaceCells_sorted (by omega) hm.1 (by simp) (by simp), ?_⟩
  intro x hx
  rcases mem_replaceCells hx with hx | ⟨hx, hout⟩
  · simp at hx
  · have h := hm.2 x hx
    refine ⟨h.1, ?_⟩
    rw [fillCartridge_background, if_neg (by omega)]
    exact h.2

theorem unspecified_wf (n : Nat) : (Memory.unspecified n).wf := by
  exact ⟨List.Pairwise.nil, fun _ hx => absurd hx List.not_mem_nil⟩

theorem reset_memory_wf : State.reset.bus.mem.wf := unspecified_wf 0

/-! ### The whole device -/

/-- The reference device keeps the canonical form (R59). -/
theorem serve_wf {b : Bus} (hm : b.mem.wf) (cmd : Word) (out : Option Frame) (d : Served)
    (hd : b.serve cmd out = some d) : d.mem.wf := by
  simp only [Bus.serve] at hd
  split at hd
  · cases hd
  · cases hk : BusCommand.ofCode (unpack cmd).opcode.toNat with
    | none => rw [hk] at hd; cases hd
    | some k =>
      rw [hk] at hd
      cases k with
      | initSystem => cases hd; exact unspecified_wf _
      | powerOff => cases hd; exact unspecified_wf _
      | loadCartridge =>
        simp only at hd
        split at hd
        · cases hd; exact hm
        · cases hd
      | zeroCartridge =>
        simp only at hd
        split at hd
        · cases hd; exact fillCartridge_wf hm _ _
        · cases hd
      | readFrame =>
        simp only at hd
        split at hd
        · split at hd
          · rw [← Option.some.inj hd]; exact hm
          · cases hd
        · cases hd
      | writeFrame =>
        simp only at hd
        split at hd
        · split at hd
          · rw [← Option.some.inj hd]; exact writeFrame_wf hm _ _
          · cases hd
        · cases hd

theorem afterFailure_wf {b : Bus} (hm : b.mem.wf) (cmd : Word) : (b.afterFailure cmd).mem.wf := by
  simp only [Bus.afterFailure]
  cases BusCommand.ofCode (unpack cmd).opcode.toNat with
  | none => exact hm
  | some k =>
    cases k with
    | initSystem => exact unspecified_wf _
    | powerOff => exact unspecified_wf _
    | loadCartridge => exact hm
    | zeroCartridge =>
      cases b.mounted with
      | none => exact hm
      | some m => exact fillCartridge_wf hm _ _
    | readFrame => exact hm
    | writeFrame =>
      cases b.mounted with
      | none => exact hm
      | some m => exact writeFrame_wf hm _ _

theorem respond_wf {b : Bus} (hm : b.mem.wf) (cmd : Word) (out : Option Frame) : (b.respond cmd out).2.mem.wf := by
  unfold Bus.respond
  split
  · exact hm
  · exact hm
  · simp only
    split
    · exact unspecified_wf _
    · rename_i d hd
      have hd' := serve_wf hm cmd out d hd
      split
      · split
        · apply afterFailure_wf; exact hm
        · exact hd'
      · exact hd'

/-- Every transfer keeps the canonical form of the frame store. -/
theorem xfer_wf {b : Bus} (hm : b.mem.wf) (cmd : Word) (out : Option Frame) : (b.xfer cmd out).2.mem.wf :=
  respond_wf hm cmd out

/-- So does the loss of the device's content. -/
theorem lose_wf {b : Bus} (hm : b.mem.wf) : b.lose.mem.wf := by
  cases h : b.agent with
  | oracle as => simp only [Bus.lose, h]; exact hm
  | reference os => simp only [Bus.lose, h]; exact unspecified_wf _

end Sys2Proof.Machine
end

