-- ==== Sys2Proof/Laws/Device.lean ====
section
/-! SUPPORT. What one transfer of each request does to the bus side: who answers afterwards, which cartridge is
mounted, and what the frame store reads. -/

namespace Sys2Proof.Machine

/-- Any Bus Transport, or the reference device with cartridge `c` mounted: what a frame command needs (R193). -/
def Bus.hasMounted (b : Bus) (c : Fin 64) : Prop := b.isOracle = true ∨ b.mounted = some c

theorem xfer_trace (b : Bus) (cmd : Word) (out : Option Frame) :
    (b.xfer cmd out).2.trace = b.trace ++
      [⟨cmd, out, (b.xfer cmd out).1.resp, if isRead cmd then some (b.xfer cmd out).1.data else none⟩] := rfl

@[simp] theorem xfer_draws (b : Bus) (cmd : Word) (out : Option Frame) : (b.xfer cmd out).2.draws = b.draws + 1 := rfl

@[simp] theorem afterFailure_agent (b : Bus) (cmd : Word) : (b.afterFailure cmd).agent = b.agent := by
  simp only [Bus.afterFailure]
  cases BusCommand.ofCode (unpack cmd).opcode.toNat with
  | none => rfl
  | some k => cases k <;> first | rfl | (cases b.mounted <;> rfl)

/-- What a failure leaves of the device does not depend on the agent. -/
theorem afterFailure_agent_irrelevant (b : Bus) (g : Agent) (cmd : Word) :
    (Bus.afterFailure { b with agent := g } cmd).mounted = (b.afterFailure cmd).mounted ∧
      (Bus.afterFailure { b with agent := g } cmd).mem = (b.afterFailure cmd).mem := by
  obtain ⟨_, mt, _, _, _⟩ := b
  simp only [Bus.afterFailure]
  cases BusCommand.ofCode (unpack cmd).opcode.toNat with
  | none => exact ⟨rfl, rfl⟩
  | some k => cases k <;> cases mt <;> exact ⟨rfl, rfl⟩

/-- A transfer never changes which kind of agent answers. -/
@[simp] theorem xfer_isOracle (b : Bus) (cmd : Word) (out : Option Frame) :
    (b.xfer cmd out).2.isOracle = b.isOracle := by
  simp only [Bus.xfer, Bus.respond, Bus.isOracle]
  cases hb : b.agent with
  | oracle as => cases as <;> simp [hb]
  | reference ovs =>
    simp only
    cases b.serve cmd out with
    | none => simp
    | some d =>
      cases ovs.head? with
      | none => simp
      | some o =>
        cases o with
        | none => simp
        | some w => cases hw : failed w <;> simp [hw]

/-- With any Bus Transport the reference device's store and its mounted cartridge play no part. -/
theorem xfer_oracle {b : Bus} (hb : b.isOracle = true) (cmd : Word) (out : Option Frame) :
    (b.xfer cmd out).2.mem = b.mem ∧ (b.xfer cmd out).2.mounted = b.mounted := by
  simp only [Bus.xfer, Bus.respond]
  cases ha : b.agent with
  | oracle as => cases as <;> exact ⟨rfl, rfl⟩
  | reference ovs => simp [Bus.isOracle, ha] at hb

/-- The undisturbed reference device answers with its own word and does what R59 lists. -/
theorem xfer_reference {b : Bus} (hb : b.agent = .reference []) {cmd : Word} {out : Option Frame} {d : Served}
    (hd : b.serve cmd out = some d) :
    (b.xfer cmd out).1 = { resp := echo cmd, data := d.data } ∧ (b.xfer cmd out).2.agent = .reference [] ∧
      (b.xfer cmd out).2.mounted = d.mounted ∧ (b.xfer cmd out).2.mem = d.mem := by
  simp [Bus.xfer, Bus.respond, hb, hd]

/-- In a listed case of the reference device the bus side is the one served, or the one a failure leaves. -/
theorem xfer_cases {b : Bus} (hb : b.isOracle = false) {cmd : Word} {out : Option Frame} {d : Served}
    (hd : b.serve cmd out = some d) :
    ((b.xfer cmd out).2.mounted = d.mounted ∧ (b.xfer cmd out).2.mem = d.mem ∧ failed (b.xfer cmd out).1.resp = false) ∨
    ((b.xfer cmd out).2.mounted = (b.afterFailure cmd).mounted ∧ (b.xfer cmd out).2.mem = (b.afterFailure cmd).mem ∧
      failed (b.xfer cmd out).1.resp = true) := by
  simp only [Bus.xfer, Bus.respond]
  cases ha : b.agent with
  | oracle as => simp [Bus.isOracle, ha] at hb
  | reference ovs =>
    simp only [hd]
    cases hh : ovs.head? with
    | none => left; simp [failed_echo]
    | some o =>
      cases o with
      | none => left; simp [failed_echo]
      | some w =>
        cases hw : failed w with
        | false => left; simp [hw]
        | true =>
          right
          simp only [if_true, hw, and_true]
          exact afterFailure_agent_irrelevant b _ cmd

/-! ### What the device serves for each request -/

theorem serve_init (b : Bus) :
    b.serve requestInit none = some { data := Frame.zero, mounted := none, mem := .unspecified b.draws } := by
  simp [Bus.serve, unpack_requestInit, BusCommand.ofCode]

theorem serve_off (b : Bus) :
    b.serve requestOff none = some { data := Frame.zero, mounted := none, mem := .unspecified b.draws } := by
  simp [Bus.serve, unpack_requestOff, BusCommand.ofCode]

theorem serve_load (b : Bus) (c : Fin 64) :
    b.serve (requestLoad c.val) none = some { data := Frame.zero, mounted := some c, mem := b.mem } := by
  have h1 : c.val % 65536 = c.val := by omega
  simp [Bus.serve, unpack_requestLoad, BusCommand.ofCode, h1]

theorem serve_zero (b : Bus) {c : Fin 64} (hm : b.mounted = some c) :
    b.serve requestZero none = some { data := Frame.zero, mounted := some c, mem := b.mem.fillCartridge c .zero } := by
  simp [Bus.serve, unpack_requestZero, BusCommand.ofCode, hm]

theorem serve_read (b : Bus) {c : Fin 64} (hm : b.mounted = some c) (f : Fin 1024) (buf : Frame) :
    b.serve (requestRead f.val) (some buf) =
      some { data := b.mem.readFrame ⟨c, f⟩, mounted := some c, mem := b.mem } := by
  have h1 : f.val % 65536 = f.val := by omega
  simp [Bus.serve, unpack_requestRead, BusCommand.ofCode, hm, h1]

theorem serve_write (b : Bus) {c : Fin 64} (hm : b.mounted = some c) (f : Fin 1024) (buf : Frame) :
    b.serve (requestWrite f.val) (some buf) =
      some { data := Frame.zero, mounted := some c, mem := b.mem.writeFrame ⟨c, f⟩ buf } := by
  have h1 : f.val % 65536 = f.val := by omega
  simp [Bus.serve, unpack_requestWrite, BusCommand.ofCode, hm, h1]

/-! ### The effect of each request on the frame store and the mount -/

theorem xfer_load_mem (b : Bus) (c : Fin 64) : (b.xfer (requestLoad c.val) none).2.mem = b.mem := by
  cases hb : b.isOracle with
  | true => exact (xfer_oracle hb _ _).1
  | false =>
    rcases xfer_cases hb (serve_load b c) with ⟨-, h, -⟩ | ⟨-, h, -⟩
    · exact h
    · rw [h]; simp [Bus.afterFailure, unpack_requestLoad, BusCommand.ofCode]

/-- After a LoadCartridge that succeeded the cartridge is mounted (R193). -/
theorem xfer_load_at (b : Bus) (c : Fin 64) (hok : failed (b.xfer (requestLoad c.val) none).1.resp = false) :
    (b.xfer (requestLoad c.val) none).2.hasMounted c := by
  cases hb : b.isOracle with
  | true => left; simp [hb]
  | false =>
    rcases xfer_cases hb (serve_load b c) with ⟨h, -, -⟩ | ⟨-, -, h⟩
    · right; exact h
    · rw [hok] at h; cases h

/-- ReadFrame changes neither the frame store nor the mount. -/
theorem xfer_read_device {b : Bus} {c : Fin 64} (hc : b.hasMounted c) (f : Fin 1024) (buf : Frame) :
    (b.xfer (requestRead f.val) (some buf)).2.mem = b.mem ∧
      (b.xfer (requestRead f.val) (some buf)).2.mounted = b.mounted := by
  cases hb : b.isOracle with
  | true => exact xfer_oracle hb _ _
  | false =>
    have hm : b.mounted = some c := hc.resolve_left (by simp [hb])
    rcases xfer_cases hb (serve_read b hm f buf) with ⟨h1, h2, -⟩ | ⟨h1, h2, -⟩
    · exact ⟨h2, h1.trans hm.symm⟩
    · rw [h1, h2]; simp [Bus.afterFailure, unpack_requestRead, BusCommand.ofCode]

theorem xfer_read_at {b : Bus} {c : Fin 64} (hc : b.hasMounted c) (f : Fin 1024) (buf : Frame) :
    (b.xfer (requestRead f.val) (some buf)).2.hasMounted c := by
  rcases hc with h | h
  · left; simp [h]
  · right; rw [(xfer_read_device (Or.inr h) f buf).2, h]

/-- WriteFrame changes no byte outside its frame. -/
theorem xfer_write_outside {b : Bus} {c : Fin 64} (hc : b.hasMounted c) (f : Fin 1024) (buf : Frame) (x : Nat)
    (hx : ¬ (byteAddress ⟨c, f⟩ 0 ≤ x ∧ x < byteAddress ⟨c, f⟩ 1024)) :
    (b.xfer (requestWrite f.val) (some buf)).2.mem.read x = b.mem.read x := by
  cases hb : b.isOracle with
  | true => rw [(xfer_oracle hb _ _).1]
  | false =>
    have hm : b.mounted = some c := hc.resolve_left (by simp [hb])
    rcases xfer_cases hb (serve_write b hm f buf) with ⟨-, h, -⟩ | ⟨-, h, -⟩
    · rw [h]
      show (b.mem.writeFrame ⟨c, f⟩ buf).read x = _
      rw [read_writeFrame, if_neg hx]
    · have hf : Fin.ofNat 1024 (BitVec.ofNat 16 f.val).toNat = f := by
        apply Fin.ext
        simp only [Fin.ofNat, BitVec.toNat_ofNat]
        omega
      have h2 : (b.afterFailure (requestWrite f.val)).mem = b.mem.writeFrame ⟨c, f⟩ (drawFrame b.draws) := by
        simp only [Bus.afterFailure, unpack_requestWrite, hm]
        rw [show BusCommand.ofCode (4#8).toNat = some .writeFrame from rfl]
        simp only [hf]
      rw [h, h2, read_writeFrame, if_neg hx]

/-! ### The undisturbed reference device, request by request -/

theorem reference_init {b : Bus} (hb : b.agent = .reference []) :
    failed (b.xfer requestInit none).1.resp = false ∧ (b.xfer requestInit none).2.agent = .reference [] ∧
      (b.xfer requestInit none).2.mem = .unspecified b.draws := by
  obtain ⟨h1, h2, -, h4⟩ := xfer_reference hb (serve_init b)
  exact ⟨by rw [h1]; exact failed_echo _, h2, h4⟩

theorem reference_off {b : Bus} (hb : b.agent = .reference []) :
    failed (b.xfer requestOff none).1.resp = false ∧ (b.xfer requestOff none).2.agent = .reference [] := by
  obtain ⟨h1, h2, -, -⟩ := xfer_reference hb (serve_off b)
  exact ⟨by rw [h1]; exact failed_echo _, h2⟩

theorem reference_load {b : Bus} (hb : b.agent = .reference []) (c : Fin 64) :
    failed (b.xfer (requestLoad c.val) none).1.resp = false ∧
      (b.xfer (requestLoad c.val) none).2.agent = .reference [] ∧
      (b.xfer (requestLoad c.val) none).2.mounted = some c ∧ (b.xfer (requestLoad c.val) none).2.mem = b.mem := by
  obtain ⟨h1, h2, h3, h4⟩ := xfer_reference hb (serve_load b c)
  exact ⟨by rw [h1]; exact failed_echo _, h2, h3, h4⟩

theorem reference_zero {b : Bus} (hb : b.agent = .reference []) {c : Fin 64} (hm : b.mounted = some c) :
    failed (b.xfer requestZero none).1.resp = false ∧ (b.xfer requestZero none).2.agent = .reference [] ∧
      (b.xfer requestZero none).2.mounted = some c ∧
      (b.xfer requestZero none).2.mem = b.mem.fillCartridge c .zero := by
  obtain ⟨h1, h2, h3, h4⟩ := xfer_reference hb (serve_zero b hm)
  exact ⟨by rw [h1]; exact failed_echo _, h2, h3, h4⟩

theorem reference_read {b : Bus} (hb : b.agent = .reference []) {c : Fin 64} (hm : b.mounted = some c)
    (f : Fin 1024) (buf : Frame) :
    failed (b.xfer (requestRead f.val) (some buf)).1.resp = false ∧
      (b.xfer (requestRead f.val) (some buf)).1.data = b.mem.readFrame ⟨c, f⟩ ∧
      (b.xfer (requestRead f.val) (some buf)).2.agent = .reference [] ∧
      (b.xfer (requestRead f.val) (some buf)).2.mounted = some c ∧
      (b.xfer (requestRead f.val) (some buf)).2.mem = b.mem := by
  obtain ⟨h1, h2, h3, h4⟩ := xfer_reference hb (serve_read b hm f buf)
  exact ⟨by rw [h1]; exact failed_echo _, by rw [h1], h2, h3, h4⟩

theorem reference_write {b : Bus} (hb : b.agent = .reference []) {c : Fin 64} (hm : b.mounted = some c)
    (f : Fin 1024) (buf : Frame) :
    failed (b.xfer (requestWrite f.val) (some buf)).1.resp = false ∧
      (b.xfer (requestWrite f.val) (some buf)).2.agent = .reference [] ∧
      (b.xfer (requestWrite f.val) (some buf)).2.mounted = some c ∧
      (b.xfer (requestWrite f.val) (some buf)).2.mem = b.mem.writeFrame ⟨c, f⟩ buf := by
  obtain ⟨h1, h2, h3, h4⟩ := xfer_reference hb (serve_write b hm f buf)
  exact ⟨by rw [h1]; exact failed_echo _, h2, h3, h4⟩

end Sys2Proof.Machine
end

