-- ==== Sys2Proof/Laws/Ops.lean ====
section
/-! SUPPORT. What each shared operation can do, said once: the requests with their status check, `FrameFetch` and
`FrameStore`, the allocator, `resolve`, and the starting and ending of a command. -/

namespace Sys2Proof.Machine

/-! ### Flow -/

@[simp] theorem bind_done {α β : Type} (a : α) (s : State) (k : α → State → Flow β) : (Flow.done a s).bind k = k a s := rfl
@[simp] theorem bind_raised {α β : Type} (e : ErrorKind) (s : State) (k : α → State → Flow β) :
    (Flow.raised e s).bind k = .raised e s := rfl
@[simp] theorem state_done {α : Type} (a : α) (s : State) : (Flow.done a s).state = s := rfl
@[simp] theorem state_raised {α : Type} (e : ErrorKind) (s : State) : (Flow.raised e s : Flow α).state = s := rfl
@[simp] theorem finish_done (v : Value) (s : State) : finish (.done v s) = s.reportSuccess v := rfl
@[simp] theorem finish_raised (e : ErrorKind) (s : State) : finish (.raised e s) = s.reportError e := rfl

/-! ### What transfers leave alone -/

/-- `t` differs from `s` at most in `scratch` and the bus side. -/
structure OnlyBus (s t : State) : Prop where
  cfg : t.cfg = s.cfg
  powered : t.powered = s.powered
  nextFree : t.nextFree = s.nextFree
  nFiles : t.nFiles = s.nFiles
  ft : t.ft = s.ft
  seq : t.seq = s.seq
  pending : t.pending = s.pending
  result : t.result = s.result

theorem OnlyBus.refl (s : State) : OnlyBus s s := ⟨rfl, rfl, rfl, rfl, rfl, rfl, rfl, rfl⟩

theorem OnlyBus.trans {s t u : State} (h₁ : OnlyBus s t) (h₂ : OnlyBus t u) : OnlyBus s u :=
  ⟨h₂.cfg.trans h₁.cfg, h₂.powered.trans h₁.powered, h₂.nextFree.trans h₁.nextFree, h₂.nFiles.trans h₁.nFiles,
   h₂.ft.trans h₁.ft, h₂.seq.trans h₁.seq, h₂.pending.trans h₁.pending, h₂.result.trans h₁.result⟩

theorem OnlyBus.record {s t : State} (h : OnlyBus s t) (j : Nat) : t.record j = s.record j := record_congr j h.ft

theorem OnlyBus.issue (s : State) (w : Word) (o : Option Frame) : OnlyBus s (s.issue w o).2 :=
  ⟨rfl, rfl, rfl, rfl, rfl, rfl, rfl, rfl⟩

theorem OnlyBus.setScratch (s : State) (b : Frame) : OnlyBus s (s.setScratch b) :=
  ⟨rfl, rfl, rfl, rfl, rfl, rfl, rfl, rfl⟩

/-! ### One request with its status check (R55): the state after it, the event it adds, and what it comes to -/

/-- The event a transfer of `w` with buffer `o` adds on the bus side `b`. -/
def eventOf (b : Bus) (w : Word) (o : Option Frame) : Event :=
  ⟨w, o, (b.xfer w o).1.resp, if isRead w then some (b.xfer w o).1.data else none⟩

@[simp] theorem eventOf_cmd (b : Bus) (w : Word) (o : Option Frame) : (eventOf b w o).cmd = w := rfl
@[simp] theorem eventOf_out (b : Bus) (w : Word) (o : Option Frame) : (eventOf b w o).out = o := rfl
@[simp] theorem eventOf_resp (b : Bus) (w : Word) (o : Option Frame) : (eventOf b w o).resp = (b.xfer w o).1.resp := rfl
@[simp] theorem eventOf_inp (b : Bus) (w : Word) (o : Option Frame) :
    (eventOf b w o).inp = if isRead w then some (b.xfer w o).1.data else none := rfl

theorem issue_trace (s : State) (w : Word) (o : Option Frame) :
    (s.issue w o).2.bus.trace = s.bus.trace ++ [eventOf s.bus w o] := rfl

/-- The status check (R55). -/
theorem statusCheck_of_failed {w : Word} (h : failed w = true) (s : State) : statusCheck w s = .raised .deviceError s := by
  simp [statusCheck, h]

theorem statusCheck_of_ok {w : Word} (h : failed w = false) (s : State) : statusCheck w s = .done () s := by
  simp [statusCheck, h]

theorem statusCheck_state (w : Word) (s : State) : (statusCheck w s).state = s := by
  unfold statusCheck; split <;> rfl

/-- LoadCartridge (R112). -/
theorem busLoad_eq (c : Nat) (s : State) :
    busLoad c s = statusCheck (eventOf s.bus (requestLoad c) none).resp (s.issue (requestLoad c) none).2 := rfl

/-- ReadFrame (R113): `scratch` holds what the callee left in the buffer. -/
theorem busRead_eq (f : Nat) (s : State) :
    busRead f s = statusCheck (eventOf s.bus (requestRead f) (some s.scratch)).resp
      ((s.issue (requestRead f) (some s.scratch)).2.setScratch (s.bus.xfer (requestRead f) (some s.scratch)).1.data) := rfl

/-- WriteFrame (R114). -/
theorem busWrite_eq (f : Nat) (s : State) :
    busWrite f s = statusCheck (eventOf s.bus (requestWrite f) (some s.scratch)).resp
      (s.issue (requestWrite f) (some s.scratch)).2 := rfl

/-! ### FrameFetch and FrameStore (R60, R61) -/

/-- Everything `FrameFetch` can do: the LoadCartridge fails and nothing follows; or it succeeds and the ReadFrame
fails; or both succeed and `scratch` holds the buffer delivered. No byte of the device changes. -/
theorem frameFetch_cases (a : FrameAddress) (s : State) :
    ∃ t, OnlyBus s t ∧ t.bus.mem = s.bus.mem ∧ t.bus.isOracle = s.bus.isOracle ∧
      ((∃ e, frameFetch a s = .raised .deviceError t ∧ t.bus.trace = s.bus.trace ++ [e] ∧
          e.cmd = requestLoad a.cart.val ∧ e.inp = none ∧ failed e.resp = true) ∨
       (∃ e₁ e₂, t.bus.trace = s.bus.trace ++ [e₁, e₂] ∧ e₁.cmd = requestLoad a.cart.val ∧ e₁.inp = none ∧
          failed e₁.resp = false ∧ e₂.cmd = requestRead a.frame.val ∧ e₂.inp = some t.scratch ∧
          t.bus.hasMounted a.cart ∧
          ((failed e₂.resp = true ∧ frameFetch a s = .raised .deviceError t) ∨
           (failed e₂.resp = false ∧ frameFetch a s = .done () t)))) := by
  have hmem := xfer_load_mem s.bus a.cart
  cases h1 : failed (eventOf s.bus (requestLoad a.cart.val) none).resp with
  | true =>
    refine ⟨(s.issue (requestLoad a.cart.val) none).2, OnlyBus.issue _ _ _, hmem, by simp, Or.inl
      ⟨eventOf s.bus (requestLoad a.cart.val) none, ?_, issue_trace _ _ _, rfl, by simp, h1⟩⟩
    rw [frameFetch, busLoad_eq, statusCheck_of_failed h1, bind_raised]
  | false =>
    have hat := xfer_load_at s.bus a.cart h1
    have hdev := xfer_read_device hat a.frame s.scratch
    refine ⟨((s.issue (requestLoad a.cart.val) none).2.issue (requestRead a.frame.val) (some s.scratch)).2.setScratch
        ((s.issue (requestLoad a.cart.val) none).2.bus.xfer (requestRead a.frame.val) (some s.scratch)).1.data,
      (OnlyBus.issue _ _ _).trans ((OnlyBus.issue _ _ _).trans (OnlyBus.setScratch _ _)), hdev.1.trans hmem, by simp,
      Or.inr ⟨eventOf s.bus (requestLoad a.cart.val) none,
        eventOf (s.issue (requestLoad a.cart.val) none).2.bus (requestRead a.frame.val) (some s.scratch),
        ?_, rfl, by simp, h1, rfl, by simp, xfer_read_at hat _ _, ?_⟩⟩
    · show _ ++ [_] = _
      rw [issue_trace, List.append_assoc]; rfl
    · rw [frameFetch, busLoad_eq, statusCheck_of_ok h1, bind_done, busRead_eq]
      cases h2 : failed (eventOf (s.issue (requestLoad a.cart.val) none).2.bus (requestRead a.frame.val) (some s.scratch)).resp with
      | true => exact Or.inl ⟨rfl, statusCheck_of_failed h2 _⟩
      | false => exact Or.inr ⟨rfl, statusCheck_of_ok h2 _⟩

/-- `FrameFetch` with the undisturbed reference device (R59): it succeeds, and `scratch` holds the frame. -/
theorem frameFetch_reference (a : FrameAddress) {s : State} (hs : Undisturbed s) :
    ∃ t, frameFetch a s = .done () t ∧ OnlyBus s t ∧ Undisturbed t ∧ t.bus.mounted = some a.cart ∧
      t.bus.mem = s.bus.mem ∧ t.scratch = s.bus.mem.readFrame a := by
  obtain ⟨h1, h2, h3, h4⟩ := reference_load hs a.cart
  obtain ⟨g1, g2, g3, g4, g5⟩ := reference_read (b := (s.issue (requestLoad a.cart.val) none).2.bus) h2 h3 a.frame s.scratch
  refine ⟨((s.issue (requestLoad a.cart.val) none).2.issue (requestRead a.frame.val) (some s.scratch)).2.setScratch
      ((s.issue (requestLoad a.cart.val) none).2.bus.xfer (requestRead a.frame.val) (some s.scratch)).1.data,
    ?_, (OnlyBus.issue _ _ _).trans ((OnlyBus.issue _ _ _).trans (OnlyBus.setScratch _ _)), g3, g4, g5.trans h4, ?_⟩
  · rw [frameFetch, busLoad_eq, statusCheck_of_ok (by exact h1), bind_done, busRead_eq, statusCheck_of_ok (by exact g1)]
    rfl
  · rw [setScratch_scratch, g2]
    show (s.bus.xfer (requestLoad a.cart.val) none).2.mem.readFrame a = _
    rw [h4]

/-- Everything `FrameStore` can do once its cartridge is mounted: one WriteFrame of `scratch`, which fails or not.
No byte outside the frame changes. -/
theorem frameStore_cases {c : Fin 64} (f : Fin 1024) {s : State} (hc : s.bus.hasMounted c) :
    ∃ t e, OnlyBus s t ∧ t.scratch = s.scratch ∧ t.bus.isOracle = s.bus.isOracle ∧ t.bus.trace = s.bus.trace ++ [e] ∧
      e.cmd = requestWrite f.val ∧ e.out = some s.scratch ∧ e.inp = none ∧
      (∀ x, ¬ (byteAddress ⟨c, f⟩ 0 ≤ x ∧ x < byteAddress ⟨c, f⟩ 1024) → t.bus.mem.read x = s.bus.mem.read x) ∧
      ((failed e.resp = true ∧ frameStore f s = .raised .deviceError t) ∨
       (failed e.resp = false ∧ frameStore f s = .done () t)) := by
  refine ⟨(s.issue (requestWrite f.val) (some s.scratch)).2, eventOf s.bus (requestWrite f.val) (some s.scratch),
    OnlyBus.issue _ _ _, rfl, by simp, issue_trace _ _ _, rfl, rfl, by simp,
    fun x hx => xfer_write_outside hc f s.scratch x hx, ?_⟩
  rw [frameStore, busWrite_eq]
  cases h : failed (eventOf s.bus (requestWrite f.val) (some s.scratch)).resp with
  | true => exact Or.inl ⟨rfl, statusCheck_of_failed h _⟩
  | false => exact Or.inr ⟨rfl, statusCheck_of_ok h _⟩

/-- `FrameStore` with the undisturbed reference device (R59): it succeeds and the frame holds `scratch`. -/
theorem frameStore_reference {c : Fin 64} (f : Fin 1024) {s : State} (hs : Undisturbed s) (hm : s.bus.mounted = some c) :
    ∃ t, frameStore f s = .done () t ∧ OnlyBus s t ∧ t.scratch = s.scratch ∧ Undisturbed t ∧
      t.bus.mem = s.bus.mem.writeFrame ⟨c, f⟩ s.scratch := by
  obtain ⟨h1, h2, -, h4⟩ := reference_write hs hm f s.scratch
  exact ⟨(s.issue (requestWrite f.val) (some s.scratch)).2,
    by rw [frameStore, busWrite_eq, statusCheck_of_ok (by exact h1)], OnlyBus.issue _ _ _, rfl, h2, h4⟩

/-! ### The allocator (R121, R122) -/

theorem lowestFree_linear {n : Nat} (hn : n < 65536) : (lowestFree n).linear = n := by
  simp only [lowestFree, FrameAddress.linear, Fin.ofNat]
  omega

/-- `alloc_append` with a free address left. -/
theorem allocAppend_free (h : Nat) {s : State} (hf : s.nextFree.val < 65536) :
    ∃ t, allocAppend h s = .done () t ∧ t.nextFree.val = s.nextFree.val + 1 ∧
      t.ft = tableSet s.ft h { s.record h with frames := (s.record h).frames ++ [lowestFree s.nextFree.val] } ∧
      t.cfg = s.cfg ∧ t.powered = s.powered ∧ t.nFiles = s.nFiles ∧ t.scratch = s.scratch ∧ t.seq = s.seq ∧
      t.pending = s.pending ∧ t.result = s.result ∧ t.bus = s.bus := by
  refine ⟨({ s with nextFree := ⟨s.nextFree.val + 1, by omega⟩ } : State).setRecord h
    { s.record h with frames := (s.record h).frames ++ [lowestFree s.nextFree.val] }, ?_, rfl, rfl, rfl, rfl, rfl, rfl,
    rfl, rfl, rfl, rfl⟩
  simp only [allocAppend, allocate, dif_pos hf, bind_done]
  rfl

/-- `alloc_append` with the pool empty: DeviceFull, nothing changed. -/
theorem allocAppend_full (h : Nat) {s : State} (hf : ¬ s.nextFree.val < 65536) :
    allocAppend h s = .raised .deviceFull s := by
  simp only [allocAppend, allocate, dif_neg hf, bind_raised]

/-! ### Handles (R130) -/

theorem resolve_unknown {h : Nat} {s : State} (hu : ¬ h < s.nFiles) : resolve h s = .raised .invalidHandle s := by
  simp [resolve, hu]

theorem resolve_closed {h : Nat} {s : State} (hk : h < s.nFiles) (hc : (s.record h).isOpen = false) :
    resolve h s = .raised .notOpen s := by
  simp [resolve, hk, hc]

theorem resolve_open {h : Nat} {s : State} (hk : h < s.nFiles) (ho : (s.record h).isOpen = true) :
    resolve h s = .done () s := by
  simp [resolve, hk, ho]

/-! ### Starting a command -/

theorem whenIdle_idle {s : State} (hi : s.seq = .idle) (body : State → Host.Outcome State Fault Refusal) :
    whenIdle s body = body s.start := by
  simp [whenIdle, hi]

theorem inSession_powered {s : State} (hi : s.seq = .idle) (hp : s.powered = true)
    (body : State → Host.Outcome State Fault Refusal) : inSession s body = body s.start := by
  simp [inSession, whenIdle, hi, hp]

theorem inSession_unpowered {s : State} (hi : s.seq = .idle) (hp : s.powered = false)
    (body : State → Host.Outcome State Fault Refusal) : inSession s body = .refused .notPowered := by
  simp [inSession, whenIdle, hi, hp]

/-- A command in session that answers a next state was given while idle and powered. -/
theorem inSession_next {s t : State} {body : State → Host.Outcome State Fault Refusal}
    (h : inSession s body = .next t) : s.seq = .idle ∧ s.powered = true ∧ body s.start = .next t := by
  cases hi : s.seq with
  | waiting w j => simp [inSession, whenIdle, hi] at h
  | idle =>
    cases hp : s.powered with
    | false => simp [inSession, whenIdle, hi, hp] at h
    | true => exact ⟨rfl, rfl, by rwa [inSession_powered hi hp] at h⟩

theorem whenIdle_next {s t : State} {body : State → Host.Outcome State Fault Refusal}
    (h : whenIdle s body = .next t) : s.seq = .idle ∧ body s.start = .next t := by
  cases hi : s.seq with
  | waiting w j => simp [whenIdle, hi] at h
  | idle => exact ⟨rfl, by rwa [whenIdle_idle hi] at h⟩

/-- A bus command the environment takes (R59): its transfer, its status check and the report. -/
theorem runBus_accepted {s : State} {w : Word} {o : Option Frame} (ha : s.bus.accepts w o = true)
    (op : State → Flow Unit) :
    runBus s w o op = .next (finish ((op s).bind (fun _ t => .done .unit t))) := by
  simp [runBus, ha]

theorem runBus_next {s t : State} {w : Word} {o : Option Frame} {op : State → Flow Unit}
    (h : runBus s w o op = .next t) :
    s.bus.accepts w o = true ∧ t = finish ((op s).bind (fun _ u => .done .unit u)) := by
  cases ha : s.bus.accepts w o with
  | false => simp [runBus, ha] at h
  | true =>
    rw [runBus_accepted ha] at h
    exact ⟨rfl, (Host.Outcome.next.inj h).symm⟩

end Sys2Proof.Machine
end

