-- ==== Sys2Proof/Laws/BusCommands.lean ====
section
/-! SUPPORT. A bus command run on its own: when the environment takes it, the state it leaves, and the request words as
the numbers the rules give. -/

namespace Sys2Proof.Machine

theorem serve_init_iff (b : Bus) : (b.serve requestInit none).isSome = true ↔ b.lists .initSystem := by
  simp [serve_init, Bus.lists]

theorem serve_off_iff (b : Bus) : (b.serve requestOff none).isSome = true ↔ b.lists .busPowerOff := by
  simp [serve_off, Bus.lists]

theorem serve_zero_iff (b : Bus) : (b.serve requestZero none).isSome = true ↔ b.lists .zeroCartridge := by
  cases hm : b.mounted <;> simp [Bus.serve, unpack_requestZero, BusCommand.ofCode, hm, Bus.lists]

theorem serve_load_iff (b : Bus) (c : BitVec 16) :
    (b.serve (requestLoad c.toNat) none).isSome = true ↔ b.lists (.loadCartridge c) := by
  by_cases hf : c.toNat < 64 <;> simp [Bus.serve, unpack_requestLoad, BusCommand.ofCode, hf, Bus.lists]

theorem serve_read_iff (b : Bus) (f : BitVec 16) (buf : Frame) :
    (b.serve (requestRead f.toNat) (some buf)).isSome = true ↔ b.lists (.readFrame f) := by
  cases hm : b.mounted with
  | none => simp [Bus.serve, unpack_requestRead, BusCommand.ofCode, hm, Bus.lists]
  | some m => by_cases hf : f.toNat < 1024 <;> simp [Bus.serve, unpack_requestRead, BusCommand.ofCode, hm, hf, Bus.lists]

theorem serve_write_iff (b : Bus) (f : BitVec 16) (buf : Frame) :
    (b.serve (requestWrite f.toNat) (some buf)).isSome = true ↔ b.lists (.writeFrame f) := by
  cases hm : b.mounted with
  | none => simp [Bus.serve, unpack_requestWrite, BusCommand.ofCode, hm, Bus.lists]
  | some m => by_cases hf : f.toNat < 1024 <;> simp [Bus.serve, unpack_requestWrite, BusCommand.ofCode, hm, hf, Bus.lists]

/-- The environment takes a request exactly when the command is ready (R14, R59). -/
theorem accepts_iff_ready (s : State) (i : Instr) (w : Word) (o : Option Frame)
    (h : (s.bus.serve w o).isSome = true ↔ s.bus.lists i) : s.bus.accepts w o = true ↔ Ready s i := by
  unfold Ready Bus.accepts Bus.isOracle
  cases s.bus.agent <;> simp [h]

/-- A bus command the environment takes leaves the state after its transfer. -/
theorem runBus_eq (s : State) (w : Word) (o : Option Frame) (buf : Frame) (op : State → Flow Unit)
    (ha : s.bus.accepts w o = true)
    (hop : op s = statusCheck (s.issue w o).1.resp { (s.issue w o).2 with scratch := buf }) :
    runBus s w o op = .next (afterTransfer s w o buf) := by
  rw [runBus_accepted ha, hop]
  unfold statusCheck afterTransfer
  cases hf : failed (s.issue w o).1.resp with
  | true =>
    have : failed (s.bus.xfer w o).1.resp = true := hf
    simp [this]; rfl
  | false =>
    have : failed (s.bus.xfer w o).1.resp = false := hf
    simp [this]; rfl

/-- A bus command that answers a next state was taken, and left the state after its transfer. -/
theorem runBus_next_eq {s t : State} {w : Word} {o : Option Frame} {op : State → Flow Unit} (buf : Frame)
    (hop : op s = statusCheck (s.issue w o).1.resp { (s.issue w o).2 with scratch := buf })
    (h : runBus s w o op = .next t) : s.bus.accepts w o = true ∧ t = afterTransfer s w o buf := by
  obtain ⟨ha, -⟩ := runBus_next h
  rw [runBus_eq s w o buf op ha hop] at h
  exact ⟨ha, (Host.Outcome.next.inj h).symm⟩

/-! ### The request words (R112 to R114) -/

theorem requestLoad_word (c : BitVec 16) : requestLoad c.toNat = 0x0200000000000000#64 ||| (c.setWidth 64 <<< 31) := by
  rw [requestLoad, pack_eq_append]
  apply BitVec.eq_of_getLsbD_eq
  intro i hi
  simp only [BitVec.getLsbD_or, BitVec.getLsbD_append, BitVec.getLsbD_shiftLeft, BitVec.getLsbD_setWidth,
    BitVec.ofNat_toNat]
  interval_cases i <;> simp

theorem requestRead_word (f : BitVec 16) : requestRead f.toNat = 0x0300000000000000#64 ||| (f.setWidth 64 <<< 15) := by
  rw [requestRead, pack_eq_append]
  apply BitVec.eq_of_getLsbD_eq
  intro i hi
  simp only [BitVec.getLsbD_or, BitVec.getLsbD_append, BitVec.getLsbD_shiftLeft, BitVec.getLsbD_setWidth,
    BitVec.ofNat_toNat]
  interval_cases i <;> simp

theorem requestWrite_word (f : BitVec 16) : requestWrite f.toNat = 0x0400000000000000#64 ||| (f.setWidth 64 <<< 15) := by
  rw [requestWrite, pack_eq_append]
  apply BitVec.eq_of_getLsbD_eq
  intro i hi
  simp only [BitVec.getLsbD_or, BitVec.getLsbD_append, BitVec.getLsbD_shiftLeft, BitVec.getLsbD_setWidth,
    BitVec.ofNat_toNat]
  interval_cases i <;> simp

/-! ### Command by command -/

variable {s t : State}

theorem initSystem_next (h : exec .initSystem s = .next t) : t = afterTransfer s requestInit none s.scratch :=
  (runBus_next_eq s.scratch rfl (by simpa only [exec, execInitSystem] using h)).2

theorem zeroCartridge_next (h : exec .zeroCartridge s = .next t) :
    Ready s .zeroCartridge ∧ t = afterTransfer s requestZero none s.scratch :=
  have h := runBus_next_eq s.scratch rfl (by simpa only [exec, execZeroCartridge] using h)
  ⟨(accepts_iff_ready s _ _ _ (serve_zero_iff _)).mp h.1, h.2⟩

theorem loadCartridge_next {c : BitVec 16} (h : exec (.loadCartridge c) s = .next t) :
    Ready s (.loadCartridge c) ∧ t = afterTransfer s (requestLoad c.toNat) none s.scratch :=
  have h := runBus_next_eq s.scratch rfl (by simpa only [exec, execLoadCartridge] using h)
  ⟨(accepts_iff_ready s _ _ _ (serve_load_iff _ _)).mp h.1, h.2⟩

theorem readFrame_next {f : BitVec 16} (h : exec (.readFrame f) s = .next t) :
    Ready s (.readFrame f) ∧ t = afterTransfer s (requestRead f.toNat) (some s.scratch)
      (s.bus.xfer (requestRead f.toNat) (some s.scratch)).1.data :=
  have h := runBus_next_eq _ rfl (by simpa only [exec, execReadFrame] using h)
  ⟨(accepts_iff_ready s _ _ _ (serve_read_iff _ _ _)).mp h.1, h.2⟩

theorem writeFrame_next {f : BitVec 16} (h : exec (.writeFrame f) s = .next t) :
    Ready s (.writeFrame f) ∧ t = afterTransfer s (requestWrite f.toNat) (some s.scratch) s.scratch :=
  have h := runBus_next_eq s.scratch rfl (by simpa only [exec, execWriteFrame] using h)
  ⟨(accepts_iff_ready s _ _ _ (serve_write_iff _ _ _)).mp h.1, h.2⟩

theorem busPowerOff_next (h : exec .busPowerOff s = .next t) : t = afterTransfer s requestOff none s.scratch :=
  (runBus_next_eq s.scratch rfl (by simpa only [exec, execBusPowerOff] using h)).2

/-- Every bus command that answers a next state has left the state after one transfer. -/
theorem bus_next {i : Instr} (hi : isBusCommand i = true) (h : exec i s = .next t) :
    ∃ w o buf, t = afterTransfer s w o buf := by
  cases i with
  | initSystem => exact ⟨_, _, _, initSystem_next h⟩
  | zeroCartridge => exact ⟨_, _, _, (zeroCartridge_next h).2⟩
  | loadCartridge c => exact ⟨_, _, _, (loadCartridge_next h).2⟩
  | readFrame f => exact ⟨_, _, _, (readFrame_next h).2⟩
  | writeFrame f => exact ⟨_, _, _, (writeFrame_next h).2⟩
  | busPowerOff => exact ⟨_, _, _, busPowerOff_next h⟩
  | powerOn => cases hi
  | powerOff => cases hi
  | openFile p => cases hi
  | close h => cases hi
  | read h n => cases hi
  | write h d => cases hi
  | seek h o => cases hi
  | reserved7 => cases hi

/-- An instruction that answers a next state is a host command or a bus command. -/
theorem next_kind {i : Instr} (h : exec i s = .next t) : isHostCommand i = true ∨ isBusCommand i = true := by
  cases i <;> first | exact .inl rfl | exact .inr rfl | exact absurd h (by simp [exec, execReserved7])

end Sys2Proof.Machine
end

