-- ==== Sys2Proof/Laws/Loops.lean ====
section
/-! SUPPORT. The loops of the engine and of the allocator, each with everything it can do: read, write, allocation,
and the cartridge loop of powerOn. -/

namespace Sys2Proof.Machine

/-! ### Chunks (R149) -/

theorem chunkSize_pos {r : FileRecord} {rem : Nat} (h : rem ≠ 0) : 0 < chunkSize r rem := by
  simp only [chunkSize, offsetAtCursor]; omega

theorem chunkSize_le (r : FileRecord) (rem : Nat) : chunkSize r rem ≤ rem := by
  simp only [chunkSize]; omega

theorem chunkSize_inside (r : FileRecord) (rem : Nat) : offsetAtCursor r + chunkSize r rem ≤ 1024 := by
  simp only [chunkSize, offsetAtCursor]; omega

/-- Either the chunk is the last, or it ends at the end of its frame. -/
theorem chunkSize_cases (r : FileRecord) (rem : Nat) :
    chunkSize r rem = rem ∨ (r.cursor + chunkSize r rem = (r.cursor / 1024 + 1) * 1024 ∧
      offsetAtCursor r + chunkSize r rem = 1024) := by
  simp only [chunkSize, offsetAtCursor]; omega

@[simp] theorem iterations_zero (c : Nat) : iterations c 0 = 0 := rfl

theorem iterations_step (r : FileRecord) {rem : Nat} (h : rem ≠ 0) :
    iterations r.cursor rem = iterations (r.cursor + chunkSize r rem) (rem - chunkSize r rem) + 1 := by
  rcases chunkSize_cases r rem with hk | ⟨hk, -⟩
  · rw [hk, Nat.sub_self, iterations_zero]
    have hin := chunkSize_inside r rem
    rw [hk] at hin
    simp only [offsetAtCursor] at hin
    simp only [iterations, if_neg h]
    omega
  · rw [hk]
    have hle := chunkSize_le r rem
    by_cases h0 : rem - chunkSize r rem = 0
    · rw [h0]
      simp only [iterations, if_neg h, if_true]
      omega
    · simp only [iterations, if_neg h, if_neg h0]
      omega

@[simp] theorem framesTouched_zero (r : FileRecord) : framesTouched r 0 = [] := rfl

/-- The frames a transfer touches: the cursor's, then those of the rest of the transfer. -/
theorem framesTouched_step (r : FileRecord) {rem : Nat} (h : rem ≠ 0) :
    framesTouched r rem = frameAtCursor r ::
      framesTouched { r with cursor := r.cursor + chunkSize r rem } (rem - chunkSize r rem) := by
  unfold framesTouched
  rw [iterations_step r h, List.range_succ_eq_map, List.map_cons, List.map_map]
  congr 1
  rcases chunkSize_cases r rem with hk | ⟨hk, -⟩
  · rw [hk, Nat.sub_self]; rfl
  · refine List.map_congr_left fun j _ => ?_
    simp only [Function.comp, hk]
    congr 1
    omega

theorem framesTouched_congr {r r' : FileRecord} (hf : r'.frames = r.frames) (hc : r'.cursor = r.cursor) (n : Nat) :
    framesTouched r' n = framesTouched r n := by
  simp only [framesTouched, hf, hc]

theorem cursorAfter_zero (c : Nat) : cursorAfter c 0 = c := rfl

theorem cursorAfter_succ {c k : Nat} (hk : c + k = (c / 1024 + 1) * 1024) (m : Nat) :
    cursorAfter (c + k) m = cursorAfter c (m + 1) := by
  rw [hk]
  have hne : ¬ m + 1 = 0 := by omega
  simp only [cursorAfter, if_neg hne]
  split <;> omega

/-! ### Traces -/

@[simp] theorem allOk_nil : allOk [] = true := rfl
@[simp] theorem allOk_cons (e : Event) (tr : List Event) : allOk (e :: tr) = (!failed e.resp && allOk tr) := rfl
@[simp] theorem allOk_append (tr tr' : List Event) : allOk (tr ++ tr') = (allOk tr && allOk tr') := by
  simp [allOk, List.all_append]

theorem stopsAtFailure_single {e : Event} (h : failed e.resp = true) : StopsAtFailure [e] := ⟨[], e, rfl, rfl, h⟩

theorem stopsAtFailure_append {pre tr : List Event} (hp : allOk pre = true) (h : StopsAtFailure tr) :
    StopsAtFailure (pre ++ tr) := by
  obtain ⟨q, e, rfl, hq, he⟩ := h
  exact ⟨pre ++ q, e, by rw [List.append_assoc], by simp [hp, hq], he⟩

theorem StopsAtFailure.not_allOk {tr : List Event} (h : StopsAtFailure tr) : allOk tr = false := by
  obtain ⟨q, e, rfl, -, he⟩ := h
  simp [he]

@[simp] theorem fetchedBytes_nil : fetchedBytes [] = [] := rfl
@[simp] theorem fetchedBytes_cons_none {e : Event} (h : e.inp = none) (tr : List Event) :
    fetchedBytes (e :: tr) = fetchedBytes tr := by simp [fetchedBytes, h]
@[simp] theorem fetchedBytes_cons_some {e : Event} {b : Frame} (h : e.inp = some b) (tr : List Event) :
    fetchedBytes (e :: tr) = b.bytes ++ fetchedBytes tr := by simp [fetchedBytes, h]

@[simp] theorem sentBytes_nil : sentBytes [] = [] := rfl
theorem sentBytes_cons_other {e : Event} (h : opcodeOf e.cmd ≠ 4) (tr : List Event) :
    sentBytes (e :: tr) = sentBytes tr := by simp [sentBytes, h]
theorem sentBytes_cons_write {e : Event} {b : Frame} (h : opcodeOf e.cmd = 4) (ho : e.out = some b) (tr : List Event) :
    sentBytes (e :: tr) = b.bytes ++ sentBytes tr := by simp [sentBytes, h, ho]

/-! ### Advancing a cursor -/

theorem record_advanceCursor (h k j : Nat) (s : State) :
    (advanceCursor h k s).record j =
      if j = h then { s.record h with cursor := (s.record h).cursor + k } else s.record j := record_setCursor _ _ _ _

/-- `t` differs from `s` at most in `scratch`, the bus side and the cursor of `h`. -/
structure OnlyCursor (h : Nat) (s t : State) : Prop where
  cfg : t.cfg = s.cfg
  powered : t.powered = s.powered
  nextFree : t.nextFree = s.nextFree
  nFiles : t.nFiles = s.nFiles
  ft : t.ft = tableSet s.ft h { s.record h with cursor := (t.record h).cursor } ∨ t.ft = s.ft
  seq : t.seq = s.seq
  pending : t.pending = s.pending
  result : t.result = s.result

theorem OnlyCursor.record_self {h : Nat} {s t : State} (hc : OnlyCursor h s t) :
    t.record h = { s.record h with cursor := (t.record h).cursor } := by
  rcases hc.ft with hf | hf
  · have h1 : t.record h = tableGet t.ft h := rfl
    rw [hf, tableGet_tableSet_self] at h1
    exact h1
  · rw [record_congr h hf]

theorem OnlyCursor.record_other {h : Nat} {s t : State} (hc : OnlyCursor h s t) {j : Nat} (hj : j ≠ h) :
    t.record j = s.record j := by
  rcases hc.ft with hf | hf
  · have h1 : t.record j = tableGet t.ft j := rfl
    rw [hf, tableGet_tableSet_ne _ _ hj] at h1
    exact h1
  · exact record_congr j hf

theorem OnlyCursor.of_onlyBus {s t : State} (h : Nat) (hb : OnlyBus s t) : OnlyCursor h s t :=
  ⟨hb.cfg, hb.powered, hb.nextFree, hb.nFiles, Or.inr hb.ft, hb.seq, hb.pending, hb.result⟩

/-- A transfer, an advance of the cursor, then more of the same kind. -/
theorem OnlyCursor.step {h k : Nat} {s t u : State} (hb : OnlyBus s t) (hc : OnlyCursor h (advanceCursor h k t) u) :
    OnlyCursor h s u := by
  refine ⟨hc.cfg.trans hb.cfg, hc.powered.trans hb.powered, hc.nextFree.trans hb.nextFree,
    hc.nFiles.trans hb.nFiles, Or.inl ?_, hc.seq.trans hb.seq, hc.pending.trans hb.pending,
    hc.result.trans hb.result⟩
  have hself := hc.record_self
  have hadv : (advanceCursor h k t).record h = { s.record h with cursor := (s.record h).cursor + k } := by
    rw [record_advanceCursor, if_pos rfl, hb.record]
  have hft : (advanceCursor h k t).ft = tableSet s.ft h { s.record h with cursor := (s.record h).cursor + k } := by
    show tableSet t.ft h _ = _
    rw [hb.ft, hb.record]
  rcases hc.ft with hf | hf
  · rw [hf, hft, hadv, tableSet_tableSet]
  · rw [hf, hft, record_congr h hf, hadv]

/-! ### The loop of read (R140 to R142) -/

theorem slice_chunk_length (b : Frame) (r : FileRecord) (rem : Nat) :
    (slice b (offsetAtCursor r) (chunkSize r rem)).length = chunkSize r rem := by
  rw [slice_length]
  have := chunkSize_inside r rem
  omega

/-- The bytes of one chunk and of the rest are the bytes of the whole, out of the buffers fetched. -/
theorem gathered_step (b : Frame) (F : List Byte) (r : FileRecord) {rem : Nat}
    (hF : rem - chunkSize r rem = 0 → F = []) :
    slice b (offsetAtCursor r) (chunkSize r rem) ++
        (F.drop ((r.cursor + chunkSize r rem) % 1024)).take (rem - chunkSize r rem) =
      ((b.bytes ++ F).drop (r.cursor % 1024)).take rem := by
  have hb := b.size
  have hle := chunkSize_le r rem
  rcases chunkSize_cases r rem with hk | ⟨hk, hoff⟩
  · rw [hF (by omega), hk]
    simp [slice, offsetAtCursor]
  · have hmod : (r.cursor + chunkSize r rem) % 1024 = 0 := by rw [hk]; omega
    have hoff' : r.cursor % 1024 + chunkSize r rem = 1024 := hoff
    have hlt : r.cursor % 1024 ≤ b.bytes.length := by omega
    have hlen : (b.bytes.drop (r.cursor % 1024)).length = chunkSize r rem := by
      rw [List.length_drop]; omega
    rw [hmod, List.drop_zero, List.drop_append_of_le_length hlt, List.take_append, hlen,
      List.take_of_length_le (l := b.bytes.drop (r.cursor % 1024)) (by omega)]
    simp only [slice, offsetAtCursor]
    rw [List.take_of_length_le (l := b.bytes.drop (r.cursor % 1024)) (by omega)]

/-- Everything the loop of read can do: all its transfers succeed and it delivers the bytes asked for, or one fails,
nothing follows it, and the cursor stands after the iterations completed. -/
theorem readLoop_cases (fuel h : Nat) : ∀ (rem : Nat) (out : List Byte) (s : State), rem ≤ fuel →
    ∃ t tr, OnlyCursor h s t ∧ t.bus.mem = s.bus.mem ∧ t.bus.isOracle = s.bus.isOracle ∧
      t.bus.trace = s.bus.trace ++ tr ∧
      ((allOk tr = true ∧ tr.map (fun e => e.cmd) = readRequests (framesTouched (s.record h) rem) ∧
          readLoop fuel h rem out s =
            .done (out ++ ((fetchedBytes tr).drop ((s.record h).cursor % 1024)).take rem) t ∧
          (((fetchedBytes tr).drop ((s.record h).cursor % 1024)).take rem).length = rem ∧
          (t.record h).cursor = (s.record h).cursor + rem) ∨
       (StopsAtFailure tr ∧ tr.map (fun e => e.cmd) <+: readRequests (framesTouched (s.record h) rem) ∧
          readLoop fuel h rem out s = .raised .deviceError t ∧
          (t.record h).cursor = cursorAfter (s.record h).cursor ((tr.length - 1) / 2))) := by
  induction fuel with
  | zero =>
    intro rem out s hrem
    obtain rfl : rem = 0 := by omega
    exact ⟨s, [], OnlyCursor.of_onlyBus h (OnlyBus.refl s), rfl, rfl, by simp, Or.inl ⟨rfl, rfl, by simp [readLoop], rfl, rfl⟩⟩
  | succ fuel ih =>
    intro rem out s hrem
    by_cases h0 : rem = 0
    · subst h0
      exact ⟨s, [], OnlyCursor.of_onlyBus h (OnlyBus.refl s), rfl, rfl, by simp, Or.inl ⟨rfl, rfl, by simp [readLoop], rfl, rfl⟩⟩
    · have hstep : readLoop (fuel + 1) h rem out s =
          (frameFetch (frameAtCursor (s.record h)) s).bind (fun _ t =>
            readLoop fuel h (rem - chunkSize (t.record h) rem) (out ++ chunkRead h rem t)
              (advanceCursor h (chunkSize (t.record h) rem) t)) := by
        simp [readLoop, h0]
      have htouch := framesTouched_step (s.record h) h0
      obtain ⟨t, hob, hmem, hor, hcase⟩ := frameFetch_cases (frameAtCursor (s.record h)) s
      rcases hcase with ⟨e, hr, htr, hcmd, hinp, hfail⟩ | ⟨e₁, e₂, htr, hc₁, hi₁, hok₁, hc₂, hi₂, hat, hcase⟩
      · refine ⟨t, [e], OnlyCursor.of_onlyBus h hob, hmem, hor, htr, Or.inr ⟨stopsAtFailure_single hfail, ?_, ?_, ?_⟩⟩
        · rw [htouch]; simp [readRequests, hcmd]
        · rw [hstep, hr, bind_raised]
        · rw [hob.record]; simp [cursorAfter]
      · rcases hcase with ⟨hfail, hr⟩ | ⟨hok₂, hr⟩
        · refine ⟨t, [e₁, e₂], OnlyCursor.of_onlyBus h hob, hmem, hor, htr,
            Or.inr ⟨stopsAtFailure_append (pre := [e₁]) (by simp [hok₁]) (stopsAtFailure_single hfail), ?_, ?_, ?_⟩⟩
          · rw [htouch]; simp [readRequests, hc₁, hc₂]
          · rw [hstep, hr, bind_raised]
          · rw [hob.record]; simp [cursorAfter]
        · have hrec : t.record h = s.record h := hob.record h
          have hkpos := chunkSize_pos (r := s.record h) h0
          have hkle := chunkSize_le (s.record h) rem
          obtain ⟨u, tr, hoc, hmem', hor', htr', hcase'⟩ := ih (rem - chunkSize (s.record h) rem)
            (out ++ chunkRead h rem t) (advanceCursor h (chunkSize (s.record h) rem) t) (by omega)
          have hadv : (advanceCursor h (chunkSize (s.record h) rem) t).record h =
              { s.record h with cursor := (s.record h).cursor + chunkSize (s.record h) rem } := by
            rw [record_advanceCursor, if_pos rfl, hrec]
          rw [hadv] at hcase'
          have htrace : u.bus.trace = s.bus.trace ++ (e₁ :: e₂ :: tr) := by
            rw [htr']
            show t.bus.trace ++ tr = _
            rw [htr, List.append_assoc]; rfl
          have hfetched : fetchedBytes (e₁ :: e₂ :: tr) = t.scratch.bytes ++ fetchedBytes tr := by
            rw [fetchedBytes_cons_none hi₁, fetchedBytes_cons_some hi₂]
          have hgo : readLoop (fuel + 1) h rem out s = readLoop fuel h (rem - chunkSize (s.record h) rem)
              (out ++ chunkRead h rem t) (advanceCursor h (chunkSize (s.record h) rem) t) := by
            rw [hstep, hr, bind_done, hrec]
          refine ⟨u, e₁ :: e₂ :: tr, OnlyCursor.step hob hoc, hmem'.trans hmem, hor'.trans hor, htrace, ?_⟩
          rcases hcase' with ⟨hall, hcmds, hres, hlen, hcur⟩ | ⟨hstop, hcmds, hres, hcur⟩
          · left
            have hF : rem - chunkSize (s.record h) rem = 0 → fetchedBytes tr = [] := by
              intro hz
              rw [hz] at hcmds
              have : tr = [] := by simpa [readRequests] using hcmds
              rw [this]; rfl
            have hg := gathered_step t.scratch (fetchedBytes tr) (s.record h) hF
            refine ⟨by simp [hok₁, hok₂, hall], ?_, ?_, ?_, ?_⟩
            · rw [htouch]
              simp only [List.map_cons, hc₁, hc₂, hcmds]
              simp [readRequests]
            · rw [hgo, hres, hfetched, List.append_assoc]
              congr 2
              rw [← hg]
              simp only [chunkRead, hrec]
            · rw [hfetched, ← hg, List.length_append, slice_chunk_length, hlen]
              omega
            · rw [hcur]
              show (s.record h).cursor + chunkSize (s.record h) rem + (rem - chunkSize (s.record h) rem) = _
              omega
          · right
            refine ⟨stopsAtFailure_append (pre := [e₁, e₂]) (by simp [hok₁, hok₂]) hstop, ?_, by rw [hgo, hres], ?_⟩
            · rw [htouch]
              obtain ⟨rest, hrest⟩ := hcmds
              refine ⟨rest, ?_⟩
              simp only [List.map_cons, hc₁, hc₂]
              simp [readRequests] at hrest ⊢
              exact hrest
            · have hne : tr ≠ [] := by
                obtain ⟨q, e, rfl, -, -⟩ := hstop
                simp
              have hpos : 0 < tr.length := List.length_pos_iff.mpr hne
              have hmore : ¬ chunkSize (s.record h) rem = rem := by
                intro hk
                rw [hk, Nat.sub_self] at hcmds
                obtain ⟨rest, hrest⟩ := hcmds
                simp [readRequests] at hrest
                exact hne hrest.1
              obtain ⟨hend, -⟩ := (chunkSize_cases (s.record h) rem).resolve_left hmore
              rw [hcur]
              show cursorAfter ((s.record h).cursor + chunkSize (s.record h) rem) _ = _
              rw [cursorAfter_succ hend]
              congr 1
              simp only [List.length_cons]
              omega

/-! ### The loop of write (R143, R144, R146) -/

/-- The buffer one iteration of write sends, put before those of the rest: the input in place over the bytes fetched. -/
theorem sent_step (b : Frame) (F S rest : List Byte) (r : FileRecord)
    (hS : S = F.take ((r.cursor + chunkSize r rest.length) % 1024) ++ rest.drop (chunkSize r rest.length) ++
      F.drop ((r.cursor + chunkSize r rest.length) % 1024 + (rest.drop (chunkSize r rest.length)).length))
    (hF : (rest.drop (chunkSize r rest.length)).length = 0 → F = []) :
    (overwrite b (offsetAtCursor r) (rest.take (chunkSize r rest.length))).bytes ++ S =
      (b.bytes ++ F).take (r.cursor % 1024) ++ rest ++ (b.bytes ++ F).drop (r.cursor % 1024 + rest.length) := by
  have hb := b.size
  have hin := chunkSize_inside r rest.length
  have hkle := chunkSize_le r rest.length
  have hoff : offsetAtCursor r = r.cursor % 1024 := rfl
  have hlt : r.cursor % 1024 ≤ b.bytes.length := by omega
  have hchunk : (rest.take (chunkSize r rest.length)).length = chunkSize r rest.length := by
    rw [List.length_take]; omega
  have htake : (rest.take (chunkSize r rest.length)).take (1024 - r.cursor % 1024) =
      rest.take (chunkSize r rest.length) := List.take_of_length_le (by omega)
  rw [overwrite_bytes, hoff, htake, hchunk, List.take_append_of_le_length hlt]
  rcases chunkSize_cases r rest.length with hk | ⟨hk, hend⟩
  · have hnil : rest.drop (chunkSize r rest.length) = [] := List.drop_eq_nil_iff.mpr (by omega)
    have hF' := hF (by rw [hnil]; rfl)
    rw [hnil, hF'] at hS
    simp only [List.take_nil, List.drop_nil, List.append_nil] at hS
    rw [hS, hF', hk, List.take_length]
    simp
  · rw [hoff] at hend
    have hmod : (r.cursor + chunkSize r rest.length) % 1024 = 0 := by rw [hk]; omega
    rw [hmod] at hS
    simp only [List.take_zero, List.nil_append, Nat.zero_add] at hS
    have hdrop : b.bytes.drop (r.cursor % 1024 + chunkSize r rest.length) = [] :=
      List.drop_eq_nil_iff.mpr (by omega)
    have hlen : (rest.drop (chunkSize r rest.length)).length = rest.length - chunkSize r rest.length := by
      rw [List.length_drop]
    have htail : (b.bytes ++ F).drop (r.cursor % 1024 + rest.length) =
        F.drop (rest.drop (chunkSize r rest.length)).length := by
      rw [List.drop_append, List.drop_eq_nil_iff.mpr (by omega : b.bytes.length ≤ _), List.nil_append, hlen]
      congr 1
      omega
    rw [hS, hdrop, htail, List.append_nil]
    simp only [List.append_assoc]
    rw [← List.append_assoc (rest.take _) (rest.drop _), List.take_append_drop]

theorem onlyBus_modify (h : Nat) (rest : List Byte) (s : State) : OnlyBus s (modifyScratch h rest s) :=
  OnlyBus.setScratch s _

/-- Everything the loop of write can do: all its transfers succeed and the buffers sent hold the input in place over
the bytes fetched, or one fails, nothing follows it, and the cursor stands after the iterations completed. No byte of
the device outside the frames touched changes. -/
theorem writeLoop_cases (fuel h : Nat) : ∀ (rest : List Byte) (s : State), rest.length ≤ fuel →
    ∃ t tr, OnlyCursor h s t ∧ t.bus.isOracle = s.bus.isOracle ∧ t.bus.trace = s.bus.trace ++ tr ∧
      DeviceSameOutside (framesTouched (s.record h) rest.length) s t ∧
      ((allOk tr = true ∧ tr.map (fun e => e.cmd) = writeRequests (framesTouched (s.record h) rest.length) ∧
          writeLoop fuel h rest s = .done () t ∧
          sentBytes tr = (fetchedBytes tr).take ((s.record h).cursor % 1024) ++ rest ++
            (fetchedBytes tr).drop ((s.record h).cursor % 1024 + rest.length) ∧
          (t.record h).cursor = (s.record h).cursor + rest.length) ∨
       (StopsAtFailure tr ∧ tr.map (fun e => e.cmd) <+: writeRequests (framesTouched (s.record h) rest.length) ∧
          writeLoop fuel h rest s = .raised .deviceError t ∧
          (t.record h).cursor = cursorAfter (s.record h).cursor ((tr.length - 1) / 3))) := by
  induction fuel with
  | zero =>
    intro rest s hrem
    obtain rfl : rest = [] := List.length_eq_zero_iff.mp (by omega)
    exact ⟨s, [], OnlyCursor.of_onlyBus h (OnlyBus.refl s), rfl, by simp, fun _ _ => rfl,
      Or.inl ⟨rfl, rfl, rfl, by simp, rfl⟩⟩
  | succ fuel ih =>
    intro rest s hrem
    by_cases h0 : rest.length = 0
    · obtain rfl : rest = [] := List.length_eq_zero_iff.mp h0
      exact ⟨s, [], OnlyCursor.of_onlyBus h (OnlyBus.refl s), rfl, by simp, fun _ _ => rfl,
        Or.inl ⟨rfl, rfl, by simp [writeLoop], by simp, rfl⟩⟩
    · have hstep : writeLoop (fuel + 1) h rest s =
          (frameFetch (frameAtCursor (s.record h)) s).bind (fun _ t =>
            (frameStore (frameAtCursor (t.record h)).frame (modifyScratch h rest t)).bind (fun _ u =>
              writeLoop fuel h (rest.drop (chunkSize (u.record h) rest.length))
                (advanceCursor h (chunkSize (u.record h) rest.length) u))) := by
        simp only [writeLoop, if_neg h0]
      have htouch := framesTouched_step (s.record h) h0
      obtain ⟨t, hob, hmem, hor, hcase⟩ := frameFetch_cases (frameAtCursor (s.record h)) s
      rcases hcase with ⟨e, hr, htr, hcmd, hinp, hfail⟩ | ⟨e₁, e₂, htr, hc₁, hi₁, hok₁, hc₂, hi₂, hat, hcase⟩
      · refine ⟨t, [e], OnlyCursor.of_onlyBus h hob, hor, htr, fun x _ => by rw [hmem],
          Or.inr ⟨stopsAtFailure_single hfail, ?_, ?_, ?_⟩⟩
        · rw [htouch]; simp [writeRequests, hcmd]
        · rw [hstep, hr, bind_raised]
        · rw [hob.record]; simp [cursorAfter]
      · rcases hcase with ⟨hfail, hr⟩ | ⟨hok₂, hr⟩
        · refine ⟨t, [e₁, e₂], OnlyCursor.of_onlyBus h hob, hor, htr, fun x _ => by rw [hmem],
            Or.inr ⟨stopsAtFailure_append (pre := [e₁]) (by simp [hok₁]) (stopsAtFailure_single hfail), ?_, ?_, ?_⟩⟩
          · rw [htouch]; simp [writeRequests, hc₁, hc₂]
          · rw [hstep, hr, bind_raised]
          · rw [hob.record]; simp [cursorAfter]
        · have hrec : t.record h = s.record h := hob.record h
          have hat' : (modifyScratch h rest t).bus.hasMounted (frameAtCursor (s.record h)).cart := hat
          obtain ⟨u, e₃, hob₃, hscr, hor₃, htr₃, hc₃, ho₃, hi₃, hdev₃, hcase₃⟩ :=
            frameStore_cases (frameAtCursor (s.record h)).frame hat'
          have hob₂ : OnlyBus s u := hob.trans ((onlyBus_modify h rest t).trans hob₃)
          have hrec₂ : u.record h = s.record h := hob₂.record h
          have htr' : u.bus.trace = s.bus.trace ++ [e₁, e₂, e₃] := by
            rw [htr₃]
            show t.bus.trace ++ [e₃] = _
            rw [htr, List.append_assoc]; rfl
          have hdev : DeviceSameOutside [frameAtCursor (s.record h)] s u := by
            intro x hx
            rw [hdev₃ x (hx _ (by simp))]
            show t.bus.mem.read x = _
            rw [hmem]
          have hor' : u.bus.isOracle = s.bus.isOracle := hor₃.trans hor
          rcases hcase₃ with ⟨hfail, hr₃⟩ | ⟨hok₃, hr₃⟩
          · refine ⟨u, [e₁, e₂, e₃], OnlyCursor.of_onlyBus h hob₂, hor', htr',
              fun x hx => hdev x (fun a ha => hx a (by rw [htouch]; simp at ha; simp [ha])),
              Or.inr ⟨stopsAtFailure_append (pre := [e₁, e₂]) (by simp [hok₁, hok₂]) (stopsAtFailure_single hfail),
                ?_, ?_, ?_⟩⟩
            · rw [htouch]; simp [writeRequests, hc₁, hc₂, hc₃]
            · rw [hstep, hr, bind_done, hrec, hr₃, bind_raised]
            · rw [hrec₂]; simp [cursorAfter]
          · have hkpos := chunkSize_pos (r := s.record h) h0
            have hkle := chunkSize_le (s.record h) rest.length
            have hdl : (rest.drop (chunkSize (s.record h) rest.length)).length =
                rest.length - chunkSize (s.record h) rest.length := List.length_drop
            obtain ⟨v, tr, hoc, hor'', htr'', hdev'', hcase'⟩ :=
              ih (rest.drop (chunkSize (s.record h) rest.length))
                (advanceCursor h (chunkSize (s.record h) rest.length) u) (by omega)
            have hadv : (advanceCursor h (chunkSize (s.record h) rest.length) u).record h =
                { s.record h with cursor := (s.record h).cursor + chunkSize (s.record h) rest.length } := by
              rw [record_advanceCursor, if_pos rfl, hrec₂]
            rw [hadv, hdl] at hdev''
            rw [hadv] at hcase'
            have htrace : v.bus.trace = s.bus.trace ++ (e₁ :: e₂ :: e₃ :: tr) := by
              rw [htr'']
              show u.bus.trace ++ tr = _
              rw [htr', List.append_assoc]; rfl
            have hfetched : fetchedBytes (e₁ :: e₂ :: e₃ :: tr) = t.scratch.bytes ++ fetchedBytes tr := by
              rw [fetchedBytes_cons_none hi₁, fetchedBytes_cons_some hi₂, fetchedBytes_cons_none hi₃]
            have hsent : sentBytes (e₁ :: e₂ :: e₃ :: tr) =
                (overwrite t.scratch (offsetAtCursor (s.record h))
                  (rest.take (chunkSize (s.record h) rest.length))).bytes ++ sentBytes tr := by
              rw [sentBytes_cons_other (by rw [hc₁]; simp), sentBytes_cons_other (by rw [hc₂]; simp),
                sentBytes_cons_write (by rw [hc₃]; simp) ho₃]
              simp only [modifyScratch, hrec, setScratch_scratch]
            have hgo : writeLoop (fuel + 1) h rest s = writeLoop fuel h
                (rest.drop (chunkSize (s.record h) rest.length))
                (advanceCursor h (chunkSize (s.record h) rest.length) u) := by
              rw [hstep, hr, bind_done, hrec, hr₃, bind_done, hrec₂]
            refine ⟨v, e₁ :: e₂ :: e₃ :: tr, OnlyCursor.step hob₂ hoc, hor''.trans hor', htrace, ?_, ?_⟩
            · intro x hx
              rw [htouch] at hx
              rw [hdev'' x (fun a ha => hx a (List.mem_cons_of_mem _ ha))]
              exact hdev x (fun a ha => hx a (by simp at ha; simp [ha]))
            · rcases hcase' with ⟨hall, hcmds, hres, hsb, hcur⟩ | ⟨hstop, hcmds, hres, hcur⟩
              · left
                rw [hdl] at hcmds
                have hF : (rest.drop (chunkSize (s.record h) rest.length)).length = 0 → fetchedBytes tr = [] := by
                  intro hz
                  rw [hdl] at hz
                  rw [hz] at hcmds
                  have : tr = [] := by simpa [writeRequests] using hcmds
                  rw [this]; rfl
                refine ⟨by simp [hok₁, hok₂, hok₃, hall], ?_, by rw [hgo, hres], ?_, ?_⟩
                · rw [htouch]
                  simp only [List.map_cons, hc₁, hc₂, hc₃, hcmds]
                  simp [writeRequests]
                · rw [hsent, hfetched]
                  exact sent_step t.scratch (fetchedBytes tr) (sentBytes tr) rest (s.record h) hsb hF
                · rw [hcur, hdl]
                  show (s.record h).cursor + chunkSize (s.record h) rest.length +
                    (rest.length - chunkSize (s.record h) rest.length) = _
                  omega
              · right
                rw [hdl] at hcmds
                refine ⟨stopsAtFailure_append (pre := [e₁, e₂, e₃]) (by simp [hok₁, hok₂, hok₃]) hstop, ?_,
                  by rw [hgo, hres], ?_⟩
                · rw [htouch]
                  obtain ⟨more, hmore⟩ := hcmds
                  refine ⟨more, ?_⟩
                  simp only [List.map_cons, hc₁, hc₂, hc₃]
                  simp [writeRequests] at hmore ⊢
                  exact hmore
                · have hne : tr ≠ [] := by
                    obtain ⟨q, e, rfl, -, -⟩ := hstop
                    simp
                  have hpos : 0 < tr.length := List.length_pos_iff.mpr hne
                  have hmore : ¬ chunkSize (s.record h) rest.length = rest.length := by
                    intro hk
                    rw [hk, Nat.sub_self] at hcmds
                    obtain ⟨more, hm⟩ := hcmds
                    simp [writeRequests] at hm
                    exact hne hm.1
                  obtain ⟨hend, -⟩ := (chunkSize_cases (s.record h) rest.length).resolve_left hmore
                  rw [hcur]
                  show cursorAfter ((s.record h).cursor + chunkSize (s.record h) rest.length) _ = _
                  rw [cursorAfter_succ hend]
                  congr 1
                  simp only [List.length_cons]
                  omega

/-! ### The allocation loop of write (R143, R145) -/

/-- `t` differs from `s` at most in `next_free` and in the frame list of `h`, which `extra` was appended to. -/
structure OnlyFrames (h : Nat) (extra : List FrameAddress) (s t : State) : Prop where
  cfg : t.cfg = s.cfg
  powered : t.powered = s.powered
  nFiles : t.nFiles = s.nFiles
  ft : t.ft = tableSet s.ft h { s.record h with frames := (s.record h).frames ++ extra } ∨ (extra = [] ∧ t.ft = s.ft)
  scratch : t.scratch = s.scratch
  seq : t.seq = s.seq
  pending : t.pending = s.pending
  result : t.result = s.result
  bus : t.bus = s.bus

theorem OnlyFrames.record_self {h : Nat} {extra : List FrameAddress} {s t : State} (ho : OnlyFrames h extra s t) :
    t.record h = { s.record h with frames := (s.record h).frames ++ extra } := by
  rcases ho.ft with hf | ⟨rfl, hf⟩
  · have h1 : t.record h = tableGet t.ft h := rfl
    rw [h1, hf, tableGet_tableSet_self]
  · rw [record_congr h hf, List.append_nil]

theorem OnlyFrames.record_other {h : Nat} {extra : List FrameAddress} {s t : State} (ho : OnlyFrames h extra s t)
    {j : Nat} (hj : j ≠ h) : t.record j = s.record j := by
  rcases ho.ft with hf | ⟨-, hf⟩
  · have h1 : t.record j = tableGet t.ft j := rfl
    rw [h1, hf, tableGet_tableSet_ne _ _ hj]; rfl
  · exact record_congr j hf

@[simp] theorem nextAddresses_zero (n : Nat) : nextAddresses n 0 = [] := rfl

theorem nextAddresses_succ (n m : Nat) : nextAddresses n (m + 1) = lowestFree n :: nextAddresses (n + 1) m := by
  unfold nextAddresses
  rw [List.range_succ_eq_map, List.map_cons, List.map_map]
  refine congrArg₂ _ rfl (List.map_congr_left fun j _ => ?_)
  simp only [Function.comp]
  congr 1
  omega

/-- Everything the allocation loop can do: all `n` frames are appended, or the pool runs out after those left. -/
theorem allocFrames_cases (h : Nat) : ∀ (n : Nat) (s : State),
    (s.nextFree.val + n ≤ 65536 ∧ ∃ t, allocFrames h n s = .done () t ∧ t.nextFree.val = s.nextFree.val + n ∧
        OnlyFrames h (nextAddresses s.nextFree.val n) s t) ∨
    (65536 < s.nextFree.val + n ∧ ∃ t, allocFrames h n s = .raised .deviceFull t ∧ t.nextFree.val = 65536 ∧
        OnlyFrames h (nextAddresses s.nextFree.val (65536 - s.nextFree.val)) s t) := by
  intro n
  induction n with
  | zero =>
    intro s
    have hb := s.nextFree.isLt
    exact Or.inl ⟨by omega, s, rfl, rfl, ⟨rfl, rfl, rfl, Or.inr ⟨rfl, rfl⟩, rfl, rfl, rfl, rfl, rfl⟩⟩
  | succ n ih =>
    intro s
    by_cases hf : s.nextFree.val < 65536
    · obtain ⟨t, hr, hn, hft, hcfg, hpow, hnf, hscr, hseq, hpend, hres, hbus⟩ := allocAppend_free h hf
      have hgo : allocFrames h (n + 1) s = allocFrames h n t := by
        show (allocAppend h s).bind _ = _
        rw [hr]; rfl
      have hrec : t.record h = { s.record h with frames := (s.record h).frames ++ [lowestFree s.nextFree.val] } := by
        have h1 : t.record h = tableGet t.ft h := rfl
        rw [h1, hft, tableGet_tableSet_self]
      have hkeep : ∀ m u, OnlyFrames h (nextAddresses t.nextFree.val m) t u →
          OnlyFrames h (nextAddresses s.nextFree.val (m + 1)) s u := by
        intro m u hu
        refine ⟨hu.cfg.trans hcfg, hu.powered.trans hpow, hu.nFiles.trans hnf, Or.inl ?_, hu.scratch.trans hscr,
          hu.seq.trans hseq, hu.pending.trans hpend, hu.result.trans hres, hu.bus.trans hbus⟩
        rw [nextAddresses_succ, ← hn]
        rcases hu.ft with hf' | ⟨he, hf'⟩
        · rw [hf', hft, hrec, tableSet_tableSet]
          simp only [List.append_assoc, List.singleton_append]
        · rw [hf', he, hft]
      rcases ih t with ⟨hle, u, hr', hn', hu⟩ | ⟨hlt, u, hr', hn', hu⟩
      · exact Or.inl ⟨by omega, u, by rw [hgo, hr'], by omega, hkeep n u hu⟩
      · refine Or.inr ⟨by omega, u, by rw [hgo, hr'], hn', ?_⟩
        have h1 : 65536 - s.nextFree.val = (65536 - t.nextFree.val) + 1 := by omega
        rw [h1]
        exact hkeep _ u hu
    · have hb := s.nextFree.isLt
      have heq : s.nextFree.val = 65536 := by omega
      refine Or.inr ⟨by omega, s, ?_, heq, ?_⟩
      · show (allocAppend h s).bind _ = _
        rw [allocAppend_full h hf]; rfl
      · rw [heq]
        exact ⟨rfl, rfl, rfl, Or.inr ⟨rfl, rfl⟩, rfl, rfl, rfl, rfl, rfl⟩

end Sys2Proof.Machine
end

