-- ==== Sys2Proof/Laws/Commands.lean ====
section
/-! SUPPORT. Each host command in two lemmas: what it answers when it may run, and, from its answering a next state,
that it could run and what that state is. -/

namespace Sys2Proof.Machine

variable {s t : State}

theorem exec_powerOn (hi : s.seq = .idle) :
    exec .powerOn s = .next (finish (endPowerOn (powerOnTransfers s.start))) := by
  simp only [exec, execPowerOn]
  rw [whenIdle_idle hi]

theorem powerOn_next (h : exec .powerOn s = .next t) :
    s.seq = .idle ∧ t = finish (endPowerOn (powerOnTransfers s.start)) := by
  obtain ⟨hi, hb⟩ := whenIdle_next (by simpa only [exec, execPowerOn] using h)
  exact ⟨hi, (Host.Outcome.next.inj hb).symm⟩

theorem exec_powerOff (hi : s.seq = .idle) (hp : s.powered = true) :
    exec .powerOff s = .next (finish (endPowerOff (busOff s.start))) := by
  simp only [exec, execPowerOff]
  rw [inSession_powered hi hp]

theorem powerOff_next (h : exec .powerOff s = .next t) :
    s.seq = .idle ∧ s.powered = true ∧ t = finish (endPowerOff (busOff s.start)) := by
  obtain ⟨hi, hp, hb⟩ := inSession_next (by simpa only [exec, execPowerOff] using h)
  exact ⟨hi, hp, (Host.Outcome.next.inj hb).symm⟩

theorem exec_open (hi : s.seq = .idle) (hp : s.powered = true) (p : Path) :
    exec (.openFile p) s = .next (finish (openPath p s.start)) := by
  simp only [exec, execOpen]
  rw [inSession_powered hi hp]

theorem open_next {p : Path} (h : exec (.openFile p) s = .next t) :
    s.seq = .idle ∧ s.powered = true ∧ t = finish (openPath p s.start) := by
  obtain ⟨hi, hp, hb⟩ := inSession_next (by simpa only [exec, execOpen] using h)
  exact ⟨hi, hp, (Host.Outcome.next.inj hb).symm⟩

theorem resolve_start (h : Nat) :
    resolve h s.start = if ¬ h < s.nFiles then .raised .invalidHandle s.start
      else if (s.record h).isOpen = false then .raised .notOpen s.start else .done () s.start := rfl

/-- The commands that take a handle: what they do with one that is unknown, closed or open (R130). -/
theorem exec_close (hi : s.seq = .idle) (hp : s.powered = true) (h : Nat) :
    exec (.close h) s =
      if ¬ h < s.nFiles then .next (s.start.reportError .invalidHandle)
      else if (s.record h).isOpen = false then .next (s.start.reportError .notOpen)
      else .next ((s.start.setOpen h false).reportSuccess .unit) := by
  simp only [exec, execClose]
  rw [inSession_powered hi hp, resolve_start]
  split
  · rfl
  · split <;> rfl

theorem exec_seek (hi : s.seq = .idle) (hp : s.powered = true) (h o : Nat) :
    exec (.seek h o) s =
      if ¬ h < s.nFiles then .next (s.start.reportError .invalidHandle)
      else if (s.record h).isOpen = false then .next (s.start.reportError .notOpen)
      else .next (finish (seekTo h o s.start)) := by
  simp only [exec, execSeek]
  rw [inSession_powered hi hp, resolve_start]
  split
  · rfl
  · split <;> rfl

theorem exec_write (hi : s.seq = .idle) (hp : s.powered = true) (h : Nat) (data : List Byte) :
    exec (.write h data) s =
      if ¬ h < s.nFiles then .next (s.start.reportError .invalidHandle)
      else if (s.record h).isOpen = false then .next (s.start.reportError .notOpen)
      else .next (finish (writeBytes h data s.start)) := by
  simp only [exec, execWrite]
  rw [inSession_powered hi hp, resolve_start]
  split
  · rfl
  · split <;> rfl

theorem exec_read (hi : s.seq = .idle) (hp : s.powered = true) (h count : Nat) :
    exec (.read h count) s =
      if ¬ h < s.nFiles then .next (s.start.reportError .invalidHandle)
      else if (s.record h).isOpen = false then .next (s.start.reportError .notOpen)
      else if covered (s.record h) (bytesToRead (s.record h) count) then
        .next (finish (readBytes h (bytesToRead (s.record h) count) s.start))
      else .fault .rangeNotCovered := by
  simp only [exec, execRead]
  rw [inSession_powered hi hp, resolve_start]
  by_cases hk : h < s.nFiles
  · by_cases ho : (s.record h).isOpen = false
    · simp only [hk, ho, not_true_eq_false, if_false, if_true]
    · simp only [if_neg ho, hk, not_true_eq_false, if_false]
      rfl
  · simp only [hk, not_false_eq_true, if_true]

theorem bytesToRead_eq (r : FileRecord) (count : Nat) : bytesToRead r count = min count (r.endPos - r.cursor) := by
  unfold bytesToRead; split <;> omega

theorem close_next {h : Nat} (hx : exec (.close h) s = .next t) : s.seq = .idle ∧ s.powered = true :=
  have hx := inSession_next (by simpa only [exec, execClose] using hx); ⟨hx.1, hx.2.1⟩

theorem seek_next {h o : Nat} (hx : exec (.seek h o) s = .next t) : s.seq = .idle ∧ s.powered = true :=
  have hx := inSession_next (by simpa only [exec, execSeek] using hx); ⟨hx.1, hx.2.1⟩

theorem read_next {h n : Nat} (hx : exec (.read h n) s = .next t) : s.seq = .idle ∧ s.powered = true :=
  have hx := inSession_next (by simpa only [exec, execRead] using hx); ⟨hx.1, hx.2.1⟩

theorem write_next {h : Nat} {data : List Byte} (hx : exec (.write h data) s = .next t) :
    s.seq = .idle ∧ s.powered = true :=
  have hx := inSession_next (by simpa only [exec, execWrite] using hx); ⟨hx.1, hx.2.1⟩

/-- What a host command that answers a next state has done, command by command: the case split that the claims over
all host commands start from. -/
theorem host_cases {i : Instr} (hi : isHostCommand i = true) (hx : exec i s = .next t) :
    s.seq = .idle ∧
    ((i = .powerOn ∧ t = finish (endPowerOn (powerOnTransfers s.start))) ∨
     (s.powered = true ∧
      ((i = .powerOff ∧ t = finish (endPowerOff (busOff s.start))) ∨
       (∃ p, i = .openFile p ∧ t = finish (openPath p s.start)) ∨
       (∃ h, ((∃ n, i = .read h n) ∨ (∃ data, i = .write h data) ∨ (∃ o, i = .seek h o) ∨ i = .close h) ∧
          ((¬ h < s.nFiles ∧ t = s.start.reportError .invalidHandle) ∨
           (h < s.nFiles ∧ (s.record h).isOpen = false ∧ t = s.start.reportError .notOpen))) ∨
       (∃ h, h < s.nFiles ∧ (s.record h).isOpen = true ∧
          ((i = .close h ∧ t = (s.start.setOpen h false).reportSuccess .unit) ∨
           (∃ o, i = .seek h o ∧ t = finish (seekTo h o s.start)) ∨
           (∃ data, i = .write h data ∧ t = finish (writeBytes h data s.start)) ∨
           (∃ n, i = .read h n ∧ covered (s.record h) (bytesToRead (s.record h) n) = true ∧
              t = finish (readBytes h (bytesToRead (s.record h) n) s.start))))))) := by
  cases i with
  | powerOn => obtain ⟨h1, h2⟩ := powerOn_next hx; exact ⟨h1, .inl ⟨rfl, h2⟩⟩
  | powerOff => obtain ⟨h1, h2, h3⟩ := powerOff_next hx; exact ⟨h1, .inr ⟨h2, .inl ⟨rfl, h3⟩⟩⟩
  | openFile p => obtain ⟨h1, h2, h3⟩ := open_next hx; exact ⟨h1, .inr ⟨h2, .inr (.inl ⟨p, rfl, h3⟩)⟩⟩
  | close h =>
    obtain ⟨h1, h2⟩ := close_next hx
    rw [exec_close h1 h2] at hx
    refine ⟨h1, .inr ⟨h2, .inr (.inr ?_)⟩⟩
    split at hx
    · exact .inl ⟨h, .inr (.inr (.inr rfl)), .inl ⟨‹_›, (Host.Outcome.next.inj hx).symm⟩⟩
    · split at hx
      · exact .inl ⟨h, .inr (.inr (.inr rfl)), .inr ⟨by omega, ‹_›, (Host.Outcome.next.inj hx).symm⟩⟩
      · exact .inr ⟨h, by omega, by simp_all, .inl ⟨rfl, (Host.Outcome.next.inj hx).symm⟩⟩
  | seek h o =>
    obtain ⟨h1, h2⟩ := seek_next hx
    rw [exec_seek h1 h2] at hx
    refine ⟨h1, .inr ⟨h2, .inr (.inr ?_)⟩⟩
    split at hx
    · exact .inl ⟨h, .inr (.inr (.inl ⟨o, rfl⟩)), .inl ⟨‹_›, (Host.Outcome.next.inj hx).symm⟩⟩
    · split at hx
      · exact .inl ⟨h, .inr (.inr (.inl ⟨o, rfl⟩)), .inr ⟨by omega, ‹_›, (Host.Outcome.next.inj hx).symm⟩⟩
      · exact .inr ⟨h, by omega, by simp_all, .inr (.inl ⟨o, rfl, (Host.Outcome.next.inj hx).symm⟩)⟩
  | write h data =>
    obtain ⟨h1, h2⟩ := write_next hx
    rw [exec_write h1 h2] at hx
    refine ⟨h1, .inr ⟨h2, .inr (.inr ?_)⟩⟩
    split at hx
    · exact .inl ⟨h, .inr (.inl ⟨data, rfl⟩), .inl ⟨‹_›, (Host.Outcome.next.inj hx).symm⟩⟩
    · split at hx
      · exact .inl ⟨h, .inr (.inl ⟨data, rfl⟩), .inr ⟨by omega, ‹_›, (Host.Outcome.next.inj hx).symm⟩⟩
      · exact .inr ⟨h, by omega, by simp_all, .inr (.inr (.inl ⟨data, rfl, (Host.Outcome.next.inj hx).symm⟩))⟩
  | read h n =>
    obtain ⟨h1, h2⟩ := read_next hx
    rw [exec_read h1 h2] at hx
    refine ⟨h1, .inr ⟨h2, .inr (.inr ?_)⟩⟩
    split at hx
    · exact .inl ⟨h, .inl ⟨n, rfl⟩, .inl ⟨‹_›, (Host.Outcome.next.inj hx).symm⟩⟩
    · split at hx
      · exact .inl ⟨h, .inl ⟨n, rfl⟩, .inr ⟨by omega, ‹_›, (Host.Outcome.next.inj hx).symm⟩⟩
      · split at hx
        · exact .inr ⟨h, by omega, by simp_all, .inr (.inr (.inr ⟨n, rfl, ‹_›, (Host.Outcome.next.inj hx).symm⟩))⟩
        · cases hx
  | initSystem => cases hi
  | zeroCartridge => cases hi
  | loadCartridge c => cases hi
  | readFrame f => cases hi
  | writeFrame f => cases hi
  | busPowerOff => cases hi
  | reserved7 => cases hi

end Sys2Proof.Machine
end

