-- ==== Sys2Proof/Laws/Engine.lean ====
section
/-! SUPPORT. The length update of write (R143, R146), and everything a write on a resolved handle can do. -/

namespace Sys2Proof.Machine

/-- The length update raises the length to the cursor and touches nothing else. -/
theorem commitLength_record (h : Nat) (s : State) : (commitLength h s).record h =
    { s.record h with endPos := max (s.record h).endPos (s.record h).cursor } := by
  unfold commitLength
  split
  · rw [record_setEnd, if_pos rfl, Nat.max_eq_right (by omega)]
  · rw [Nat.max_eq_left (by omega)]

theorem commitLength_record_ne {h j : Nat} (s : State) (hj : j ≠ h) : (commitLength h s).record j = s.record j := by
  unfold commitLength
  split
  · rw [record_setEnd, if_neg hj]
  · rfl

/-- `t` differs from `s` at most in `scratch`, the bus side, `next_free` and the record of `h`, of which path and open flag
are as before. -/
structure OnlyFile (h : Nat) (s t : State) : Prop where
  cfg : t.cfg = s.cfg
  powered : t.powered = s.powered
  nFiles : t.nFiles = s.nFiles
  seq : t.seq = s.seq
  pending : t.pending = s.pending
  result : t.result = s.result
  other : ∀ j, j ≠ h → t.record j = s.record j
  path : (t.record h).path = (s.record h).path
  isOpen : (t.record h).isOpen = (s.record h).isOpen
  listed : h < s.ft.length → t.ft.length = s.ft.length

theorem OnlyFile.trans {h : Nat} {s t u : State} (h₁ : OnlyFile h s t) (h₂ : OnlyFile h t u) : OnlyFile h s u :=
  ⟨h₂.cfg.trans h₁.cfg, h₂.powered.trans h₁.powered, h₂.nFiles.trans h₁.nFiles, h₂.seq.trans h₁.seq,
   h₂.pending.trans h₁.pending, h₂.result.trans h₁.result, fun j hj => (h₂.other j hj).trans (h₁.other j hj),
   h₂.path.trans h₁.path, h₂.isOpen.trans h₁.isOpen,
   fun hl => (h₂.listed (by rw [h₁.listed hl]; exact hl)).trans (h₁.listed hl)⟩

theorem OnlyFrames.onlyFile {h : Nat} {extra : List FrameAddress} {s t : State} (ho : OnlyFrames h extra s t) :
    OnlyFile h s t :=
  ⟨ho.cfg, ho.powered, ho.nFiles, ho.seq, ho.pending, ho.result, fun _ hj => ho.record_other hj,
   by rw [ho.record_self], by rw [ho.record_self], fun hl => by
     rcases ho.ft with hf | ⟨-, hf⟩
     · rw [hf, tableSet_eq_set _ hl, List.length_set]
     · rw [hf]⟩

theorem OnlyCursor.onlyFile {h : Nat} {s t : State} (hc : OnlyCursor h s t) : OnlyFile h s t :=
  ⟨hc.cfg, hc.powered, hc.nFiles, hc.seq, hc.pending, hc.result, fun _ hj => hc.record_other hj,
   by rw [hc.record_self], by rw [hc.record_self], fun hl => by
     rcases hc.ft with hf | hf
     · rw [hf, tableSet_eq_set _ hl, List.length_set]
     · rw [hf]⟩

theorem commitLength_onlyFile (h : Nat) (s : State) : OnlyFile h s (commitLength h s) := by
  refine ⟨?_, ?_, ?_, ?_, ?_, ?_, fun _ hj => commitLength_record_ne s hj, by rw [commitLength_record],
    by rw [commitLength_record], fun hl => ?_⟩
  case refine_7 =>
    unfold commitLength
    split
    · show (tableSet s.ft h _).length = _
      rw [tableSet_eq_set _ hl, List.length_set]
    · rfl
  all_goals (unfold commitLength; split <;> rfl)

@[simp] theorem commitLength_nextFree (h : Nat) (s : State) : (commitLength h s).nextFree = s.nextFree := by
  unfold commitLength; split <;> rfl
@[simp] theorem commitLength_scratch (h : Nat) (s : State) : (commitLength h s).scratch = s.scratch := by
  unfold commitLength; split <;> rfl
@[simp] theorem commitLength_bus (h : Nat) (s : State) : (commitLength h s).bus = s.bus := by
  unfold commitLength; split <;> rfl

/-- The abort path's length update (R146). -/
def abortLength (h : Nat) (s : State) : State := if s.cfg.writeAbortCommitsLength then commitLength h s else s

theorem endWrite_done (h len : Nat) (s : State) : endWrite h len (.done () s) = .done (.written len) (commitLength h s) := rfl
theorem endWrite_raised (h len : Nat) (e : ErrorKind) (s : State) :
    endWrite h len (.raised e s) = .raised e (abortLength h s) := rfl

theorem abortLength_onlyFile (h : Nat) (s : State) : OnlyFile h s (abortLength h s) := by
  unfold abortLength
  split
  · exact commitLength_onlyFile h s
  · exact ⟨rfl, rfl, rfl, rfl, rfl, rfl, fun _ _ => rfl, rfl, rfl, fun _ => rfl⟩

theorem abortLength_record (h : Nat) (s : State) : (abortLength h s).record h =
    { s.record h with endPos := if s.cfg.writeAbortCommitsLength then max (s.record h).endPos (s.record h).cursor
                                else (s.record h).endPos } := by
  unfold abortLength
  cases hc : s.cfg.writeAbortCommitsLength
  · simp only [Bool.false_eq_true, if_false]
  · simp only [if_true]; exact commitLength_record h s

@[simp] theorem abortLength_nextFree (h : Nat) (s : State) : (abortLength h s).nextFree = s.nextFree := by
  unfold abortLength; split <;> simp
@[simp] theorem abortLength_scratch (h : Nat) (s : State) : (abortLength h s).scratch = s.scratch := by
  unfold abortLength; split <;> simp
@[simp] theorem abortLength_bus (h : Nat) (s : State) : (abortLength h s).bus = s.bus := by
  unfold abortLength; split <;> simp

/-- Everything a write on a resolved handle can do (R143 to R146): with room in the pool it appends the frames missing and
then stores or aborts; without room it takes what is left and fails. -/
theorem writeBytes_cases (h : Nat) (data : List Byte) (s : State) :
    (s.nextFree.val + framesMissing (s.record h) data.length ≤ 65536 ∧
      ∃ r, r = { s.record h with
                  frames := (s.record h).frames ++ nextAddresses s.nextFree.val (framesMissing (s.record h) data.length) } ∧
      ∃ t tr, OnlyFile h s t ∧ t.nextFree.val = s.nextFree.val + framesMissing (s.record h) data.length ∧
        t.bus.isOracle = s.bus.isOracle ∧ t.bus.trace = s.bus.trace ++ tr ∧
        DeviceSameOutside (framesTouched r data.length) s t ∧
        t.record h = { r with cursor := (t.record h).cursor, endPos := (t.record h).endPos } ∧
        (data = [] → t.scratch = s.scratch) ∧
        ((allOk tr = true ∧ tr.map (fun e => e.cmd) = writeRequests (framesTouched r data.length) ∧
            sentBytes tr = (fetchedBytes tr).take (r.cursor % 1024) ++ data ++
              (fetchedBytes tr).drop (r.cursor % 1024 + data.length) ∧
            writeBytes h data s = .done (.written data.length) t ∧
            (t.record h).cursor = r.cursor + data.length ∧
            (t.record h).endPos = max r.endPos (r.cursor + data.length)) ∨
         (StopsAtFailure tr ∧ tr.map (fun e => e.cmd) <+: writeRequests (framesTouched r data.length) ∧
            writeBytes h data s = .raised .deviceError t ∧
            (t.record h).cursor = cursorAfter r.cursor ((tr.length - 1) / 3) ∧
            (t.record h).endPos =
              if s.cfg.writeAbortCommitsLength then max r.endPos (t.record h).cursor else r.endPos))) ∨
    (65536 < s.nextFree.val + framesMissing (s.record h) data.length ∧
      ∃ t, writeBytes h data s = .raised .deviceFull t ∧ t.nextFree.val = 65536 ∧
        OnlyFrames h (nextAddresses s.nextFree.val (65536 - s.nextFree.val)) s t) := by
  rcases allocFrames_cases h (framesMissing (s.record h) data.length) s with ⟨hle, a, ha, hna, hof⟩ | ⟨hlt, a, ha, hna, hof⟩
  · refine .inl ⟨hle, _, rfl, ?_⟩
    generalize hr : ({ s.record h with
      frames := (s.record h).frames ++ nextAddresses s.nextFree.val (framesMissing (s.record h) data.length) } :
        FileRecord) = r
    have hra : a.record h = r := by rw [hof.record_self, hr]
    obtain ⟨t, tr, hoc, hor, htr, hdev, hcase⟩ := writeLoop_cases data.length h data a (Nat.le_refl _)
    rw [hra] at hdev hcase
    have htr' : t.bus.trace = s.bus.trace ++ tr := by rw [htr, hof.bus]
    have hdev' : ∀ x, (∀ b ∈ framesTouched r data.length, ¬(byteAddress b 0 ≤ x ∧ x < byteAddress b 1024)) →
        t.bus.mem.read x = s.bus.mem.read x := by
      intro x hx; rw [hdev x hx, hof.bus]
    have hself := hoc.record_self
    rw [hra] at hself
    have hgo : writeBytes h data s = endWrite h data.length (writeLoop data.length h data a) := by
      rw [writeBytes, ha, bind_done]
    have hscr : data = [] → t.scratch = s.scratch := by
      rintro rfl
      have h5 : writeLoop ([] : List Byte).length h [] a = .done () a := rfl
      rcases hcase with ⟨-, -, h3, -⟩ | ⟨-, -, h3, -⟩
      · rw [h5] at h3
        have : a = t := by injection h3
        rw [← this, hof.scratch]
      · rw [h5] at h3; cases h3
    rcases hcase with ⟨h1, h2, h3, h4, h5⟩ | ⟨h1, h2, h3, h5⟩
    · refine ⟨commitLength h t, tr, (hof.onlyFile.trans hoc.onlyFile).trans (commitLength_onlyFile h t), ?_, ?_, ?_, ?_, ?_,
        ?_, .inl ⟨h1, h2, h4, ?_, ?_, ?_⟩⟩
      · rw [commitLength_nextFree, hoc.nextFree, hna]
      · rw [commitLength_bus, hor, hof.bus]
      · rw [commitLength_bus, htr']
      · intro x hx; rw [commitLength_bus]; exact hdev' x hx
      · rw [commitLength_record]; rw [hself]
      · intro hd; rw [commitLength_scratch]; exact hscr hd
      · rw [hgo, h3, endWrite_done]
      · rw [commitLength_record]; exact h5
      · rw [commitLength_record]
        show max (t.record h).endPos (t.record h).cursor = _
        rw [h5, hself]
    · have hcfg : t.cfg = s.cfg := hoc.cfg.trans hof.cfg
      refine ⟨abortLength h t, tr, (hof.onlyFile.trans hoc.onlyFile).trans (abortLength_onlyFile h t), ?_, ?_, ?_, ?_, ?_,
        ?_, .inr ⟨h1, h2, ?_, ?_, ?_⟩⟩
      · rw [abortLength_nextFree, hoc.nextFree, hna]
      · rw [abortLength_bus, hor, hof.bus]
      · rw [abortLength_bus, htr']
      · intro x hx; rw [abortLength_bus]; exact hdev' x hx
      · rw [abortLength_record]; rw [hself]
      · intro hd; rw [abortLength_scratch]; exact hscr hd
      · rw [hgo, h3, endWrite_raised]
      · rw [abortLength_record]; exact h5
      · rw [abortLength_record, hcfg]
        show (if _ then max (t.record h).endPos (t.record h).cursor else (t.record h).endPos) = _
        rw [hself]
  · exact .inr ⟨hlt, a, by rw [writeBytes, ha, bind_raised], hna, hof⟩

/-- Everything a read on a resolved handle can do (R140 to R142). -/
theorem readBytes_cases (h n : Nat) (s : State) :
    ∃ t tr, OnlyCursor h s t ∧ t.bus.mem = s.bus.mem ∧ t.bus.isOracle = s.bus.isOracle ∧
      t.bus.trace = s.bus.trace ++ tr ∧ (n = 0 → t.scratch = s.scratch) ∧
      ((allOk tr = true ∧ tr.map (fun e => e.cmd) = readRequests (framesTouched (s.record h) n) ∧
          readBytes h n s = .done (.data (((fetchedBytes tr).drop ((s.record h).cursor % 1024)).take n)) t ∧
          (((fetchedBytes tr).drop ((s.record h).cursor % 1024)).take n).length = n ∧
          (t.record h).cursor = (s.record h).cursor + n) ∨
       (StopsAtFailure tr ∧ tr.map (fun e => e.cmd) <+: readRequests (framesTouched (s.record h) n) ∧
          readBytes h n s = .raised .deviceError t ∧
          (t.record h).cursor = cursorAfter (s.record h).cursor ((tr.length - 1) / 2))) := by
  obtain ⟨t, tr, hoc, hmem, hor, htr, hcase⟩ := readLoop_cases n h n [] s (Nat.le_refl _)
  refine ⟨t, tr, hoc, hmem, hor, htr, ?_, ?_⟩
  · rintro rfl
    have h5 : readLoop 0 h 0 [] s = .done [] s := rfl
    rcases hcase with ⟨-, -, h3, -⟩ | ⟨-, -, h3, -⟩
    · rw [h5] at h3
      have : s = t := by injection h3
      rw [← this]
    · rw [h5] at h3; cases h3
  · rcases hcase with ⟨h1, h2, h3, h4, h5⟩ | ⟨h1, h2, h3, h5⟩
    · exact .inl ⟨h1, h2, by rw [readBytes, h3]; rfl, h4, h5⟩
    · exact .inr ⟨h1, h2, by rw [readBytes, h3]; rfl, h5⟩

end Sys2Proof.Machine
end

