-- ==== Sys2Proof/Laws/FileTable.lean ====
section
/-! SUPPORT. The path lookup and everything open can do (R131, R134, R135). -/

namespace Sys2Proof.Machine

variable {s : State} {p : Path}

/-- The lookup finds a handle whose record has the path. -/
theorem findPath_some {h : Nat} (hf : s.findPath p = some h) : h < s.nFiles ∧ (s.record h).path = p := by
  unfold State.findPath at hf
  exact ⟨List.mem_range.mp (List.mem_of_find?_eq_some hf), by simpa using List.find?_some hf⟩

/-- It finds none exactly when no record has the path. -/
theorem findPath_none : s.findPath p = none ↔ ∀ j, j < s.nFiles → (s.record j).path ≠ p := by
  unfold State.findPath
  simp [List.find?_eq_none]

/-- It finds the record of the path where there is exactly one. -/
theorem findPath_unique {h : Nat} (hh : h < s.nFiles) (hp : (s.record h).path = p)
    (hu : ∀ j, j < s.nFiles → (s.record j).path = p → j = h) : s.findPath p = some h := by
  cases hf : s.findPath p with
  | none => exact absurd hp (findPath_none.mp hf h hh)
  | some j => rw [hu j (findPath_some hf).1 (findPath_some hf).2]

theorem openPath_open {h : Nat} (hf : s.findPath p = some h) (ho : (s.record h).isOpen = true) :
    openPath p s = .raised .alreadyOpen s := by
  simp only [openPath, hf, reopen, ho, if_true]

theorem openPath_closed {h : Nat} (hf : s.findPath p = some h) (ho : (s.record h).isOpen = false) :
    openPath p s = .done (.handle h) (s.setRecord h { s.record h with isOpen := true, cursor := 0 }) := by
  unfold openPath
  rw [hf]
  show reopen h s = _
  unfold reopen
  rw [if_neg (by rw [ho]; exact Bool.false_ne_true)]
  rfl

theorem openPath_full (hf : s.findPath p = none) (hm : s.cfg.maxFiles ≤ s.nFiles) :
    openPath p s = .raised .tooManyFiles s := by
  simp only [openPath, hf, createFile, if_pos hm]

theorem openPath_new (hf : s.findPath p = none) (hm : s.nFiles < s.cfg.maxFiles) :
    openPath p s = .done (.handle s.nFiles)
      { s.setRecord s.nFiles { path := p, isOpen := true, endPos := 0, cursor := 0, frames := [] } with
        nFiles := s.nFiles + 1 } := by
  have h : ¬ s.cfg.maxFiles ≤ s.nFiles := by omega
  simp only [openPath, hf, createFile, if_neg h]

/-- Everything open can do (R131). -/
theorem openPath_cases (p : Path) (s : State) :
    (∃ h, h < s.nFiles ∧ (s.record h).path = p ∧ (s.record h).isOpen = true ∧
        openPath p s = .raised .alreadyOpen s) ∨
    (∃ h, h < s.nFiles ∧ (s.record h).path = p ∧ (s.record h).isOpen = false ∧
        openPath p s = .done (.handle h) (s.setRecord h { s.record h with isOpen := true, cursor := 0 })) ∨
    ((∀ j, j < s.nFiles → (s.record j).path ≠ p) ∧ s.cfg.maxFiles ≤ s.nFiles ∧
        openPath p s = .raised .tooManyFiles s) ∨
    ((∀ j, j < s.nFiles → (s.record j).path ≠ p) ∧ s.nFiles < s.cfg.maxFiles ∧
        openPath p s = .done (.handle s.nFiles)
          { s.setRecord s.nFiles { path := p, isOpen := true, endPos := 0, cursor := 0, frames := [] } with
            nFiles := s.nFiles + 1 }) := by
  cases hf : s.findPath p with
  | some h =>
    obtain ⟨hh, hp⟩ := findPath_some hf
    cases ho : (s.record h).isOpen with
    | true => exact .inl ⟨h, hh, hp, ho, openPath_open hf ho⟩
    | false => exact .inr (.inl ⟨h, hh, hp, ho, openPath_closed hf ho⟩)
  | none =>
    have hn := findPath_none.mp hf
    by_cases hm : s.cfg.maxFiles ≤ s.nFiles
    · exact .inr (.inr (.inl ⟨hn, hm, openPath_full hf hm⟩))
    · exact .inr (.inr (.inr ⟨hn, by omega, openPath_new hf (by omega)⟩))

end Sys2Proof.Machine
end

