-- ==== Sys2Proof/Laws/PerInstr.lean ====
section
/-! SUPPORT. One law of the syntax per instruction: its encoding falls in its own row of spec/opcode_table.json. -/

namespace Sys2Proof.Laws.Encoding

/-- The number that selects an instruction's row: the opcode number of a bus command (R83), `hcmd` of a host command
(R88, R89). -/
def rowNumber : Instr → Nat
  | .initSystem => 0
  | .zeroCartridge => 1
  | .loadCartridge _ => 2
  | .readFrame _ => 3
  | .writeFrame _ => 4
  | .busPowerOff => 5
  | .powerOn => 0
  | .powerOff => 1
  | .openFile _ => 2
  | .close _ => 3
  | .read _ _ => 4
  | .write _ _ => 5
  | .seek _ _ => 6
  | .reserved7 => 7

/-- A bus command encodes to a word with its row's opcode number, every other instruction to a host presentation with its
row's code. -/
def Statement (i : Instr) : Prop :=
  (Machine.isBusCommand i = true ∧ ∃ w, encode i = .bus w ∧ (unpack w).opcode.toNat = rowNumber i) ∨
  (Machine.isBusCommand i = false ∧ ∃ h, encode i = .host h ∧ h.hcmd.toNat = rowNumber i)

theorem initSystem : Statement .initSystem := .inl ⟨rfl, _, rfl, Machine.opcodeOf_requestInit⟩
theorem zeroCartridge : Statement .zeroCartridge := .inl ⟨rfl, _, rfl, Machine.opcodeOf_requestZero⟩
theorem loadCartridge (c : BitVec 16) : Statement (.loadCartridge c) := .inl ⟨rfl, _, rfl, Machine.opcodeOf_requestLoad _⟩
theorem readFrame (f : BitVec 16) : Statement (.readFrame f) := .inl ⟨rfl, _, rfl, Machine.opcodeOf_requestRead _⟩
theorem writeFrame (f : BitVec 16) : Statement (.writeFrame f) := .inl ⟨rfl, _, rfl, Machine.opcodeOf_requestWrite _⟩
theorem busPowerOff : Statement .busPowerOff := .inl ⟨rfl, _, rfl, Machine.opcodeOf_requestOff⟩
theorem powerOn : Statement .powerOn := .inr ⟨rfl, _, rfl, rfl⟩
theorem powerOff : Statement .powerOff := .inr ⟨rfl, _, rfl, rfl⟩
theorem openFile (p : Path) : Statement (.openFile p) := .inr ⟨rfl, _, rfl, rfl⟩
theorem close (h : Nat) : Statement (.close h) := .inr ⟨rfl, _, rfl, rfl⟩
theorem read (h n : Nat) : Statement (.read h n) := .inr ⟨rfl, _, rfl, rfl⟩
theorem write (h : Nat) (data : List Byte) : Statement (.write h data) := .inr ⟨rfl, _, rfl, rfl⟩
theorem seek (h o : Nat) : Statement (.seek h o) := .inr ⟨rfl, _, rfl, rfl⟩
theorem reserved7 : Statement .reserved7 := .inr ⟨rfl, _, rfl, rfl⟩

end Sys2Proof.Laws.Encoding
end

