-- ==== Sys2Proof/Laws/PowerOn.lean ====
section
/-! SUPPORT. The transfers of powerOn: everything they can do, and what they do with the undisturbed reference device
(R160, R161, R191). -/

namespace Sys2Proof.Machine

/-- `t` differs from `s` at most in the bus side. -/
def OnlyBusSide (s t : State) : Prop := t = { s with bus := t.bus }

theorem OnlyBusSide.refl (s : State) : OnlyBusSide s s := rfl

theorem OnlyBusSide.trans {s t u : State} (h₁ : OnlyBusSide s t) (h₂ : OnlyBusSide t u) : OnlyBusSide s u := by
  unfold OnlyBusSide at *
  rw [h₂, h₁]

theorem OnlyBusSide.issue (s : State) (w : Word) (o : Option Frame) : OnlyBusSide s (s.issue w o).2 := rfl

/-- One request with no buffer and its status check (R55): the event it adds, and what it comes to. -/
theorem request_cases (w : Word) (s : State) :
    ∃ t e, OnlyBusSide s t ∧ t = (s.issue w none).2 ∧ t.bus.trace = s.bus.trace ++ [e] ∧ e.cmd = w ∧ e.out = none ∧
      ((failed e.resp = true ∧ statusCheck (s.issue w none).1.resp (s.issue w none).2 = .raised .deviceError t) ∨
       (failed e.resp = false ∧ statusCheck (s.issue w none).1.resp (s.issue w none).2 = .done () t)) := by
  refine ⟨(s.issue w none).2, eventOf s.bus w none, rfl, rfl, issue_trace _ _ _, rfl, rfl, ?_⟩
  cases h : failed (eventOf s.bus w none).resp with
  | true => exact .inl ⟨rfl, statusCheck_of_failed h _⟩
  | false => exact .inr ⟨rfl, statusCheck_of_ok h _⟩

/-- The requests of the loop over the cartridges of a list (R160). -/
def zeroRequests (l : List (Fin 64)) : List Word := l.flatMap (fun c => [requestLoad c.val, requestZero])

@[simp] theorem zeroRequests_cons (c : Fin 64) (l : List (Fin 64)) :
    zeroRequests (c :: l) = requestLoad c.val :: requestZero :: zeroRequests l := rfl

theorem powerOnRequests_eq : powerOnRequests = requestInit :: zeroRequests (List.finRange 64) := rfl

/-- Everything the loop over the cartridges can do: all its transfers succeed, or one fails and nothing follows it. -/
theorem zeroCartridges_cases (l : List (Fin 64)) : ∀ s : State,
    ∃ t tr, OnlyBusSide s t ∧ t.bus.trace = s.bus.trace ++ tr ∧ (∀ e ∈ tr, e.out = none) ∧
      ((allOk tr = true ∧ tr.map (fun e => e.cmd) = zeroRequests l ∧ zeroCartridges l s = .done () t) ∨
       (StopsAtFailure tr ∧ tr.map (fun e => e.cmd) <+: zeroRequests l ∧
          zeroCartridges l s = .raised .deviceError t)) := by
  induction l with
  | nil => intro s; exact ⟨s, [], rfl, by simp, by simp, .inl ⟨rfl, rfl, rfl⟩⟩
  | cons c l ih =>
    intro s
    obtain ⟨t, e, hs, -, htr, hc, ho, ⟨hf, hr⟩ | ⟨hf, hr⟩⟩ := request_cases (requestLoad c.val) s
    · refine ⟨t, [e], hs, htr, by simpa using ho, .inr ⟨stopsAtFailure_single hf, ?_, ?_⟩⟩
      · simp [hc]
      · show (busLoad c.val s).bind _ = _
        rw [busLoad, hr, bind_raised]
    · obtain ⟨u, e₂, hs₂, -, htr₂, hc₂, ho₂, ⟨hf₂, hr₂⟩ | ⟨hf₂, hr₂⟩⟩ := request_cases requestZero t
      · refine ⟨u, [e, e₂], hs.trans hs₂, by rw [htr₂, htr, List.append_assoc]; rfl, by simp [ho, ho₂],
          .inr ⟨stopsAtFailure_append (pre := [e]) (by simp [hf]) (stopsAtFailure_single hf₂), ?_, ?_⟩⟩
        · simp [hc, hc₂]
        · show (busLoad c.val s).bind _ = _
          rw [busLoad, hr, bind_done, busZero, hr₂, bind_raised]
      · obtain ⟨v, tr, hs₃, htr₃, ho₃, hcase⟩ := ih u
        have hgo : zeroCartridges (c :: l) s = zeroCartridges l u := by
          show (busLoad c.val s).bind _ = _
          rw [busLoad, hr, bind_done, busZero, hr₂, bind_done]
        refine ⟨v, e :: e₂ :: tr, (hs.trans hs₂).trans hs₃, by rw [htr₃, htr₂, htr]; simp, ?_, ?_⟩
        · intro x hx
          simp only [List.mem_cons] at hx
          rcases hx with rfl | rfl | hx
          · exact ho
          · exact ho₂
          · exact ho₃ x hx
        · rcases hcase with ⟨hall, hcmds, hres⟩ | ⟨hstop, hcmds, hres⟩
          · exact .inl ⟨by simp [hf, hf₂, hall], by simp [hc, hc₂, hcmds], by rw [hgo, hres]⟩
          · refine .inr ⟨stopsAtFailure_append (pre := [e, e₂]) (by simp [hf, hf₂]) hstop, ?_, by rw [hgo, hres]⟩
            obtain ⟨more, hm⟩ := hcmds
            exact ⟨more, by simp [hc, hc₂, hm]⟩

/-- Everything the transfers of powerOn can do (R160, R161). -/
theorem powerOnTransfers_cases (s : State) :
    ∃ t tr, OnlyBusSide s t ∧ t.bus.trace = s.bus.trace ++ tr ∧ (∀ e ∈ tr, e.out = none) ∧
      ((allOk tr = true ∧ tr.map (fun e => e.cmd) = powerOnRequests ∧ powerOnTransfers s = .done () t) ∨
       (StopsAtFailure tr ∧ tr.map (fun e => e.cmd) <+: powerOnRequests ∧
          powerOnTransfers s = .raised .deviceError t)) := by
  obtain ⟨t, e, hs, -, htr, hc, ho, ⟨hf, hr⟩ | ⟨hf, hr⟩⟩ := request_cases requestInit s
  · refine ⟨t, [e], hs, htr, by simpa using ho, .inr ⟨stopsAtFailure_single hf, ?_, ?_⟩⟩
    · rw [powerOnRequests_eq]; simp [hc]
    · rw [powerOnTransfers, busInit, hr, bind_raised]
  · obtain ⟨u, tr, hs₂, htr₂, ho₂, hcase⟩ := zeroCartridges_cases (List.finRange 64) t
    have hgo : powerOnTransfers s = zeroCartridges (List.finRange 64) t := by
      rw [powerOnTransfers, busInit, hr, bind_done]
    refine ⟨u, e :: tr, hs.trans hs₂, by rw [htr₂, htr]; simp, ?_, ?_⟩
    · intro x hx
      rcases List.mem_cons.mp hx with rfl | hx
      · exact ho
      · exact ho₂ x hx
    · rw [powerOnRequests_eq]
      rcases hcase with ⟨hall, hcmds, hres⟩ | ⟨hstop, hcmds, hres⟩
      · exact .inl ⟨by simp [hf, hall], by simp [hc, hcmds], by rw [hgo, hres]⟩
      · refine .inr ⟨stopsAtFailure_append (pre := [e]) (by simp [hf]) hstop, ?_, by rw [hgo, hres]⟩
        obtain ⟨more, hm⟩ := hcmds
        exact ⟨more, by simp [hc, hm]⟩

/-- The loop over the cartridges with the undisturbed reference device: it succeeds, every byte of the cartridges of the
list reads zero, and every other byte reads as before. -/
theorem zeroCartridges_reference (l : List (Fin 64)) : ∀ s : State, Undisturbed s →
    ∃ t, zeroCartridges l s = .done () t ∧ Undisturbed t ∧
      t.bus.mounted = (match l.getLast? with | some c => some c | none => s.bus.mounted) ∧
      ∀ x, t.bus.mem.read x = if ∃ c ∈ l, x / 1048576 = c.val then 0 else s.bus.mem.read x := by
  induction l with
  | nil => intro s hs; exact ⟨s, rfl, hs, rfl, fun x => by simp⟩
  | cons c l ih =>
    intro s hs
    obtain ⟨h1, h2, h3, h4⟩ := reference_load hs c
    obtain ⟨g1, g2, g3, g4⟩ := reference_zero (b := (s.issue (requestLoad c.val) none).2.bus) h2 h3
    obtain ⟨t, hr, ht, hm, hb⟩ := ih ((s.issue (requestLoad c.val) none).2.issue requestZero none).2 g2
    have hgo : zeroCartridges (c :: l) s =
        zeroCartridges l ((s.issue (requestLoad c.val) none).2.issue requestZero none).2 := by
      show (busLoad c.val s).bind _ = _
      rw [busLoad_eq, statusCheck_of_ok (by exact h1), bind_done, busZero]
      show (statusCheck _ _).bind _ = _
      rw [statusCheck_of_ok (by exact g1), bind_done]
    refine ⟨t, by rw [hgo, hr], ht, ?_, ?_⟩
    · rw [hm]
      have h5 : ((s.issue (requestLoad c.val) none).2.issue requestZero none).2.bus.mounted = some c := g3
      cases l with
      | nil => simpa using h5
      | cons d l =>
        rw [List.getLast?_cons_cons]
        cases hl : (d :: l).getLast? with
        | none => simp at hl
        | some e => rfl
    · intro x
      have h5 : ((s.issue (requestLoad c.val) none).2.issue requestZero none).2.bus.mem = s.bus.mem.fillCartridge c .zero := by
        rw [issue_bus, g4, issue_bus, h4]
      rw [hb, h5, read_fillCartridge]
      by_cases hc : x / 1048576 = c.val
      · simp [hc]
      · simp [hc]

theorem finRange_getLast : (List.finRange 64).getLast? = some 63 := by decide

/-- The transfers of powerOn with the undisturbed reference device (R191). -/
theorem powerOnTransfers_reference {s : State} (hs : Undisturbed s) :
    ∃ t, powerOnTransfers s = .done () t ∧ Undisturbed t ∧ t.bus.mounted = some 63 ∧
      ∀ x, x < 67108864 → t.bus.mem.read x = 0 := by
  obtain ⟨h1, h2, -⟩ := reference_init hs
  obtain ⟨t, hr, ht, hm, hb⟩ := zeroCartridges_reference (List.finRange 64) (s.issue requestInit none).2 h2
  refine ⟨t, ?_, ht, by rw [hm, finRange_getLast], ?_⟩
  · rw [powerOnTransfers, busInit]
    show (statusCheck _ _).bind _ = _
    rw [statusCheck_of_ok (by exact h1), bind_done, hr]
  · intro x hx
    rw [hb, if_pos ⟨⟨x / 1048576, by omega⟩, List.mem_finRange _, rfl⟩]

end Sys2Proof.Machine
end

