-- ==== Sys2Proof/Laws/Reference.lean ====
section
/-! SUPPORT. The engine's loops and powerOn's over the undisturbed reference device (R59): what is read and what is
stored, in terms of the file byte space. -/

namespace Sys2Proof.Machine

theorem fileByte_congr (m : Memory) {r r' : FileRecord} (hf : r'.frames = r.frames) (p : Nat) :
    fileByte m r' p = fileByte m r p := by simp only [fileByte, hf]

theorem fileBytes_congr (m : Memory) {r r' : FileRecord} (hf : r'.frames = r.frames) (p n : Nat) :
    fileBytes m r' p n = fileBytes m r p n := by simp only [fileBytes, fileByte_congr m hf]

@[simp] theorem fileByte_withCursor (m : Memory) (r : FileRecord) (c p : Nat) :
    fileByte m { r with cursor := c } p = fileByte m r p := by simp only [fileByte]

@[simp] theorem fileBytes_withCursor (m : Memory) (r : FileRecord) (c p n : Nat) :
    fileBytes m { r with cursor := c } p n = fileBytes m r p n := by
  simp only [fileBytes, fileByte_withCursor]

@[simp] theorem fileBytes_zero (m : Memory) (r : FileRecord) (p : Nat) : fileBytes m r p 0 = [] := rfl

@[simp] theorem fileBytes_length (m : Memory) (r : FileRecord) (p n : Nat) : (fileBytes m r p n).length = n := by
  simp [fileBytes]

theorem fileBytes_append (m : Memory) (r : FileRecord) (p a b : Nat) :
    fileBytes m r p (a + b) = fileBytes m r p a ++ fileBytes m r (p + a) b := by
  simp only [fileBytes, List.range_add, List.map_append, List.map_map]
  refine congrArg₂ (· ++ ·) rfl (List.map_congr_left fun j _ => ?_)
  simp only [Function.comp, Nat.add_assoc]

/-- The chunk an iteration copies out of the frame at the cursor is the file's next bytes (R62). -/
theorem slice_readFrame (m : Memory) (r : FileRecord) (rem : Nat) :
    slice (m.readFrame (frameAtCursor r)) (offsetAtCursor r) (chunkSize r rem) =
      fileBytes m r r.cursor (chunkSize r rem) := by
  have hin := chunkSize_inside r rem
  have hoff : offsetAtCursor r = r.cursor % 1024 := rfl
  apply List.ext_getElem?
  intro i
  by_cases hi : i < chunkSize r rem
  · have h1 : (fileBytes m r r.cursor (chunkSize r rem))[i]? = some (fileByte m r (r.cursor + i)) := by
      simp only [fileBytes, List.getElem?_map, List.getElem?_range hi, Option.map_some]
    rw [h1]
    simp only [slice]
    rw [List.getElem?_take_of_lt hi, List.getElem?_drop, readFrame_get _ _ (by omega)]
    simp only [fileByte, frameAtCursor]
    have h2 : (r.cursor + i) / 1024 = r.cursor / 1024 := by omega
    have h3 : (r.cursor + i) % 1024 = offsetAtCursor r + i := by omega
    rw [h2, h3]
  · rw [List.getElem?_eq_none (by rw [slice_chunk_length]; omega),
      List.getElem?_eq_none (by rw [fileBytes_length]; omega)]

/-- The loop of read over the reference device: it delivers the file's bytes and changes no byte of the device. -/
theorem readLoop_reference (fuel h : Nat) : ∀ (rem : Nat) (out : List Byte) (s : State), rem ≤ fuel →
    Undisturbed s →
    ∃ t, readLoop fuel h rem out s =
        .done (out ++ fileBytes s.bus.mem (s.record h) (s.record h).cursor rem) t ∧
      OnlyCursor h s t ∧ Undisturbed t ∧ t.bus.mem = s.bus.mem ∧
      (t.record h).cursor = (s.record h).cursor + rem := by
  induction fuel with
  | zero =>
    intro rem out s hrem hs
    obtain rfl : rem = 0 := by omega
    exact ⟨s, by simp [readLoop], OnlyCursor.of_onlyBus h (OnlyBus.refl s), hs, rfl, rfl⟩
  | succ fuel ih =>
    intro rem out s hrem hs
    by_cases h0 : rem = 0
    · subst h0
      exact ⟨s, by simp [readLoop], OnlyCursor.of_onlyBus h (OnlyBus.refl s), hs, rfl, rfl⟩
    · obtain ⟨t, hr, hob, ht, -, hmem, hscr⟩ := frameFetch_reference (frameAtCursor (s.record h)) hs
      have hrec : t.record h = s.record h := hob.record h
      have hkpos := chunkSize_pos (r := s.record h) h0
      have hkle := chunkSize_le (s.record h) rem
      obtain ⟨u, hr', hoc, hu, hmem', hcur⟩ := ih (rem - chunkSize (s.record h) rem)
        (out ++ chunkRead h rem t) (advanceCursor h (chunkSize (s.record h) rem) t) (by omega) ht
      have hadv : (advanceCursor h (chunkSize (s.record h) rem) t).record h =
          { s.record h with cursor := (s.record h).cursor + chunkSize (s.record h) rem } := by
        rw [record_advanceCursor, if_pos rfl, hrec]
      have hmem₁ : (advanceCursor h (chunkSize (s.record h) rem) t).bus.mem = s.bus.mem := hmem
      refine ⟨u, ?_, OnlyCursor.step hob hoc, hu, hmem'.trans hmem₁, ?_⟩
      · have hgo : readLoop (fuel + 1) h rem out s = readLoop fuel h (rem - chunkSize (s.record h) rem)
            (out ++ chunkRead h rem t) (advanceCursor h (chunkSize (s.record h) rem) t) := by
          simp only [readLoop, if_neg h0, hr, bind_done, hrec]
        rw [hgo, hr', hadv, hmem₁]
        congr 1
        rw [List.append_assoc]
        congr 1
        simp only [chunkRead, hrec, hscr]
        rw [slice_readFrame]
        have hsum : rem = chunkSize (s.record h) rem + (rem - chunkSize (s.record h) rem) := by omega
        conv => rhs; rw [hsum, fileBytes_append]
        exact congrArg _ (fileBytes_congr _ rfl _ _)
      · rw [hcur, hadv]
        show (s.record h).cursor + chunkSize (s.record h) rem + (rem - chunkSize (s.record h) rem) = _
        omega

/-- The frame at the cursor after one iteration of write over the reference device. -/
def storeChunk (m : Memory) (r : FileRecord) (rest : List Byte) : Memory :=
  m.writeFrame (frameAtCursor r) (overwrite (m.readFrame (frameAtCursor r)) (offsetAtCursor r)
    (rest.take (chunkSize r rest.length)))

/-- What one iteration stores, byte by byte of the file: the chunk in its place, every other byte as before. -/
theorem fileByte_storeChunk (m : Memory) (r : FileRecord) (rest : List Byte) (hnd : r.frames.Nodup)
    (hcov : r.cursor + chunkSize r rest.length ≤ 1024 * r.frames.length) (hk : 0 < chunkSize r rest.length)
    {p : Nat} (hp : p < 1024 * r.frames.length) :
    fileByte (storeChunk m r rest) r p =
      if r.cursor ≤ p ∧ p < r.cursor + chunkSize r rest.length then rest.getD (p - r.cursor) 0
      else fileByte m r p := by
  have hin := chunkSize_inside r rest.length
  have hkle := chunkSize_le r rest.length
  have hoff : offsetAtCursor r = r.cursor % 1024 := rfl
  have hlen : (rest.take (chunkSize r rest.length)).length = chunkSize r rest.length := by
    rw [List.length_take]; omega
  have hci : r.cursor / 1024 < r.frames.length := by omega
  have hpi : p / 1024 < r.frames.length := by omega
  have hga : frameAtCursor r = r.frames[r.cursor / 1024] := by
    simp only [frameAtCursor, List.getD_eq_getElem?_getD, List.getElem?_eq_getElem hci, Option.getD_some]
  have hgp : r.frames.getD (p / 1024) ⟨0, 0⟩ = r.frames[p / 1024] := by
    simp only [List.getD_eq_getElem?_getD, List.getElem?_eq_getElem hpi, Option.getD_some]
  simp only [fileByte, hgp, storeChunk]
  by_cases hsame : p / 1024 = r.cursor / 1024
  · have hpa : r.frames[p / 1024] = frameAtCursor r := by rw [hga]; congr 1
    rw [hpa, read_writeFrame_same _ _ _ (by omega), List.getD_eq_getElem?_getD,
      overwrite_get _ _ _ (by omega), hlen, hoff]
    by_cases hc : r.cursor ≤ p ∧ p < r.cursor + chunkSize r rest.length
    · have h1 : p % 1024 - r.cursor % 1024 = p - r.cursor := by omega
      rw [if_pos hc, if_pos (by omega), h1, List.getElem?_take_of_lt (by omega), ← List.getD_eq_getElem?_getD]
    · rw [if_neg hc, if_neg (by omega), readFrame_get _ _ (by omega), Option.getD_some]
  · have hne : r.frames[p / 1024] ≠ frameAtCursor r := by
      rw [hga]
      intro he
      exact hsame ((List.Nodup.getElem_inj_iff hnd).mp he)
    rw [read_writeFrame_other _ _ (by omega) hne, if_neg (by rw [hoff] at hin; omega)]

/-- The loop of write over the reference device: it succeeds, and the file holds the input from the cursor on and what
it held everywhere else. -/
theorem writeLoop_reference (fuel h : Nat) : ∀ (rest : List Byte) (s : State), rest.length ≤ fuel →
    Undisturbed s → (s.record h).frames.Nodup →
    (s.record h).cursor + rest.length ≤ 1024 * (s.record h).frames.length →
    ∃ t, writeLoop fuel h rest s = .done () t ∧ OnlyCursor h s t ∧ Undisturbed t ∧
      (t.record h).cursor = (s.record h).cursor + rest.length ∧
      (∀ p, p < 1024 * (s.record h).frames.length →
        fileByte t.bus.mem (s.record h) p =
          if (s.record h).cursor ≤ p ∧ p < (s.record h).cursor + rest.length
          then rest.getD (p - (s.record h).cursor) 0 else fileByte s.bus.mem (s.record h) p) := by
  induction fuel with
  | zero =>
    intro rest s hrem hs _ _
    obtain rfl : rest = [] := List.length_eq_zero_iff.mp (by omega)
    refine ⟨s, rfl, OnlyCursor.of_onlyBus h (OnlyBus.refl s), hs, rfl, fun p _ => ?_⟩
    rw [if_neg (by simp only [List.length_nil]; omega)]
  | succ fuel ih =>
    intro rest s hrem hs hnd hcov
    by_cases h0 : rest.length = 0
    · obtain rfl : rest = [] := List.length_eq_zero_iff.mp h0
      refine ⟨s, by simp [writeLoop], OnlyCursor.of_onlyBus h (OnlyBus.refl s), hs, rfl, fun p _ => ?_⟩
      rw [if_neg (by simp only [List.length_nil]; omega)]
    · obtain ⟨t, hr, hob, ht, hmt, hmem, hscr⟩ := frameFetch_reference (frameAtCursor (s.record h)) hs
      have hrec : t.record h = s.record h := hob.record h
      obtain ⟨u, hr₂, hob₂, -, hu, hmem₂⟩ := frameStore_reference (frameAtCursor (s.record h)).frame
        (s := modifyScratch h rest t) ht hmt
      have hob' : OnlyBus s u := hob.trans ((onlyBus_modify h rest t).trans hob₂)
      have hrec₂ : u.record h = s.record h := hob'.record h
      have hkpos := chunkSize_pos (r := s.record h) h0
      have hkle := chunkSize_le (s.record h) rest.length
      have hdl : (rest.drop (chunkSize (s.record h) rest.length)).length =
          rest.length - chunkSize (s.record h) rest.length := List.length_drop
      have hadv : (advanceCursor h (chunkSize (s.record h) rest.length) u).record h =
          { s.record h with cursor := (s.record h).cursor + chunkSize (s.record h) rest.length } := by
        rw [record_advanceCursor, if_pos rfl, hrec₂]
      have hmem₃ : u.bus.mem = storeChunk s.bus.mem (s.record h) rest := by
        rw [hmem₂]
        show (t.bus.mem.writeFrame _ (modifyScratch h rest t).scratch) = _
        rw [hmem]
        simp only [modifyScratch, setScratch_scratch, hrec, hscr]
        rfl
      obtain ⟨v, hr₃, hoc, hv, hcur, hbytes⟩ := ih (rest.drop (chunkSize (s.record h) rest.length))
        (advanceCursor h (chunkSize (s.record h) rest.length) u) (by omega) hu
        (by rw [hadv]; exact hnd) (by rw [hadv, hdl]; show _ + _ + (_ - _) ≤ 1024 * (s.record h).frames.length; omega)
      rw [hadv, hdl] at hcur
      rw [hadv, hdl] at hbytes
      refine ⟨v, ?_, OnlyCursor.step hob' hoc, hv, ?_, ?_⟩
      · simp only [writeLoop, if_neg h0, hr, bind_done, hrec, hr₂, hrec₂, hr₃]
      · rw [hcur]
        show (s.record h).cursor + chunkSize (s.record h) rest.length + _ = _
        omega
      · intro p hp
        have hb := hbytes p hp
        have hm : (advanceCursor h (chunkSize (s.record h) rest.length) u).bus.mem = u.bus.mem := rfl
        simp only [fileByte_withCursor] at hb
        rw [hm, hmem₃, fileByte_storeChunk _ _ _ hnd (by omega) hkpos hp] at hb
        rw [hb]
        by_cases hin : (s.record h).cursor + chunkSize (s.record h) rest.length ≤ p ∧
            p < (s.record h).cursor + chunkSize (s.record h) rest.length +
              (rest.length - chunkSize (s.record h) rest.length)
        · rw [if_pos hin, if_pos (by omega), List.getD_eq_getElem?_getD, List.getElem?_drop,
            List.getD_eq_getElem?_getD]
          congr 2
          omega
        · rw [if_neg hin]
          by_cases hc : (s.record h).cursor ≤ p ∧ p < (s.record h).cursor + chunkSize (s.record h) rest.length
          · rw [if_pos hc, if_pos (by omega)]
          · rw [if_neg hc, if_neg (by omega)]

end Sys2Proof.Machine
end

