-- ==== Sys2Proof/Laws/Session.lean ====
section
/-! SUPPORT. The session invariant (spec/10_state.md R31, R32) read off the records, and what a change of one record has
to meet to keep it. -/

namespace Sys2Proof.Machine

variable {s t : State}

/-! ### Records as entries of the table -/

theorem record_getElem {j : Nat} (hj : j < s.ft.length) : s.record j = s.ft[j] := by
  simp [State.record, tableGet, List.getD_eq_getElem?_getD, List.getElem?_eq_getElem hj]

theorem record_mem {j : Nat} (hj : j < s.ft.length) : s.record j ∈ s.ft := by
  rw [record_getElem hj]; exact List.getElem_mem hj

/-- A table of the same length that differs in one record is the table with that record replaced. -/
theorem table_eq_set {h : Nat} (hlen : t.ft.length = s.ft.length) (hh : h < s.ft.length)
    (hother : ∀ j, j ≠ h → t.record j = s.record j) : t.ft = s.ft.set h (t.record h) := by
  apply List.ext_getElem (by rw [hlen, List.length_set])
  intro j h1 h2
  rw [List.length_set] at h2
  rw [List.getElem_set]
  split
  · rename_i he; subst he; rw [record_getElem h1]
  · rename_i he
    rw [← record_getElem h1, ← record_getElem h2]; exact hother j (fun h => he h.symm)

/-! ### Lists of addresses -/

theorem flatMap_set_perm {α β : Type} (f : α → List β) (extra : List β) (r : α) : ∀ (l : List α) (h : Nat) (hh : h < l.length),
    f r = f l[h] ++ extra → ((l.set h r).flatMap f).Perm (l.flatMap f ++ extra)
  | x :: l, 0, _, hr => by
    simp only [List.set_cons_zero, List.flatMap_cons, hr, List.getElem_cons_zero, List.append_assoc]
    exact List.Perm.append_left _ List.perm_append_comm
  | x :: l, h + 1, hh, hr => by
    simp only [List.set_cons_succ, List.flatMap_cons, List.append_assoc]
    exact List.Perm.append_left _ (flatMap_set_perm f extra r l h (by simpa using hh) (by simpa using hr))

theorem nextAddresses_linear {n m : Nat} (h : n + m ≤ 65536) :
    (nextAddresses n m).map FrameAddress.linear = List.range' n m := by
  induction m generalizing n with
  | zero => rfl
  | succ m ih =>
    rw [nextAddresses_succ, List.map_cons, lowestFree_linear (by omega), ih (by omega)]; rfl

@[simp] theorem nextAddresses_length (n m : Nat) : (nextAddresses n m).length = m := by
  simp [nextAddresses]

/-! ### How far an aborted transfer gets (R142, R146) -/

@[simp] theorem framesTouched_length (r : FileRecord) (n : Nat) : (framesTouched r n).length = iterations r.cursor n := by
  simp [framesTouched]

theorem readRequests_length (l : List FrameAddress) : (readRequests l).length = 2 * l.length := by
  simp [readRequests, List.length_flatMap]; omega

theorem writeRequests_length (l : List FrameAddress) : (writeRequests l).length = 3 * l.length := by
  simp [writeRequests, List.length_flatMap]; omega

theorem StopsAtFailure.length_pos {tr : List Event} (h : StopsAtFailure tr) : 0 < tr.length := by
  obtain ⟨pre, e, rfl, -, -⟩ := h; simp

/-- The cursor after an iteration short of the last is inside the range. -/
theorem cursorAfter_bounds {c n m : Nat} (hm : m < iterations c n) : c ≤ cursorAfter c m ∧ cursorAfter c m < c + n := by
  simp only [iterations] at hm
  by_cases hn : n = 0
  · rw [if_pos hn] at hm; omega
  · rw [if_neg hn] at hm
    simp only [cursorAfter]
    split <;> omega

theorem read_abort_bounds {r : FileRecord} {n : Nat} {tr : List Event} (hs : StopsAtFailure tr)
    (hp : tr.map (fun e => e.cmd) <+: readRequests (framesTouched r n)) :
    r.cursor ≤ cursorAfter r.cursor ((tr.length - 1) / 2) ∧ cursorAfter r.cursor ((tr.length - 1) / 2) < r.cursor + n := by
  have h1 := hs.length_pos
  have h2 := hp.length_le
  rw [List.length_map, readRequests_length, framesTouched_length] at h2
  exact cursorAfter_bounds (by omega)

theorem write_abort_bounds {r : FileRecord} {n : Nat} {tr : List Event} (hs : StopsAtFailure tr)
    (hp : tr.map (fun e => e.cmd) <+: writeRequests (framesTouched r n)) :
    r.cursor ≤ cursorAfter r.cursor ((tr.length - 1) / 3) ∧ cursorAfter r.cursor ((tr.length - 1) / 3) < r.cursor + n := by
  have h1 := hs.length_pos
  have h2 := hp.length_le
  rw [List.length_map, writeRequests_length, framesTouched_length] at h2
  exact cursorAfter_bounds (by omega)

/-! ### Keeping the invariant -/

theorem SessionInv.listed (hs : SessionInv s) {h : Nat} (hh : h < s.nFiles) : h < s.ft.length := by
  rw [← hs.count]; exact hh

/-- The session invariant speaks of the parameters, the table and the pool alone. -/
theorem SessionInv.congr (hs : SessionInv s) (hc : t.cfg = s.cfg) (hf : t.ft = s.ft) (hn : t.nFiles = s.nFiles)
    (hx : t.nextFree.val = s.nextFree.val) : SessionInv t where
  count := by rw [hn, hf]; exact hs.count
  capacity := by rw [hn, hc]; exact hs.capacity
  paths := by rw [hf]; exact hs.paths
  pool := by rw [ownedAddresses, hf, hx]; exact hs.pool
  frames := by rw [hf]; exact hs.frames
  cursor := by rw [hc, hf]; exact hs.cursor

/-- One record of a session changes: its path stays, its frame list grows by the next free addresses, and its length and
cursor stay inside it. -/
theorem SessionInv.update (hs : SessionInv s) {h m : Nat} (hh : h < s.nFiles)
    (hc : t.cfg = s.cfg) (hn : t.nFiles = s.nFiles) (hlen : t.ft.length = s.ft.length)
    (hother : ∀ j, j ≠ h → t.record j = s.record j) (hpath : (t.record h).path = (s.record h).path)
    (hm : s.nextFree.val + m ≤ 65536) (hx : t.nextFree.val = s.nextFree.val + m)
    (hfr : (t.record h).frames = (s.record h).frames ++ nextAddresses s.nextFree.val m)
    (hend : (t.record h).endPos ≤ 1024 * (t.record h).frames.length)
    (hcov : (t.record h).cursor ≤ 1024 * (t.record h).frames.length)
    (hcur : s.cfg.writeAbortCommitsLength = true → (t.record h).cursor ≤ (t.record h).endPos) : SessionInv t := by
  have hh' := hs.listed hh
  have hft := table_eq_set hlen hh' hother
  have hge := record_getElem hh'
  refine ⟨by rw [hn, hlen]; exact hs.count, by rw [hn, hc]; exact hs.capacity, ?_, ?_, ?_, ?_⟩
  · have : t.ft.map (fun r => r.path) = s.ft.map (fun r => r.path) := by
      apply List.ext_getElem (by simp [hlen])
      intro j h1 h2
      simp only [List.length_map] at h1 h2
      simp only [List.getElem_map, ← record_getElem h1, ← record_getElem h2]
      by_cases hj : j = h
      · rw [hj, hpath]
      · rw [hother j hj]
    rw [this]; exact hs.paths
  · have hp := flatMap_set_perm (fun r : FileRecord => r.frames) (nextAddresses s.nextFree.val m) (t.record h) s.ft h hh'
      (by rw [← hge]; exact hfr)
    rw [ownedAddresses, hft, hx]
    refine (hp.map _).trans ?_
    rw [List.map_append, nextAddresses_linear hm, List.range_eq_range', ← List.range'_append_1, Nat.zero_add,
      ← List.range_eq_range']
    exact hs.pool.append_right _
  · intro r hr
    obtain ⟨j, hj, rfl⟩ := List.mem_iff_getElem.mp hr
    rw [← record_getElem hj]
    by_cases he : j = h
    · subst he; exact ⟨hend, hcov⟩
    · rw [hother j he]; exact hs.frames _ (record_mem (by rw [← hlen]; exact hj))
  · intro hw r hr
    rw [hc] at hw
    obtain ⟨j, hj, rfl⟩ := List.mem_iff_getElem.mp hr
    rw [← record_getElem hj]
    by_cases he : j = h
    · subst he; exact hcur hw
    · rw [hother j he]; exact hs.cursor hw _ (record_mem (by rw [← hlen]; exact hj))

/-- A new record joins a session. -/
theorem SessionInv.create (hs : SessionInv s) {p : Path} (hcap : s.nFiles < s.cfg.maxFiles)
    (hnew : ∀ j, j < s.nFiles → (s.record j).path ≠ p)
    (hc : t.cfg = s.cfg) (hn : t.nFiles = s.nFiles + 1) (hx : t.nextFree.val = s.nextFree.val)
    (hft : t.ft = s.ft ++ [{ path := p, isOpen := true, endPos := 0, cursor := 0, frames := [] }]) : SessionInv t := by
  refine ⟨by rw [hn, hft, List.length_append, ← hs.count]; rfl, by rw [hn, hc]; exact hcap, ?_, ?_, ?_, ?_⟩
  · rw [hft, List.map_append, List.nodup_append]
    refine ⟨hs.paths, by simp, ?_⟩
    rintro a ha b hb rfl
    obtain ⟨r, hr, rfl⟩ := List.mem_map.mp ha
    obtain ⟨j, hj, rfl⟩ := List.mem_iff_getElem.mp hr
    simp only [List.map_cons, List.map_nil, List.mem_singleton] at hb
    exact hnew j (by rw [hs.count]; exact hj) (by rw [record_getElem hj]; exact hb)
  · rw [ownedAddresses, hft, List.flatMap_append, hx]
    simpa [ownedAddresses] using hs.pool
  · intro r hr
    rw [hft] at hr
    rcases List.mem_append.mp hr with hr | hr
    · exact hs.frames r hr
    · rw [List.mem_singleton.mp hr]; simp
  · intro hw r hr
    rw [hc] at hw
    rw [hft] at hr
    rcases List.mem_append.mp hr with hr | hr
    · exact hs.cursor hw r hr
    · rw [List.mem_singleton.mp hr]

/-- The empty session that powerOn begins (R160). -/
theorem SessionInv.empty (hf : s.ft = []) (hn : s.nFiles = 0) (hx : s.nextFree.val = 0) : SessionInv s where
  count := by rw [hn, hf]; rfl
  capacity := by rw [hn]; exact Nat.zero_le _
  paths := by rw [hf]; exact List.nodup_nil
  pool := by rw [ownedAddresses, hf, hx]; exact List.Perm.refl _
  frames := by rw [hf]; intro r hr; cases hr
  cursor := by rw [hf]; intro _ r hr; cases hr

/-- A read clamped to the length of a file of a session stays inside its frame list (R62, R149). -/
theorem SessionInv.covered (hs : SessionInv s) {h : Nat} (hh : h < s.nFiles) (count : Nat) :
    covered (s.record h) (bytesToRead (s.record h) count) = true := by
  have h1 := (hs.frames _ (record_mem (hs.listed hh))).1
  rw [bytesToRead_eq]
  simp only [Sys2Proof.Machine.covered, decide_eq_true_eq]
  omega

end Sys2Proof.Machine
end

