-- ==== Sys2Proof/Laws/Transfers.lean ====
section
/-! SUPPORT. A host command touches the bus side through transfers of the block's own requests only, but for the device's
state that a failed powerOn loses: the list of them, what it says of the trace, of the answers consumed and of the frame
store, and that every operation has one. -/

namespace Sys2Proof.Machine

/-- The bus side after the transfers of a list of requests, first to last. -/
def Bus.transfers (b : Bus) : List (Word × Option Frame) → Bus
  | [] => b
  | x :: l => (b.xfer x.1 x.2).2.transfers l

@[simp] theorem transfers_nil (b : Bus) : b.transfers [] = b := rfl
@[simp] theorem transfers_cons (b : Bus) (x : Word × Option Frame) (l : List (Word × Option Frame)) :
    b.transfers (x :: l) = (b.xfer x.1 x.2).2.transfers l := rfl

theorem transfers_append (b : Bus) (l l' : List (Word × Option Frame)) :
    b.transfers (l ++ l') = (b.transfers l).transfers l' := by
  induction l generalizing b with
  | nil => rfl
  | cons x l ih => exact ih _

/-- The transfers of a list add one event each: its request, its buffer, and a buffer back exactly for ReadFrame. -/
theorem transfers_trace (b : Bus) (l : List (Word × Option Frame)) :
    ∃ tr : List Event, (b.transfers l).trace = b.trace ++ tr ∧ tr.map (fun e => (e.cmd, e.out)) = l ∧
      ∀ e ∈ tr, e.inp.isSome = isRead e.cmd := by
  induction l generalizing b with
  | nil => exact ⟨[], by simp, rfl, by simp⟩
  | cons x l ih =>
    obtain ⟨tr, h1, h2, h3⟩ := ih (b.xfer x.1 x.2).2
    refine ⟨eventOf b x.1 x.2 :: tr, ?_, ?_, ?_⟩
    · rw [transfers_cons, h1, xfer_trace, List.append_assoc]; rfl
    · rw [List.map_cons, h2]; rfl
    · intro e he
      rcases List.mem_cons.mp he with rfl | he
      · rw [eventOf_inp, eventOf_cmd]; cases isRead x.1 <;> rfl
      · exact h3 e he

theorem transfers_draws (b : Bus) (l : List (Word × Option Frame)) : (b.transfers l).draws = b.draws + l.length := by
  induction l generalizing b with
  | nil => rfl
  | cons x l ih => rw [transfers_cons, ih, xfer_draws, List.length_cons]; omega

@[simp] theorem transfers_isOracle (b : Bus) (l : List (Word × Option Frame)) :
    (b.transfers l).isOracle = b.isOracle := by
  induction l generalizing b with
  | nil => rfl
  | cons x l ih => rw [transfers_cons, ih, xfer_isOracle]

theorem transfers_wf {b : Bus} (hm : b.mem.wf) (l : List (Word × Option Frame)) : (b.transfers l).mem.wf := by
  induction l generalizing b with
  | nil => exact hm
  | cons x l ih => exact ih (xfer_wf hm _ _)

theorem xfer_answered {b : Bus} {a : Answer} {as : List Answer} (hb : b.agent = .oracle (a :: as)) (w : Word)
    (o : Option Frame) : (b.xfer w o).1 = a ∧ (b.xfer w o).2.agent = .oracle as := by
  simp [Bus.xfer, Bus.respond, hb]

theorem xfer_drawn {b : Bus} (hb : b.agent = .oracle []) (w : Word) (o : Option Frame) :
    (b.xfer w o).1 = { resp := Config.drawWord b.draws, data := drawFrame b.draws } ∧
      (b.xfer w o).2.agent = .oracle [] := by
  simp [Bus.xfer, Bus.respond, hb]

/-- A request the block may send, with the buffer it passes (R84, R52). -/
inductive BlockRequest : Word × Option Frame → Prop
  | init : BlockRequest (requestInit, none)
  | zero : BlockRequest (requestZero, none)
  | load (c : Fin 64) : BlockRequest (requestLoad c.val, none)
  | read (f : Fin 1024) (b : Frame) : BlockRequest (requestRead f.val, some b)
  | write (f : Fin 1024) (b : Frame) : BlockRequest (requestWrite f.val, some b)
  | off : BlockRequest (requestOff, none)

/-- Between `s` and `t` the bus side has changed by transfers of the block's own requests only. -/
def Transfers (s t : State) : Prop :=
  ∃ l : List (Word × Option Frame), (∀ x ∈ l, BlockRequest x) ∧ t.bus = s.bus.transfers l

theorem Transfers.refl {s t : State} (h : t.bus = s.bus) : Transfers s t := ⟨[], by simp, h⟩

theorem Transfers.trans {s t u : State} (h₁ : Transfers s t) (h₂ : Transfers t u) : Transfers s u := by
  obtain ⟨l, hl, h1⟩ := h₁
  obtain ⟨l', hl', h2⟩ := h₂
  refine ⟨l ++ l', ?_, by rw [transfers_append, ← h1, h2]⟩
  intro x hx
  rcases List.mem_append.mp hx with hx | hx
  · exact hl x hx
  · exact hl' x hx

theorem Transfers.issue (s : State) {w : Word} {o : Option Frame} (h : BlockRequest (w, o)) :
    Transfers s (s.issue w o).2 := ⟨[(w, o)], by simpa using h, rfl⟩

theorem Transfers.same {s t u : State} (h : Transfers s t) (hb : u.bus = t.bus) : Transfers s u := by
  obtain ⟨l, hl, h1⟩ := h
  exact ⟨l, hl, hb.trans h1⟩

theorem Transfers.from {s t u : State} (hb : t.bus = s.bus) (h : Transfers t u) : Transfers s u := by
  obtain ⟨l, hl, h1⟩ := h
  exact ⟨l, hl, by rw [h1, hb]⟩

/-- What comes after a piece of a command adds its transfers to those of the piece. -/
theorem Transfers.bind {α β : Type} {s : State} {m : Flow α} {k : α → State → Flow β} (hm : Transfers s m.state)
    (hk : ∀ a t, Transfers t (k a t).state) : Transfers s (m.bind k).state := by
  cases m with
  | done a t => exact hm.trans (hk a t)
  | raised e t => exact hm

theorem transfers_busInit (s : State) : Transfers s (busInit s).state := by
  simp only [busInit, statusCheck_state]; exact Transfers.issue s .init

theorem transfers_busZero (s : State) : Transfers s (busZero s).state := by
  simp only [busZero, statusCheck_state]; exact Transfers.issue s .zero

theorem transfers_busOff (s : State) : Transfers s (busOff s).state := by
  simp only [busOff, statusCheck_state]; exact Transfers.issue s .off

theorem transfers_busLoad (c : Fin 64) (s : State) : Transfers s (busLoad c.val s).state := by
  simp only [busLoad, statusCheck_state]; exact Transfers.issue s (.load c)

theorem transfers_busRead (f : Fin 1024) (s : State) : Transfers s (busRead f.val s).state := by
  simp only [busRead, statusCheck_state]; exact (Transfers.issue s (.read f s.scratch)).same rfl

theorem transfers_busWrite (f : Fin 1024) (s : State) : Transfers s (busWrite f.val s).state := by
  simp only [busWrite, statusCheck_state]; exact Transfers.issue s (.write f s.scratch)

theorem transfers_frameFetch (a : FrameAddress) (s : State) : Transfers s (frameFetch a s).state :=
  (transfers_busLoad a.cart s).bind fun _ t => transfers_busRead a.frame t

theorem transfers_zeroCartridges (l : List (Fin 64)) (s : State) : Transfers s (zeroCartridges l s).state := by
  induction l generalizing s with
  | nil => exact Transfers.refl rfl
  | cons c l ih =>
    exact (transfers_busLoad c s).bind fun _ t => (transfers_busZero t).bind fun _ u => ih u

theorem transfers_powerOn (s : State) : Transfers s (powerOnTransfers s).state :=
  (transfers_busInit s).bind fun _ t => transfers_zeroCartridges _ t

theorem transfers_readLoop (fuel h rem : Nat) (out : List Byte) (s : State) :
    Transfers s (readLoop fuel h rem out s).state := by
  induction fuel generalizing rem out s with
  | zero => exact Transfers.refl rfl
  | succ fuel ih =>
    simp only [readLoop]
    split
    · exact Transfers.refl rfl
    · exact (transfers_frameFetch _ s).bind fun _ t => Transfers.from rfl (ih _ _ _)

theorem transfers_writeLoop (fuel h : Nat) (rest : List Byte) (s : State) :
    Transfers s (writeLoop fuel h rest s).state := by
  induction fuel generalizing rest s with
  | zero => exact Transfers.refl rfl
  | succ fuel ih =>
    simp only [writeLoop]
    split
    · exact Transfers.refl rfl
    · exact (transfers_frameFetch _ s).bind fun _ t =>
        (Transfers.from (t := modifyScratch h rest t) rfl (transfers_busWrite _ _)).bind fun _ u =>
          Transfers.from rfl (ih _ _)

theorem transfers_allocFrames (h n : Nat) (s : State) : Transfers s (allocFrames h n s).state := by
  rcases allocFrames_cases h n s with ⟨-, t, hr, -, ho⟩ | ⟨-, t, hr, -, ho⟩
  · rw [hr]; exact Transfers.refl ho.bus
  · rw [hr]; exact Transfers.refl ho.bus

theorem transfers_writeBytes (h : Nat) (data : List Byte) (s : State) : Transfers s (writeBytes h data s).state := by
  refine (transfers_allocFrames h _ s).bind fun _ t => ?_
  have hw := transfers_writeLoop data.length h data t
  cases hl : writeLoop data.length h data t with
  | done a u => rw [hl] at hw; exact hw.same (commitLength_bus h u)
  | raised e u =>
    rw [hl] at hw
    refine hw.same ?_
    show (if u.cfg.writeAbortCommitsLength then commitLength h u else u).bus = u.bus
    split
    · exact commitLength_bus h u
    · rfl

theorem resolve_state (h : Nat) (s : State) : (resolve h s).state = s := by
  unfold resolve; split
  · rfl
  · split <;> rfl

theorem openPath_bus (p : Path) (s : State) : (openPath p s).state.bus = s.bus := by
  unfold openPath
  cases s.findPath p with
  | some h => simp only [reopen]; split <;> rfl
  | none => simp only [createFile]; split <;> rfl

theorem finish_bus (m : Flow Value) : (finish m).bus = m.state.bus := by cases m <;> rfl

/-- powerOn ends with the bus side its transfers left, or, failed, with the device's state lost (R38). -/
theorem endPowerOn_bus (m : Flow Unit) :
    (endPowerOn m).state.bus = m.state.bus ∨ (endPowerOn m).state.bus = m.state.bus.lose := by
  cases m with
  | done a t => exact .inl rfl
  | raised e t => exact .inr rfl

theorem endPowerOff_bus (m : Flow Unit) : (endPowerOff m).state.bus = m.state.bus := by cases m <;> rfl

/-- Every host command that answers a next state has changed the bus side by the block's own requests only, from an
empty trace on; a powerOn, when it fails, by the loss of the device's state after them. -/
theorem host_transfers {i : Instr} (hi : isHostCommand i = true) {s t : State} (h : exec i s = .next t) :
    ∃ l : List (Word × Option Frame), (∀ x ∈ l, BlockRequest x) ∧
      (t.bus = s.start.bus.transfers l ∨ (i = .powerOn ∧ t.bus = (s.start.bus.transfers l).lose)) := by
  obtain ⟨-, ⟨rfl, rfl⟩ | ⟨-, hc⟩⟩ := host_cases hi h
  · obtain ⟨l, hl, hb⟩ := transfers_powerOn s.start
    refine ⟨l, hl, ?_⟩
    rw [finish_bus, ← hb]
    exact (endPowerOn_bus _).imp_right fun h => ⟨rfl, h⟩
  · suffices hs : Transfers s.start t by
      obtain ⟨l, hl, hb⟩ := hs
      exact ⟨l, hl, .inl hb⟩
    rcases hc with ⟨-, rfl⟩ | ⟨p, -, rfl⟩ | ⟨f, -, ⟨-, rfl⟩ | ⟨-, -, rfl⟩⟩ |
      ⟨f, -, -, ⟨-, rfl⟩ | ⟨o, -, rfl⟩ | ⟨data, -, rfl⟩ | ⟨n, -, -, rfl⟩⟩
    · exact (transfers_busOff s.start).same (by rw [finish_bus, endPowerOff_bus])
    · exact Transfers.refl (by rw [finish_bus, openPath_bus])
    · exact Transfers.refl rfl
    · exact Transfers.refl rfl
    · exact Transfers.refl rfl
    · refine Transfers.refl ?_
      rw [finish_bus, seekTo]; split <;> rfl
    · exact (transfers_writeBytes f data s.start).same (finish_bus _)
    · exact ((transfers_readLoop _ _ _ _ _).bind fun _ u => Transfers.refl rfl).same (finish_bus _)

/-- What a host command leaves of the bus side, in the events its requests make: their trace, the answers consumed, the
counter of transfers, and the frame store in its canonical form. -/
theorem host_bus {i : Instr} (hi : isHostCommand i = true) {s t : State} (h : exec i s = .next t) :
    ∃ l : List (Word × Option Frame), (∀ x ∈ l, BlockRequest x) ∧
      t.bus.trace = (s.start.bus.transfers l).trace ∧ t.bus.agent = (s.start.bus.transfers l).agent ∧
      t.bus.draws = (s.start.bus.transfers l).draws ∧ (s.bus.mem.wf → t.bus.mem.wf) := by
  obtain ⟨l, hl, hb | ⟨-, hb⟩⟩ := host_transfers hi h
  · exact ⟨l, hl, by rw [hb], by rw [hb], by rw [hb], fun hm => by rw [hb]; exact transfers_wf (b := s.start.bus) hm l⟩
  · refine ⟨l, hl, by rw [hb, lose_trace], by rw [hb, lose_agent], by rw [hb, lose_draws], fun hm => ?_⟩
    rw [hb]; exact lose_wf (transfers_wf (b := s.start.bus) hm l)

end Sys2Proof.Machine
end

