-- ==== Sys2Proof/Tests/Slice0.lean ====
section
/-! SUPPORT. The model's own tests. Expected values are written out from spec/95_test_vectors.md (V1 to V11) and from the
rules each comment cites, not from the model. The `witness_` theorems show, for the statements that have hypotheses, a
concrete state and operands that meet all of them. -/

namespace Sys2Proof.Tests

open Sys2Proof.Machine

/-! ### Ill-formed instructions (R84, R88, R117) -/

/-- A port two bits wide. -/
def narrow : Config.Params := { maxFiles := 2, lenW := 2, writeAbortCommitsLength := true }

theorem test_wellFormed_load : Instr.wellFormed narrow (.loadCartridge 64) = false := by decide
theorem test_wellFormed_readFrame : Instr.wellFormed narrow (.readFrame 1024) = false := by decide
theorem test_wellFormed_writeFrame : Instr.wellFormed narrow (.writeFrame 1024) = false := by decide
theorem test_wellFormed_close : Instr.wellFormed narrow (.close 4) = false := by decide
theorem test_wellFormed_read_handle : Instr.wellFormed narrow (.read 4 0) = false := by decide
theorem test_wellFormed_read_count : Instr.wellFormed narrow (.read 0 4) = false := by decide
theorem test_wellFormed_write_handle : Instr.wellFormed narrow (.write 4 []) = false := by decide
theorem test_wellFormed_write_data : Instr.wellFormed narrow (.write 0 [1, 2, 3, 4]) = false := by decide
theorem test_wellFormed_seek_handle : Instr.wellFormed narrow (.seek 4 0) = false := by decide
theorem test_wellFormed_seek_offset : Instr.wellFormed narrow (.seek 0 4) = false := by decide
/-- The largest operands pass. -/
theorem test_wellFormed_largest :
    (Instr.wellFormed narrow (.loadCartridge 63) && Instr.wellFormed narrow (.readFrame 1023) &&
      Instr.wellFormed narrow (.writeFrame 1023) && Instr.wellFormed narrow (.read 3 3) &&
      Instr.wellFormed narrow (.write 3 [1, 2, 3]) && Instr.wellFormed narrow (.seek 3 3) &&
      Instr.wellFormed narrow (.close 3)) = true := by decide

/-! ### The codec (V1, V2) -/

theorem test_pack_mixed : pack 3 165 1 4660 48879 = 0x03A5891A5F778000#64 := by decide
theorem test_pack_masks : pack 258 427 3 65600 132096 = 0x02AB802002000000#64 := by decide
theorem test_unpack_mixed : unpack 0x03A5891A5F778000#64 =
    { opcode := 3, key2 := 165, status := 1, cartridgeIndex := 4660, frameIndex := 48879 } := by decide
theorem test_unpack_ignores_low_bits : unpack 0x0000000000007FFF#64 =
    { opcode := 0, key2 := 0, status := 0, cartridgeIndex := 0, frameIndex := 0 } := by decide
theorem test_repack : (unpack 0x04000000003F8007#64).repack = 0x04000000003F8000#64 := by decide

/-! ### Decoding: each constructor by its word (V3, R88, R89) -/

theorem test_decode_initSystem : decodeTableWord 64 0x0000000000000000 = some .initSystem := by decide
theorem test_decode_zeroCartridge : decodeTableWord 64 0x0100000000000000 = some .zeroCartridge := by decide
theorem test_decode_loadCartridge : decodeTableWord 64 0x0200001F80000000 = some (.loadCartridge 63) := by decide
theorem test_decode_loadCartridge_1 : decodeTableWord 64 0x0200000080000000 = some (.loadCartridge 1) := by decide
theorem test_decode_readFrame : decodeTableWord 64 0x0300000001FF8000 = some (.readFrame 1023) := by decide
theorem test_decode_readFrame_1 : decodeTableWord 64 0x0300000000008000 = some (.readFrame 1) := by decide
theorem test_decode_writeFrame : decodeTableWord 64 0x0400000001FF8000 = some (.writeFrame 1023) := by decide
theorem test_decode_writeFrame_2 : decodeTableWord 64 0x0400000000010000 = some (.writeFrame 2) := by decide
theorem test_decode_busPowerOff : decodeTableWord 64 0x0500000000000000 = some .busPowerOff := by decide
theorem test_decode_powerOn : decodeTableWord 8 0 = some .powerOn := by decide
theorem test_decode_powerOff : decodeTableWord 8 1 = some .powerOff := by decide
theorem test_decode_open : decodeTableWord 8 2 = some (.openFile []) := by decide
theorem test_decode_close : decodeTableWord 8 3 = some (.close 0) := by decide
theorem test_decode_read : decodeTableWord 8 4 = some (.read 0 0) := by decide
theorem test_decode_write : decodeTableWord 8 5 = some (.write 0 []) := by decide
theorem test_decode_seek : decodeTableWord 8 6 = some (.seek 0 0) := by decide
theorem test_decode_reserved7 : decodeTableWord 8 7 = some .reserved7 := by decide
/-- Words that are no request, each for the reason its error names (R84 to R86, R54). -/
theorem test_decode_refuses :
    decode (.bus 0x0600000000000000#64) = .error (.reservedOpcode 6) ∧
    decode (.bus 0x0001000000000000#64) = .error .key2NotZero ∧
    decode (.bus 0x0300800000008000#64) = .error .statusNotZero ∧
    decode (.bus 0x0300000080000000#64) = .error .unusedFieldNotZero ∧
    decode (.bus 0x04000000003F8007#64) = .error .unusedBitsNotZero := by decide

/-! ### Small machines -/

/-- An answer that reports success, and one that reports failure (V3). -/
def ok : Answer := { resp := 0, data := Frame.zero }
def fail : Answer := { resp := 0x0000800000000000#64, data := Frame.zero }

/-- Every byte zero but those listed. -/
def zeroed (cells : List Host.Cell) : Memory := { base := Vector.replicate 64 .zero, cells := cells }

/-- A powered, idle machine before the reference device, with this table and this `next_free`. -/
def machine (ft : List FileRecord) (n : Fin 65537) (cells : List Host.Cell) : State :=
  { State.reset with
    cfg      := { maxFiles := 2, lenW := 32, writeAbortCommitsLength := true }
    powered  := true
    nextFree := n
    nFiles   := ft.length
    ft       := ft
    bus      := { agent := .reference [], mounted := some 0, mem := zeroed cells, draws := 1, trace := [] } }

/-- The machine with answers of our own in place of the reference device. -/
def answered (s : State) (as : List Answer) : State := { s with bus := { s.bus with agent := .oracle as } }

/-- The machine after an instruction, or as it was where the instruction stops. -/
def after (i : Instr) (s : State) : State :=
  match exec i s with
  | .next t => t
  | .fault _ => s
  | .refused _ => s

/-- The instruction answers a next state. -/
def completes (i : Instr) (s : State) : Bool :=
  match exec i s with
  | .next _ => true
  | .fault _ => false
  | .refused _ => false

theorem next_of_completes {i : Instr} {s : State} (h : completes i s = true) : exec i s = .next (after i s) := by
  unfold completes at h
  unfold after
  cases hx : exec i s with
  | next t => rfl
  | fault r => rw [hx] at h; cases h
  | refused r => rw [hx] at h; cases h

/-- The request words a machine's last command sent. -/
def sent (s : State) : List Word := s.bus.trace.map (fun e => e.cmd)

/-- The state of V7 and V9: one open file of 2500 bytes in frames `(0,0)`, `(0,1)`, `(0,2)`; of its bytes the one at
position 2499 is written out, `0xAB`. -/
def oneFile (cursor : Nat) : State :=
  machine [{ path := [97], isOpen := true, endPos := 2500, cursor := cursor,
             frames := [⟨0, 0⟩, ⟨0, 1⟩, ⟨0, 2⟩] }] 3 [(2499, 0xAB#8)]

/-- Two files of a session: "a" open with two bytes `x`, `y` and its cursor at 1; "b" closed with one frame. -/
def twoFiles : State :=
  machine [{ path := [97], isOpen := true, endPos := 2, cursor := 1, frames := [⟨0, 0⟩] },
           { path := [98], isOpen := false, endPos := 1, cursor := 1, frames := [⟨0, 1⟩] }] 2 [(0, 0x78#8), (1, 0x79#8)]

/-- One open, empty file and this many frames taken from the pool. -/
def emptyFile (n : Fin 65537) : State :=
  machine [{ path := [97], isOpen := true, endPos := 0, cursor := 0, frames := [] }] n []

/-! ### The bus commands (V3): a failing answer is DeviceError, any other is not (R53, R55) -/

theorem test_initSystem : (after .initSystem (answered (emptyFile 0) [fail])).result = some (.error .deviceError) ∧
    sent (after .initSystem (emptyFile 0)) = [0x0000000000000000#64] := by decide +kernel
theorem test_zeroCartridge : (after .zeroCartridge twoFiles).bus.mem.read 1 = 0 ∧
    sent (after .zeroCartridge twoFiles) = [0x0100000000000000#64] := by decide +kernel
theorem test_loadCartridge : (after (.loadCartridge 63) twoFiles).bus.mounted = some 63 ∧
    sent (after (.loadCartridge 63) twoFiles) = [0x0200001F80000000#64] := by decide +kernel
theorem test_readFrame : (after (.readFrame 0) twoFiles).scratch.bytes.take 3 = [0x78, 0x79, 0] ∧
    sent (after (.readFrame 0) twoFiles) = [0x0300000000000000#64] := by decide +kernel
theorem test_writeFrame : (after (.writeFrame 0) twoFiles).bus.mem.cells = [] ∧
    sent (after (.writeFrame 0) twoFiles) = [0x0400000000000000#64] := by decide +kernel
theorem test_busPowerOff : (after .busPowerOff (answered twoFiles [{ resp := 0xFFFF7FFFFFFFFFFF#64, data := Frame.zero }])).result =
      some (.success .unit) ∧
    sent (after .busPowerOff twoFiles) = [0x0500000000000000#64] := by decide +kernel

/-! ### Lifecycle (V10) -/

theorem test_powerOn : (after .powerOn twoFiles).result = some (.success .unit) ∧ (sent (after .powerOn twoFiles)).length = 129 ∧
    (after .powerOn twoFiles).bus.mounted = some 63 ∧ (after .powerOn twoFiles).nFiles = 0 := by decide +kernel
theorem test_powerOn_fourth_fails : (after .powerOn (answered twoFiles [ok, ok, ok, fail])).result = some (.error .deviceError) ∧
    sent (after .powerOn (answered twoFiles [ok, ok, ok, fail])) =
      [0x0000000000000000#64, 0x0200000000000000#64, 0x0100000000000000#64, 0x0200000080000000#64] ∧
    (after .powerOn (answered twoFiles [ok, ok, ok, fail])).powered = false ∧
    -- R38: the device's frames are unspecified afterwards, those of the cartridge already zeroed too
    Background.zero ∉ (after .powerOn { twoFiles with bus := { twoFiles.bus with
      agent := .reference [none, none, none, some fail.resp] } }).bus.mem.base := by decide +kernel
theorem test_powerOff : (after .powerOff twoFiles).result = some (.success .unit) ∧ (after .powerOff twoFiles).powered = false := by
  decide +kernel
theorem test_powerOff_fails : (after .powerOff (answered twoFiles [fail])).result = some (.error .deviceError) ∧
    (after .powerOff (answered twoFiles [fail])).powered = true ∧ (after .powerOff (answered twoFiles [fail])).nFiles = 2 := by
  decide +kernel

/-! ### The File Table (V6, V11) -/

theorem test_open_reopens : (after (.openFile [98]) twoFiles).result = some (.success (.handle 1)) ∧
    ((after (.openFile [98]) twoFiles).record 1).cursor = 0 ∧ ((after (.openFile [98]) twoFiles).record 1).endPos = 1 := by
  decide +kernel
theorem test_open_errors : (after (.openFile [97]) twoFiles).result = some (.error .alreadyOpen) ∧
    (after (.openFile [99]) twoFiles).result = some (.error .tooManyFiles) ∧
    (after (.openFile [99]) (emptyFile 0)).result = some (.success (.handle 1)) := by decide +kernel
theorem test_close : (after (.close 0) twoFiles).result = some (.success .unit) ∧
    ((after (.close 0) twoFiles).record 0).isOpen = false ∧
    (after (.close 1) twoFiles).result = some (.error .notOpen) ∧
    (after (.close 2) twoFiles).result = some (.error .invalidHandle) := by decide +kernel
theorem test_seek : (after (.seek 0 2500) (oneFile 7)).result = some (.success .unit) ∧
    ((after (.seek 0 2500) (oneFile 7)).record 0).cursor = 2500 := by decide +kernel
theorem test_seek_outOfRange : (after (.seek 0 2501) (oneFile 7)).result = some (.error .outOfRange) ∧
    ((after (.seek 0 2501) (oneFile 7)).record 0).cursor = 7 ∧
    (after (.seek 1 9) twoFiles).result = some (.error .notOpen) := by decide +kernel

/-! ### The Read/Write Engine (V7, V8) -/

theorem test_read_short : (after (.read 0 10) (oneFile 2499)).result = some (.success (.data [0xAB])) ∧
    ((after (.read 0 10) (oneFile 2499)).record 0).cursor = 2500 ∧
    sent (after (.read 0 10) (oneFile 2499)) = [0x0200000000000000#64, 0x0300000000010000#64] := by decide +kernel
theorem test_read_third_fails :
    (after (.read 0 100) (answered (oneFile 1000) [ok, ok, fail])).result = some (.error .deviceError) ∧
    ((after (.read 0 100) (answered (oneFile 1000) [ok, ok, fail])).record 0).cursor = 1024 := by decide +kernel
theorem test_write_appends : (after (.write 0 [1, 2]) twoFiles).result = some (.success (.written 2)) ∧
    (after (.write 0 [1, 2]) twoFiles).bus.mem.cells = [(0, 0x78#8), (1, 1#8), (2, 2#8)] ∧
    ((after (.write 0 [1, 2]) twoFiles).record 0).endPos = 3 := by decide +kernel
theorem test_write_abort :
    (after (.write 0 (List.replicate 3000 7)) (answered (emptyFile 0) [ok, ok, ok, ok, fail])).result =
      some (.error .deviceError) ∧
    ((after (.write 0 (List.replicate 3000 7)) (answered (emptyFile 0) [ok, ok, ok, ok, fail])).record 0).endPos = 1024 ∧
    (after (.write 0 (List.replicate 3000 7)) (answered (emptyFile 0) [ok, ok, ok, ok, fail])).nextFree = 3 := by
  decide +kernel
theorem test_write_deviceFull :
    (after (.write 0 (List.replicate 3000 7)) (emptyFile 65534)).result = some (.error .deviceFull) ∧
    ((after (.write 0 (List.replicate 3000 7)) (emptyFile 65534)).record 0).frames = [⟨63, 1022⟩, ⟨63, 1023⟩] ∧
    (after (.write 0 (List.replicate 3000 7)) (emptyFile 65534)).nextFree = 65536 := by decide +kernel
theorem test_reserved7 : exec .reserved7 twoFiles = .refused .reservedCommand := rfl
theorem test_refused_unpowered : exec (.openFile [97]) State.reset = .refused .notPowered := rfl

/-! ### The step and the fetch -/

theorem test_fetch_host : step (State.reset.withFetchWord 8 0) = exec .powerOn State.reset := rfl
/-- The request words after one step. -/
def sentByStep (s : State) : List Word :=
  match step s with
  | .next t => sent t
  | .fault _ => []
  | .refused _ => []

theorem test_fetch_bus : sentByStep (twoFiles.withFetchWord 64 0x0500000000000000) = [0x0500000000000000#64] := by
  decide +kernel
theorem test_fetch_write : sentByStep (twoFiles.withFetch (.host { hcmd := 5, path := [], handle := 0, number := 0, data := [1] })) =
    [0x0200000000000000#64, 0x0300000000000000#64, 0x0400000000000000#64] := by decide +kernel

/-! ### Witnesses: codec, decoding and stops -/

/-- UnpackOfPackMasksEachField, in range: every field at its maximum. -/
theorem witness_pack_in_range : 255 < 256 ∧ 255 < 256 ∧ 1 < 2 ∧ 65535 < 65536 ∧ 65535 < 65536 := by decide
/-- PackOfUnpackClearsUnusedBits: equal packings, and a word in the image. -/
theorem witness_repack : (unpack 0x03A5891A5F778000#64).repack = (unpack 0x03A5891A5F77FFFF#64).repack ∧
    0x03A5891A5F778000#64 &&& 0x7FFF#64 = 0#64 := by decide
/-- FieldsAreIndependent: two different words that agree in each field in turn. -/
theorem witness_fields :
    0x0200000000000000#64 &&& 0xFF00000000000000#64 = 0x02FFFFFFFFFFFFFF#64 &&& 0xFF00000000000000#64 ∧
    0x00A5000000000000#64 &&& 0x00FF000000000000#64 = 0xFFA5FFFFFFFFFFFF#64 &&& 0x00FF000000000000#64 ∧
    0x0000800000000000#64 &&& 0x0000800000000000#64 = 0xFFFFFFFFFFFFFFFF#64 &&& 0x0000800000000000#64 ∧
    0x0000001F80000000#64 &&& 0x00007FFF80000000#64 = 0xFFFF801FFFFFFFFF#64 &&& 0x00007FFF80000000#64 ∧
    0x0000000001FF8000#64 &&& 0x000000007FFF8000#64 = 0xFFFFFFFF81FFFFFF#64 &&& 0x000000007FFF8000#64 := by decide
/-- OpcodeNumbersNameSixCommands: the last number that names a command, and the first that names none. -/
theorem witness_opcodes : BusCommand.ofCode 5 = some .powerOff ∧ 6 ≤ (unpack 0x0600000000000000#64).opcode.toNat := by decide
/-- DecodedWordIsTheRequestWord. -/
theorem witness_decoded : decode (.bus 0x0200001F80000000#64) = .ok (.loadCartridge 63) ∧
    decode (.host { hcmd := 6, path := [97], handle := 7, number := 100, data := [1] }) = .ok (.seek 7 100) := by decide
/-- StepRunsTheDecodedCommand: a presented host command, a waiting request word, a word that is no request, nothing. -/
theorem witness_step_host : (twoFiles.withFetch (.host (.bare 1))).seq = .idle ∧
    (twoFiles.withFetch (.host (.bare 1))).pending = [.bare 1] ∧ decode (.host (.bare 1)) = .ok .powerOff := by decide +kernel
theorem witness_step_bus : (twoFiles.withFetch (.bus 0x0500000000000000#64)).seq = .waiting 0x0500000000000000#64 .single ∧
    decode (.bus 0x0500000000000000#64) = .ok .busPowerOff ∧
    ∃ t, exec .busPowerOff (twoFiles.withFetch (.bus 0x0500000000000000#64)) = .next t :=
  ⟨rfl, by decide, _, next_of_completes (by decide +kernel)⟩
theorem witness_step_error :
    (twoFiles.withFetch (.bus 0x0600000000000000#64)).seq = .waiting 0x0600000000000000#64 .single ∧
    decode (.bus 0x0600000000000000#64) = .error (.reservedOpcode 6) := ⟨rfl, by decide⟩
theorem witness_step_waits : twoFiles.seq = .idle ∧ twoFiles.pending = [] := by decide +kernel
/-- CommandsRefusedWhileUnpowered. -/
theorem witness_unpowered : State.reset.seq = .idle ∧ State.reset.powered = false ∧ isHostCommand (.close 0) = true ∧
    Instr.close 0 ≠ .powerOn := by decide +kernel
/-- ReservedHostCodeRefused. -/
theorem witness_reserved : (twoFiles.withFetch (.host (.bare 7))).seq = .idle ∧
    (twoFiles.withFetch (.host (.bare 7))).pending = [.bare 7] ∧ (HostWord.bare 7).hcmd = 7#3 := by decide +kernel
/-- OverlappingHostCommandFaults. -/
theorem witness_overlap : (twoFiles.withFetch (.bus 0x0200000000000000#64)).seq = .waiting 0x0200000000000000#64 .single ∧
    isHostCommand .powerOn = true := by decide +kernel
/-- UnlistedRequestsFault: nothing mounted, and an index just out of range. -/
theorem witness_unlisted :
    (isBusCommand .zeroCartridge = true ∧
      ¬ Ready { twoFiles with bus := { twoFiles.bus with mounted := none } } .zeroCartridge) ∧
    (isBusCommand (.loadCartridge 64) = true ∧ ¬ Ready twoFiles (.loadCartridge 64)) ∧
    (isBusCommand (.readFrame 1024) = true ∧ ¬ Ready twoFiles (.readFrame 1024)) ∧
    (isBusCommand (.writeFrame 1024) = true ∧ ¬ Ready twoFiles (.writeFrame 1024)) := by
  refine ⟨⟨rfl, ?_⟩, ⟨rfl, ?_⟩, ⟨rfl, ?_⟩, ⟨rfl, ?_⟩⟩ <;>
    simp [Ready, Bus.isOracle, Bus.lists, twoFiles, machine]
/-- A record whose frame list is one frame short of its length: no state of a session has one. -/
def shortFile : State :=
  machine [{ path := [97], isOpen := true, endPos := 1025, cursor := 1024, frames := [⟨0, 0⟩] }] 1 []
/-- UncoveredReadStops. -/
theorem witness_uncovered : Usable shortFile 0 ∧
    min 1 ((shortFile.record 0).endPos - (shortFile.record 0).cursor) ≠ 0 ∧
    1024 * (shortFile.record 0).frames.length <
      (shortFile.record 0).cursor + min 1 ((shortFile.record 0).endPos - (shortFile.record 0).cursor) :=
  ⟨⟨rfl, rfl, by decide, rfl⟩, by decide, by decide⟩

/-! ### Witnesses: the bus commands -/

/-- SessionBusCommandsAreOneTransfer and FrameBusCommandsAreOneTransfer: the reference device at its last indices, and any
other Bus Transport at an index no device has. -/
theorem witness_ready : Ready twoFiles .zeroCartridge ∧ Ready twoFiles (.loadCartridge 63) ∧ Ready twoFiles (.readFrame 1023) ∧
    Ready twoFiles (.writeFrame 1023) ∧ Ready (answered twoFiles []) (.loadCartridge 65535) := by
  simp [Ready, Bus.isOracle, Bus.lists, twoFiles, machine, answered]
/-- BusCommandsLeaveOtherBytes, clause by clause; the last with a Bus Transport other than the reference device. -/
theorem witness_bus_commands : (∃ t, exec (.loadCartridge 63) twoFiles = .next t) ∧ (∃ t, exec (.readFrame 1023) twoFiles = .next t) ∧
    (twoFiles.bus.mounted = some 0 ∧ ∃ t, exec (.writeFrame 1023) twoFiles = .next t) ∧
    (∃ t, exec .zeroCartridge twoFiles = .next t) ∧
    ((answered twoFiles [fail]).bus.isOracle = true ∧ ∃ t, exec (.writeFrame 0) (answered twoFiles [fail]) = .next t) :=
  ⟨⟨_, next_of_completes (by decide +kernel)⟩, ⟨_, next_of_completes (by decide +kernel)⟩,
   ⟨rfl, _, next_of_completes (by decide +kernel)⟩, ⟨_, next_of_completes (by decide +kernel)⟩,
   rfl, _, next_of_completes (by decide +kernel)⟩
/-- TransfersAreAnsweredAndRecorded: an answer given, and none left. -/
theorem witness_answers : (answered twoFiles [fail]).bus.agent = .oracle (fail :: []) ∧
    (answered twoFiles []).bus.agent = .oracle [] ∧ 1023 < 1024 := ⟨rfl, rfl, by decide⟩
/-- ReferenceDeviceFollowsItsTable: a request of each of the six rows, at the largest indices. -/
theorem witness_reference : twoFiles.bus.agent = .reference [] ∧ twoFiles.bus.mounted = some 0 ∧
    ((unpack 0x0000000000000000#64).status = 0#1 ∧ (unpack 0x0000000000000000#64).opcode = 0#8) ∧
    ((unpack 0x0100000000000000#64).status = 0#1 ∧ (unpack 0x0100000000000000#64).opcode = 1#8) ∧
    ((unpack 0x0200001F80000000#64).status = 0#1 ∧ (unpack 0x0200001F80000000#64).opcode = 2#8 ∧
      (unpack 0x0200001F80000000#64).cartridgeIndex.toNat = (63 : Fin 64).val) ∧
    ((unpack 0x0300000001FF8000#64).status = 0#1 ∧ (unpack 0x0300000001FF8000#64).opcode = 3#8 ∧
      (unpack 0x0300000001FF8000#64).frameIndex.toNat = (1023 : Fin 1024).val) ∧
    ((unpack 0x0400000001FF8000#64).status = 0#1 ∧ (unpack 0x0400000001FF8000#64).opcode = 4#8 ∧
      (unpack 0x0400000001FF8000#64).frameIndex.toNat = (1023 : Fin 1024).val) ∧
    ((unpack 0x0500000000000000#64).status = 0#1 ∧ (unpack 0x0500000000000000#64).opcode = 5#8) ∧
    (some Frame.zero = some Frame.zero) := by
  refine ⟨rfl, rfl, ?_, ?_, ?_, ?_, ?_, ?_, rfl⟩ <;> decide

/-! ### Witnesses: power and the File Table -/

/-- The session invariant holds of two files. -/
theorem witness_sessionInv : SessionInv twoFiles where
  count := rfl
  capacity := by decide
  paths := by decide
  pool := by decide
  frames := by decide
  cursor := by decide
/-- EveryStepKeepsTheInvariant, HostCommandsNeverFaultUnderTheInvariant. -/
theorem witness_inv : Inv twoFiles where
  mem := by decide +kernel
  quiet := .inl rfl
  session := fun _ => witness_sessionInv
theorem witness_inv_step : Inv { twoFiles with pending := [.bare 0] } ∧
    ∃ t, step { twoFiles with pending := [.bare 0] } = .next t := by
  refine ⟨⟨witness_inv.mem, .inl rfl, fun _ => witness_sessionInv.congr rfl rfl rfl rfl⟩, ?_⟩
  exact ⟨_, next_of_completes (i := .powerOn) (s := twoFiles) (by decide +kernel)⟩
theorem witness_inv_command : Inv twoFiles ∧ twoFiles.seq = .idle ∧ isHostCommand (.read 0 1) = true :=
  ⟨witness_inv, rfl, rfl⟩
/-- PowerOnStartsASessionOrStops, from hardware reset and from a session. -/
theorem witness_powerOn : State.reset.seq = .idle ∧ twoFiles.seq = .idle := ⟨rfl, rfl⟩
/-- PowerOnZeroesTheReferenceDevice. -/
theorem witness_powerOn_reference : twoFiles.seq = .idle ∧ Undisturbed twoFiles ∧ 67108863 < 67108864 := ⟨rfl, rfl, by decide⟩
/-- PowerOffEndsTheSession. -/
theorem witness_powerOff : twoFiles.seq = .idle ∧ twoFiles.powered = true ∧ Undisturbed twoFiles := ⟨rfl, rfl, rfl⟩
/-- OpenFollowsItsRule, clause by clause: a known open path, a known closed one, an unknown one without and with room. -/
theorem witness_open : twoFiles.seq = .idle ∧ twoFiles.powered = true ∧
    (0 < twoFiles.nFiles ∧ (twoFiles.record 0).path = [97] ∧
      (∀ j, j < twoFiles.nFiles → (twoFiles.record j).path = [97] → j = 0) ∧ (twoFiles.record 0).isOpen = true) ∧
    (1 < twoFiles.nFiles ∧ (twoFiles.record 1).path = [98] ∧
      (∀ j, j < twoFiles.nFiles → (twoFiles.record j).path = [98] → j = 1) ∧ (twoFiles.record 1).isOpen = false) ∧
    ((∀ j, j < twoFiles.nFiles → (twoFiles.record j).path ≠ [99]) ∧ twoFiles.nFiles = twoFiles.cfg.maxFiles) ∧
    ((emptyFile 0).seq = .idle ∧ (emptyFile 0).powered = true ∧
      (∀ j, j < (emptyFile 0).nFiles → ((emptyFile 0).record j).path ≠ [99]) ∧
      (emptyFile 0).nFiles < (emptyFile 0).cfg.maxFiles) :=
  ⟨rfl, rfl, by decide, by decide, by decide, rfl, rfl, by decide⟩
/-- HandleChecksComeFirst, CloseClearsTheOpenFlag, SeekFollowsItsRule: the first unknown handle, a closed one, an open one. -/
theorem witness_handles : twoFiles.seq = .idle ∧ twoFiles.powered = true ∧ twoFiles.nFiles ≤ 2 ∧
    (1 < twoFiles.nFiles ∧ (twoFiles.record 1).isOpen = false) ∧
    (0 < twoFiles.nFiles ∧ (twoFiles.record 0).isOpen = true) := ⟨rfl, rfl, by decide, by decide, by decide⟩
/-- ReopenKeepsTheFile. -/
theorem witness_usable : Usable twoFiles 0 ∧
    ∀ j, j < twoFiles.nFiles → (twoFiles.record j).path = (twoFiles.record 0).path → j = 0 :=
  ⟨⟨rfl, rfl, by decide, rfl⟩, by decide⟩
/-- SeekFollowsItsRule: the position at the end, and the one after it (S5). -/
theorem witness_seek : (oneFile 7).seq = .idle ∧ (oneFile 7).powered = true ∧
    (0 < (oneFile 7).nFiles ∧ ((oneFile 7).record 0).isOpen = true) ∧ 2500 ≤ ((oneFile 7).record 0).endPos ∧ ((oneFile 7).record 0).endPos < 2501 :=
  ⟨rfl, rfl, by decide, by decide, by decide⟩
/-- AllocateTakesTheLowestFreeAddress, AllocationAndAppendAreOneStep: the empty pool, and its last address. -/
theorem witness_allocate : (emptyFile 65536).nextFree.val = 65536 ∧ (emptyFile 65535).nextFree.val < 65536 := by decide
/-- FramesBelongToOneFile, PositionsFitTheirRegisters: two files. -/
theorem witness_frames : SessionInv twoFiles ∧ 0 < twoFiles.nFiles ∧ 1 < twoFiles.nFiles ∧ 0 ≠ 1 ∧
    ⟨0, 0⟩ ∈ (twoFiles.record 0).frames ∧ twoFiles.cfg.writeAbortCommitsLength = true :=
  ⟨witness_sessionInv, by decide, by decide, by decide, by decide, rfl⟩

/-! ### Witnesses: the Read/Write Engine -/

/-- ChunksStayInsideTheBuffer: one byte in the first frame, one in the second. -/
theorem witness_chunks : 0 < 2 ∧ ((oneFile 1023).record 0).cursor + 2 ≤ 1024 * ((oneFile 1023).record 0).frames.length ∧
    chunkSize ((oneFile 1023).record 0) 2 < 2 := by decide
/-- ReadDeliversOrAborts, ReadReturnsTheFileBytes: nothing to read at the end, and the last byte. -/
theorem witness_read : (Usable (oneFile 2500) 0 ∧ Undisturbed (oneFile 2500) ∧
      0 = min 10 (((oneFile 2500).record 0).endPos - ((oneFile 2500).record 0).cursor)) ∧
    (Usable (oneFile 2499) 0 ∧ Undisturbed (oneFile 2499) ∧
      1 = min 10 (((oneFile 2499).record 0).endPos - ((oneFile 2499).record 0).cursor) ∧
      ((oneFile 2499).record 0).cursor + 1 ≤ 1024 * ((oneFile 2499).record 0).frames.length) :=
  ⟨⟨⟨rfl, rfl, by decide, rfl⟩, rfl, by decide⟩, ⟨rfl, rfl, by decide, rfl⟩, rfl, by decide, by decide⟩
/-- WriteStoresOrAborts: the last free frame is taken; and a write that needs none. -/
theorem witness_write : Usable (emptyFile 65535) 0 ∧
    1 = (((emptyFile 65535).record 0).cursor + [1#8].length + 1023) / 1024 - ((emptyFile 65535).record 0).frames.length ∧
    (emptyFile 65535).nextFree.val + 1 ≤ 65536 ∧
    (Usable (emptyFile 65536) 0 ∧
      0 = (((emptyFile 65536).record 0).cursor + ([] : List Byte).length + 1023) / 1024 -
        ((emptyFile 65536).record 0).frames.length ∧ (emptyFile 65536).nextFree.val + 0 ≤ 65536) :=
  ⟨⟨rfl, rfl, by decide, rfl⟩, by decide, by decide, ⟨rfl, rfl, by decide, rfl⟩, by decide, by decide⟩
/-- WriteWithoutRoomIsDeviceFull: one frame left, two needed. -/
theorem witness_write_full : Usable (emptyFile 65535) 0 ∧
    65536 < (emptyFile 65535).nextFree.val +
      ((((emptyFile 65535).record 0).cursor + (List.replicate 1025 (0 : Byte)).length + 1023) / 1024 -
        ((emptyFile 65535).record 0).frames.length) := by
  refine ⟨⟨rfl, rfl, by decide, rfl⟩, ?_⟩
  rw [List.length_replicate]
  decide
/-- WriteChangesTheFileBytes, ReadReturnsWhatWasWritten. -/
theorem witness_write_reference : Inv twoFiles ∧ Usable twoFiles 0 ∧ Undisturbed twoFiles ∧
    twoFiles.nextFree.val + (((twoFiles.record 0).cursor + [1#8, 2#8].length + 1023) / 1024 -
      (twoFiles.record 0).frames.length) ≤ 65536 :=
  ⟨witness_inv, ⟨rfl, rfl, by decide, rfl⟩, rfl, by decide⟩
/-- WritesLeaveOtherFilesAlone, ReadsIgnoreWritesToOtherFiles. -/
theorem witness_write_other : Inv twoFiles ∧ Undisturbed twoFiles ∧ (∃ t, exec (.write 0 [1, 2]) twoFiles = .next t) ∧
    (∃ u, exec (.read 1 1) twoFiles = .next u) ∧ 1 < twoFiles.nFiles ∧ 1 ≠ 0 :=
  ⟨witness_inv, rfl, ⟨_, next_of_completes (by decide +kernel)⟩, ⟨_, next_of_completes (by decide +kernel)⟩,
   by decide, by decide⟩

/-! ### Witnesses: over all host commands -/

/-- Each host command answers a next state (RegistersAreWrittenByTheirCommandsOnly, RecordsPersistWithinASession,
OpenFlagsFollowTheStateMachine, ResultsOfEachCommand, DeviceErrorExactlyAtTheFirstFailure, RequestsObeyTheBusContract,
SequencerAgreesWithTheWholeCommand, StaleScratchIsNotObservable). -/
theorem witness_host_commands :
    (∃ t, exec .powerOn twoFiles = .next t) ∧ (∃ t, exec .powerOff twoFiles = .next t) ∧
    (∃ t, exec (.openFile [98]) twoFiles = .next t) ∧ (∃ t, exec (.close 0) twoFiles = .next t) ∧
    (∃ t, exec (.read 0 5) twoFiles = .next t) ∧ (∃ t, exec (.write 0 [1]) twoFiles = .next t) ∧
    (∃ t, exec (.seek 0 2) twoFiles = .next t) :=
  ⟨⟨_, next_of_completes (by decide +kernel)⟩, ⟨_, next_of_completes (by decide +kernel)⟩,
   ⟨_, next_of_completes (by decide +kernel)⟩, ⟨_, next_of_completes (by decide +kernel)⟩,
   ⟨_, next_of_completes (by decide +kernel)⟩, ⟨_, next_of_completes (by decide +kernel)⟩,
   ⟨_, next_of_completes (by decide +kernel)⟩⟩
/-- EarlyErrorsArePrecise: an error of the handle checks, and DeviceFull with the pool already empty (V8). -/
theorem witness_early_errors :
    (∃ t, exec (.close 1) twoFiles = .next t ∧ t.result = some (.error .notOpen)) ∧
    (∃ t, exec (.write 0 [1]) (emptyFile 65536) = .next t ∧ t.result = some (.error .deviceFull) ∧
      (emptyFile 65536).nextFree.val = 65536) :=
  ⟨⟨_, next_of_completes (by decide +kernel), by decide +kernel⟩,
   ⟨_, next_of_completes (by decide +kernel), by decide +kernel, by decide⟩⟩
/-- TransferCountsOfSuccess: commands that succeed. -/
theorem witness_success :
    (∃ t, exec .powerOn twoFiles = .next t ∧ t.result = some (.success .unit)) ∧
    (∃ t, exec .powerOff twoFiles = .next t ∧ t.result = some (.success .unit)) ∧
    (∃ t, exec (.openFile [98]) twoFiles = .next t ∧ t.result = some (.success (.handle 1))) ∧
    (∃ t, exec (.close 0) twoFiles = .next t ∧ t.result = some (.success .unit)) ∧
    (∃ t, exec (.seek 0 2) twoFiles = .next t ∧ t.result = some (.success .unit)) ∧
    (∃ t, exec (.read 0 5) twoFiles = .next t ∧ t.result = some (.success (.data [0x79]))) ∧
    (∃ t, exec (.write 0 [1]) twoFiles = .next t ∧ t.result = some (.success (.written 1))) :=
  ⟨⟨_, next_of_completes (by decide +kernel), by decide +kernel⟩, ⟨_, next_of_completes (by decide +kernel), by decide +kernel⟩,
   ⟨_, next_of_completes (by decide +kernel), by decide +kernel⟩, ⟨_, next_of_completes (by decide +kernel), by decide +kernel⟩,
   ⟨_, next_of_completes (by decide +kernel), by decide +kernel⟩, ⟨_, next_of_completes (by decide +kernel), by decide +kernel⟩,
   ⟨_, next_of_completes (by decide +kernel), by decide +kernel⟩⟩
/-- AnswersAreTakenInOrder, ResponsesAreReadForStatusOnly: a command that stops at its second answer, and answers that
agree with its own in status and data but in no other bit. -/
theorem witness_oracle : isHostCommand (.read 0 1) = true ∧ (answered twoFiles [ok, fail]).bus.agent = .oracle [ok, fail] ∧
    (∃ t, exec (.read 0 1) (answered twoFiles [ok, fail]) = .next t) ∧
    List.Forall₂ (fun a b : Answer => failed a.resp = failed b.resp ∧ a.data = b.data) [ok, fail]
      [{ resp := 0xFFFF7FFFFFFFFFFF#64, data := Frame.zero }, { resp := 0xFFFFFFFFFFFFFFFF#64, data := Frame.zero }] := by
  refine ⟨rfl, rfl, ⟨_, next_of_completes (by decide +kernel)⟩, ?_⟩
  refine .cons ⟨by decide, rfl⟩ (.cons ⟨by decide, rfl⟩ .nil)

end Sys2Proof.Tests
end

section
/-! SUPPORT. What any Bus Transport answers, transfer by transfer (spec/00_scope.md R12, R14; spec/20_memory.md R56, R58):
the answers it holds in their order, then free draws, and the events that record them. -/

namespace Sys2Proof.Machine

/-- The answer to transfer number `k`, counted from 0, of a Bus Transport that holds the answers `as` when the next free
draw is `n`: the `k`-th it holds, or else what is drawn for that transfer (R14). -/
def oracleAnswer (as : List Answer) (n k : Nat) : Answer :=
  as.getD k { resp := Config.drawWord (n + k), data := drawFrame (n + k) }

theorem oracleAnswer_of_some {as : List Answer} {k : Nat} {a : Answer} (h : as[k]? = some a) (n : Nat) :
    oracleAnswer as n k = a := by
  rw [oracleAnswer, List.getD_eq_getElem?_getD, h, Option.getD_some]

theorem oracleAnswer_of_none {as : List Answer} {k : Nat} (h : as[k]? = none) (n : Nat) :
    oracleAnswer as n k = { resp := Config.drawWord (n + k), data := drawFrame (n + k) } := by
  rw [oracleAnswer, List.getD_eq_getElem?_getD, h, Option.getD_none]

/-- After one transfer the Bus Transport goes on with its next answer. -/
theorem oracleAnswer_tail (as : List Answer) (n k : Nat) :
    oracleAnswer as.tail (n + 1) k = oracleAnswer as n (k + 1) := by
  simp only [oracleAnswer, List.getD_eq_getElem?_getD, List.getElem?_tail]
  rw [Nat.add_right_comm, Nat.add_assoc]

/-- The event records the answer `a`: its response, and its buffer where the event has one (R58). -/
def Event.records (e : Event) (a : Answer) : Prop := e.resp = a.resp ∧ ∀ buf, e.inp = some buf → buf = a.data

/-- The event of a transfer records the answer the transfer got. -/
theorem eventOf_records (b : Bus) (w : Word) (o : Option Frame) : (eventOf b w o).records (b.xfer w o).1 := by
  refine ⟨rfl, fun buf h => ?_⟩
  rw [eventOf_inp] at h
  cases hr : isRead w with
  | true => rw [hr] at h; exact (Option.some.inj h).symm
  | false => rw [hr] at h; cases h

/-- One transfer takes the first answer a Bus Transport holds, or a free draw, and leaves the others. -/
theorem xfer_takes_first_answer {b : Bus} {as : List Answer} (hb : b.agent = .oracle as) (w : Word) (o : Option Frame) :
    (b.xfer w o).1 = oracleAnswer as b.draws 0 ∧ (b.xfer w o).2.agent = .oracle as.tail := by
  cases as with
  | nil => exact xfer_drawn hb w o
  | cons a as => exact xfer_answered hb w o

/-- A list of transfers takes one answer each, in order, and its events record them. -/
theorem transfers_take_answers {b : Bus} {as : List Answer} (hb : b.agent = .oracle as) (l : List (Word × Option Frame)) :
    (b.transfers l).agent = .oracle (as.drop l.length) ∧
    ∃ tr, (b.transfers l).trace = b.trace ++ tr ∧ tr.length = l.length ∧
      ∀ (k : Nat) (e : Event), tr[k]? = some e → e.records (oracleAnswer as b.draws k) := by
  induction l generalizing b as with
  | nil => exact ⟨hb, [], by simp, rfl, by simp⟩
  | cons x l ih =>
    obtain ⟨hanswer, hagent⟩ := xfer_takes_first_answer hb x.1 x.2
    obtain ⟨hleft, tr, htrace, hlen, hrec⟩ := ih hagent
    refine ⟨?_, eventOf b x.1 x.2 :: tr, ?_, congrArg (· + 1) hlen, fun k e hk => ?_⟩
    · rw [transfers_cons, hleft, List.drop_tail, List.length_cons]
    · rw [transfers_cons, htrace, xfer_trace, List.append_assoc]; rfl
    · cases k with
      | zero =>
        obtain rfl : eventOf b x.1 x.2 = e := Option.some.inj hk
        rw [← hanswer]
        exact eventOf_records b x.1 x.2
      | succ k =>
        rw [← oracleAnswer_tail]
        exact hrec k e hk

/-- A host command with any Bus Transport takes one answer for each event of its trace, in order, and each event records
the answer taken for it. -/
theorem host_takes_answers {i : Instr} (hi : isHostCommand i = true) {s t : State} {as : List Answer}
    (hs : s.bus.agent = .oracle as) (h : exec i s = .next t) :
    t.bus.agent = .oracle (as.drop t.bus.trace.length) ∧ t.bus.draws = s.bus.draws + t.bus.trace.length ∧
    ∀ (k : Nat) (e : Event), t.bus.trace[k]? = some e → e.records (oracleAnswer as s.bus.draws k) := by
  obtain ⟨l, -, htrace, hagent, hdraws, -⟩ := host_bus hi h
  obtain ⟨hleft, tr, htr, hlen, hrec⟩ := transfers_take_answers (b := s.start.bus) hs l
  have hevents : t.bus.trace = tr := by rw [htrace, htr, start_bus_trace, List.nil_append]
  rw [hevents, hlen]
  exact ⟨hagent.trans hleft, hdraws.trans (transfers_draws _ l), hrec⟩

/-- Settles O54: every host command's transfers are a list of requests on the bus side it started with, and each request
of such a list takes the next answer. -/
theorem answersAreTakenInOrder : Obligations.AnswersAreTakenInOrder := by
  intro i s t as hi hs h
  obtain ⟨hleft, hdraws, hrec⟩ := host_takes_answers hi hs h
  refine ⟨hleft, hdraws, fun k e hk => ⟨fun a ha => ?_, fun hnone => ?_⟩⟩
  · rw [← oracleAnswer_of_some ha s.bus.draws]
    exact hrec k e hk
  · rw [(hrec k e hk).1, oracleAnswer_of_none hnone]

/-- The buffer is filled for ReadFrame's opcode number only (R52). -/
theorem isRead_iff (w : Word) : isRead w = true ↔ (unpack w).opcode.toNat = 3 := decide_eq_true_iff

/-- The event of a transfer, its parts written out (R58). -/
theorem eventOf_eq (b : Bus) (w : Word) (o : Option Frame) :
    eventOf b w o = { cmd := w, out := o, resp := (b.xfer w o).1.resp,
                      inp := if (unpack w).opcode.toNat = 3 then some (b.xfer w o).1.data else none } := by
  simp only [eventOf, isRead_iff]

/-- Byte by byte, the buffer drawn for transfer `n` (R14). -/
theorem drawFrame_get (n : Nat) {i : Nat} (hi : i < 1024) :
    (drawFrame n).bytes[i]? = some (Config.drawByte n i) := tabulate_get _ i hi

/-- Settles O22: the event a transfer appends, written out, and the Bus Transport's two cases, an answer held and none. -/
theorem transfersAreAnsweredAndRecorded : Obligations.TransfersAreAnsweredAndRecorded := by
  intro b w o
  refine ⟨?_, fun a as hb => xfer_answered hb w o, fun hb => ?_⟩
  · rw [xfer_trace, ← eventOf_eq, eventOf]
  · obtain ⟨hanswer, hagent⟩ := xfer_drawn hb w o
    rw [hanswer]
    exact ⟨rfl, fun i hi => drawFrame_get b.draws hi, hagent, xfer_draws b w o⟩

end Sys2Proof.Machine
end

section
/-! SUPPORT. What every command does to the registers of spec/10_state.md section 2, said once: `exec_effect`. From it come
the access table (R39), what a session keeps (R25, R31 (4)), and that every step keeps the invariant (R31, R32). -/

namespace Sys2Proof.Machine

/-! ### The end of a command -/

@[simp] theorem finish_cfg (m : Flow Value) : (finish m).cfg = m.state.cfg := by cases m <;> rfl
@[simp] theorem finish_powered (m : Flow Value) : (finish m).powered = m.state.powered := by cases m <;> rfl
@[simp] theorem finish_nextFree (m : Flow Value) : (finish m).nextFree = m.state.nextFree := by cases m <;> rfl
@[simp] theorem finish_nFiles (m : Flow Value) : (finish m).nFiles = m.state.nFiles := by cases m <;> rfl
@[simp] theorem finish_ft (m : Flow Value) : (finish m).ft = m.state.ft := by cases m <;> rfl
@[simp] theorem finish_seq (m : Flow Value) : (finish m).seq = .idle := by cases m <;> rfl
@[simp] theorem finish_pending (m : Flow Value) : (finish m).pending = m.state.pending := by cases m <;> rfl
@[simp] theorem record_finish (m : Flow Value) (h : Nat) : (finish m).record h = m.state.record h :=
  record_congr h (finish_ft m)

/-! ### The effect of a command -/

/-- The record's length and cursor stand where R31 (2) wants them. -/
def Positioned (p : Config.Params) (r : FileRecord) : Prop :=
  r.endPos ≤ 1024 * r.frames.length ∧ r.cursor ≤ 1024 * r.frames.length ∧
    (p.writeAbortCommitsLength = true → r.cursor ≤ r.endPos)

/-- Of table and pool, at most the record of `h` and `next_free` change: the path stays, the next `m` free addresses join
the frame list, the length does not shrink, and length and cursor stay in their ranges. -/
structure FileStep (h m : Nat) (s t : State) : Prop where
  known : h < s.nFiles
  nFiles : t.nFiles = s.nFiles
  listed : h < s.ft.length → t.ft.length = s.ft.length
  other : ∀ j, j ≠ h → t.record j = s.record j
  path : (t.record h).path = (s.record h).path
  room : s.nextFree.val + m ≤ 65536
  nextFree : t.nextFree.val = s.nextFree.val + m
  frames : (t.record h).frames = (s.record h).frames ++ nextAddresses s.nextFree.val m
  grows : (s.record h).endPos ≤ (t.record h).endPos
  positioned : Positioned s.cfg (s.record h) → Positioned s.cfg (t.record h)

/-- What a command other than powerOn does to table and pool. -/
inductive TableEffect (i : Instr) (s t : State) : Prop
  | untouched (ft : t.ft = s.ft) (nFiles : t.nFiles = s.nFiles) (nextFree : t.nextFree = s.nextFree)
  | file (h m : Nat) (step : FileStep h m s t)
      (writer : (m = 0 ∧ (t.record h).endPos = (s.record h).endPos) ∨ ∃ data, i = .write h data)
  | created (p : Path) (opens : i = .openFile p) (room : s.nFiles < s.cfg.maxFiles)
      (new : ∀ j, j < s.nFiles → (s.record j).path ≠ p) (nFiles : t.nFiles = s.nFiles + 1)
      (nextFree : t.nextFree = s.nextFree)
      (ft : t.ft = tableSet s.ft s.nFiles { path := p, isOpen := true, endPos := 0, cursor := 0, frames := [] })

/-- What a command does to the registers: R39's table, with the parameters and the host's queue. -/
structure Effect (i : Instr) (s t : State) : Prop where
  cfg : t.cfg = s.cfg
  pending : t.pending = s.pending
  begun : i = .powerOn → t.powered = true → t.ft = [] ∧ t.nFiles = 0 ∧ t.nextFree = 0
  powered : i ≠ .powerOn → t.powered = s.powered ∨ (i = .powerOff ∧ t.powered = false)
  table : i ≠ .powerOn → TableEffect i s t

variable {i : Instr} {s t : State} {h : Nat}

/-! ### Commands that change one record -/

/-- The record of a known handle gets another open flag and cursor. -/
theorem FileStep.setRecord (hh : h < s.nFiles) (b : Bool) (c : Nat)
    (hc : Positioned s.cfg (s.record h) → Positioned s.cfg { s.record h with isOpen := b, cursor := c }) :
    FileStep h 0 s (s.setRecord h { s.record h with isOpen := b, cursor := c }) where
  known := hh
  nFiles := rfl
  listed hl := by rw [setRecord_ft, tableSet_eq_set _ hl, List.length_set]
  other j hj := by rw [record_setRecord, if_neg hj]
  path := by rw [record_setRecord_self]
  room := Nat.le_of_lt_succ s.nextFree.isLt
  nextFree := rfl
  frames := by rw [record_setRecord_self, nextAddresses_zero, List.append_nil]
  grows := by rw [record_setRecord_self]
  positioned hp := by rw [record_setRecord_self]; exact hc hp

/-- A change of one file, of which path and open flag stay, is a step of that file. -/
theorem OnlyFile.fileStep {m : Nat} (ho : OnlyFile h s t) (hh : h < s.nFiles) (room : s.nextFree.val + m ≤ 65536)
    (nextFree : t.nextFree.val = s.nextFree.val + m)
    (frames : (t.record h).frames = (s.record h).frames ++ nextAddresses s.nextFree.val m)
    (grows : (s.record h).endPos ≤ (t.record h).endPos)
    (positioned : Positioned s.cfg (s.record h) → Positioned s.cfg (t.record h)) : FileStep h m s t :=
  ⟨hh, ho.nFiles, ho.listed, ho.other, ho.path, room, nextFree, frames, grows, positioned⟩

/-- A read moves the cursor forward by at most the count it was given. -/
theorem readBytes_cursor (h n : Nat) (s : State) : OnlyCursor h s (readBytes h n s).state ∧
    (s.record h).cursor ≤ ((readBytes h n s).state.record h).cursor ∧
    ((readBytes h n s).state.record h).cursor ≤ (s.record h).cursor + n := by
  obtain ⟨t, tr, hc, -, -, -, -, ⟨-, -, hr, -, hcur⟩ | ⟨hstop, hcmds, hr, hcur⟩⟩ := readBytes_cases h n s
  · rw [hr, state_done]
    exact ⟨hc, by omega, by omega⟩
  · have := read_abort_bounds hstop hcmds
    rw [hr, state_raised]
    exact ⟨hc, by omega, by omega⟩

/-- A read of no more than what is left before the end keeps the cursor in its range. -/
theorem readBytes_fileStep (hh : h < s.nFiles) (count : Nat) :
    FileStep h 0 s (readBytes h (bytesToRead (s.record h) count) s).state ∧
      ((readBytes h (bytesToRead (s.record h) count) s).state.record h).endPos = (s.record h).endPos := by
  obtain ⟨hc, hle, hge⟩ := readBytes_cursor h (bytesToRead (s.record h) count) s
  have hself := hc.record_self
  have hend := congrArg FileRecord.endPos hself
  have hframes := congrArg FileRecord.frames hself
  dsimp only at hend hframes
  refine ⟨hc.onlyFile.fileStep hh (Nat.le_of_lt_succ s.nextFree.isLt) (by rw [hc.nextFree, Nat.add_zero])
    (by rw [hframes, nextAddresses_zero, List.append_nil]) hend.ge ?_, hend⟩
  rintro ⟨hp, hq, hw⟩
  have hcount := bytesToRead_eq (s.record h) count
  rw [Positioned, hframes, hend]
  exact ⟨hp, by omega, fun hf => by have := hw hf; omega⟩

/-- After a write has appended the frames missing, the frame list covers all it was given. -/
theorem framesMissing_covers (r : FileRecord) (len : Nat) :
    r.cursor + len ≤ 1024 * (r.frames.length + framesMissing r len) := by
  simp only [framesMissing, ceilFrames]; omega

/-- A write takes the frames missing, or what is left of the pool, and keeps length and cursor inside the frame list. -/
theorem writeBytes_fileStep (hh : h < s.nFiles) (data : List Byte) :
    ∃ m, FileStep h m s (writeBytes h data s).state := by
  obtain ⟨room, r, rfl, t, tr, ho, hn, -, -, -, hrec, -, hcase⟩ | ⟨-, t, hr, hn, ho⟩ := writeBytes_cases h data s
  · have hframes := congrArg FileRecord.frames hrec
    have hlen := congrArg List.length hframes
    rw [List.length_append, nextAddresses_length] at hlen
    have hcover := framesMissing_covers (s.record h) data.length
    have hpos : (writeBytes h data s).state = t ∧ (t.record h).cursor ≤ (s.record h).cursor + data.length ∧
        (s.record h).endPos ≤ (t.record h).endPos ∧
        (t.record h).endPos ≤ max (s.record h).endPos (t.record h).cursor ∧
        (s.cfg.writeAbortCommitsLength = true → (t.record h).cursor ≤ (t.record h).endPos) := by
      rcases hcase with ⟨-, -, -, hr, hcur, hend⟩ | ⟨hstop, hcmds, hr, hcur, hend⟩
      · dsimp only at hcur hend
        exact ⟨by rw [hr, state_done], by omega, by omega, by omega, fun _ => by omega⟩
      · have hbounds := write_abort_bounds hstop hcmds
        rw [← hcur] at hbounds
        dsimp only at hbounds hend
        refine ⟨by rw [hr, state_raised], by omega, ?_⟩
        split at hend
        · exact ⟨by omega, by omega, fun _ => by omega⟩
        · exact ⟨by omega, by omega, fun hw => absurd hw ‹_›⟩
    obtain ⟨hstate, hcur, hgrow, hend, hcommit⟩ := hpos
    rw [hstate]
    refine ⟨_, ho.fileStep hh room hn hframes hgrow fun ⟨hp, hq, _⟩ => ?_⟩
    rw [Positioned, hlen]
    exact ⟨by omega, by omega, hcommit⟩
  · have hlt := s.nextFree.isLt
    have hself := ho.record_self
    refine ⟨65536 - s.nextFree.val, ?_⟩
    rw [hr, state_raised]
    refine ho.onlyFile.fileStep hh (by omega) (by omega) (by rw [hself]) (by rw [hself]) fun ⟨hp, hq, hw⟩ => ?_
    rw [hself]
    exact ⟨hp.trans (by simp), hq.trans (by simp), hw⟩

/-! ### Every command has its effect -/

/-- A command that changes neither table nor pool. -/
theorem Effect.of_untouched (hi : i ≠ .powerOn) (hc : t.cfg = s.cfg) (hq : t.pending = s.pending)
    (hp : t.powered = s.powered ∨ (i = .powerOff ∧ t.powered = false)) (hf : t.ft = s.ft) (hn : t.nFiles = s.nFiles)
    (hx : t.nextFree = s.nextFree) : Effect i s t :=
  ⟨hc, hq, fun h => absurd h hi, fun _ => hp, fun _ => .untouched hf hn hx⟩

/-- A command that changes one record. -/
theorem Effect.of_fileStep {m : Nat} (hi : i ≠ .powerOn) (hc : t.cfg = s.cfg) (hq : t.pending = s.pending)
    (hp : t.powered = s.powered) (hs : FileStep h m s t)
    (hw : (m = 0 ∧ (t.record h).endPos = (s.record h).endPos) ∨ ∃ data, i = .write h data) : Effect i s t :=
  ⟨hc, hq, fun h => absurd h hi, fun _ => .inl hp, fun _ => .file h m hs hw⟩

/-- The report at the end of a command and the empty trace at its start are no effect on the registers. -/
theorem Effect.reported {m : Flow Value} (he : Effect i s.start m.state) : Effect i s (finish m) := by
  refine ⟨(finish_cfg m).trans he.cfg, (finish_pending m).trans he.pending, ?_, ?_, fun hi => ?_⟩
  · rw [finish_powered, finish_ft, finish_nFiles, finish_nextFree]; exact he.begun
  · rw [finish_powered]; exact he.powered
  · cases he.table hi with
    | untouched ft nFiles nextFree =>
      exact .untouched ((finish_ft m).trans ft) ((finish_nFiles m).trans nFiles) ((finish_nextFree m).trans nextFree)
    | file h k step writer =>
      refine .file h k ⟨step.known, (finish_nFiles m).trans step.nFiles, ?_, fun j hj => ?_, ?_, step.room, ?_, ?_, ?_, ?_⟩ ?_
      · rw [finish_ft]; exact step.listed
      · rw [record_finish]; exact step.other j hj
      · rw [record_finish]; exact step.path
      · rw [finish_nextFree]; exact step.nextFree
      · rw [record_finish]; exact step.frames
      · rw [record_finish]; exact step.grows
      · rw [record_finish]; exact step.positioned
      · rw [record_finish]; exact writer
    | created p opens room new nFiles nextFree ft =>
      exact .created p opens room new ((finish_nFiles m).trans nFiles) ((finish_nextFree m).trans nextFree)
        ((finish_ft m).trans ft)

theorem powerOn_effect (s : State) : Effect .powerOn s (endPowerOn (powerOnTransfers s)).state := by
  obtain ⟨t, -, hs, -, -, ⟨-, -, hr⟩ | ⟨-, -, hr⟩⟩ := powerOnTransfers_cases s
  · rw [hr, hs]
    exact ⟨rfl, rfl, fun _ _ => ⟨rfl, rfl, rfl⟩, fun h => absurd rfl h, fun h => absurd rfl h⟩
  · rw [hr, hs]
    exact ⟨rfl, rfl, fun _ => nofun, fun h => absurd rfl h, fun h => absurd rfl h⟩

theorem powerOff_effect (s : State) : Effect .powerOff s (endPowerOff (busOff s)).state := by
  obtain ⟨t, -, hs, rfl, -, -, -, ⟨-, hr⟩ | ⟨-, hr⟩⟩ := request_cases requestOff s
  · rw [busOff, hr]
    exact .of_untouched nofun rfl rfl (.inl rfl) rfl rfl rfl
  · rw [busOff, hr]
    exact .of_untouched nofun rfl rfl (.inr ⟨rfl, rfl⟩) rfl rfl rfl

theorem open_effect (p : Path) (s : State) : Effect (.openFile p) s (openPath p s).state := by
  obtain ⟨h, -, -, -, hr⟩ | ⟨h, hh, -, -, hr⟩ | ⟨-, -, hr⟩ | ⟨hnew, hroom, hr⟩ := openPath_cases p s
  · rw [hr]; exact .of_untouched nofun rfl rfl (.inl rfl) rfl rfl rfl
  · rw [hr]
    exact .of_fileStep nofun rfl rfl rfl
      (.setRecord hh true 0 fun ⟨hp, _, _⟩ => ⟨hp, Nat.zero_le _, fun _ => Nat.zero_le _⟩)
      (.inl ⟨rfl, by rw [state_done, record_setRecord_self]⟩)
  · rw [hr]; exact .of_untouched nofun rfl rfl (.inl rfl) rfl rfl rfl
  · rw [hr]
    exact ⟨rfl, rfl, nofun, fun _ => .inl rfl, fun _ => .created p rfl hroom hnew rfl rfl rfl⟩

theorem close_effect (hh : h < s.nFiles) : Effect (.close h) s (s.setOpen h false) :=
  .of_fileStep nofun rfl rfl rfl (.setRecord hh false (s.record h).cursor id)
    (.inl ⟨rfl, by rw [record_setOpen, if_pos rfl]; rfl⟩)

theorem seek_effect (hh : h < s.nFiles) (o : Nat) : Effect (.seek h o) s (seekTo h o s).state := by
  unfold seekTo
  split
  · exact .of_untouched nofun rfl rfl (.inl rfl) rfl rfl rfl
  · exact .of_fileStep nofun rfl rfl rfl
      (.setRecord hh (s.record h).isOpen o fun ⟨hp, _, _⟩ => ⟨hp, by dsimp only; omega, fun _ => by dsimp only; omega⟩)
      (.inl ⟨rfl, by rw [state_done, record_setCursor, if_pos rfl]⟩)

theorem read_effect (hh : h < s.nFiles) (count : Nat) :
    Effect (.read h count) s (readBytes h (bytesToRead (s.record h) count) s).state := by
  obtain ⟨hc, -, -⟩ := readBytes_cursor h (bytesToRead (s.record h) count) s
  obtain ⟨hstep, hend⟩ := readBytes_fileStep hh count
  exact .of_fileStep nofun hc.cfg hc.pending hc.powered hstep (.inl ⟨rfl, hend⟩)

theorem writeBytes_onlyFile (h : Nat) (data : List Byte) (s : State) : OnlyFile h s (writeBytes h data s).state := by
  obtain ⟨-, r, -, t, tr, ho, -, -, -, -, -, -, ⟨-, -, -, hr, -⟩ | ⟨-, -, hr, -⟩⟩ | ⟨-, t, hr, -, ho⟩ :=
    writeBytes_cases h data s
  · rw [hr]; exact ho
  · rw [hr]; exact ho
  · rw [hr]; exact ho.onlyFile

theorem write_effect (hh : h < s.nFiles) (data : List Byte) :
    Effect (.write h data) s (writeBytes h data s).state := by
  have ho := writeBytes_onlyFile h data s
  obtain ⟨m, hstep⟩ := writeBytes_fileStep hh data
  exact .of_fileStep nofun ho.cfg ho.pending ho.powered hstep (.inr ⟨data, rfl⟩)

/-- A command given a handle that does not resolve. -/
theorem unresolved_effect (hi : i ≠ .powerOn) (e : ErrorKind) (s : State) :
    Effect i s (Flow.raised e s : Flow Value).state :=
  .of_untouched hi rfl rfl (.inl rfl) rfl rfl rfl

/-- Every host command that answers a next state has its effect and has reported. -/
theorem host_effect (hi : isHostCommand i = true) (hx : exec i s = .next t) :
    ∃ m, Effect i s.start m.state ∧ t = finish m := by
  obtain ⟨-, ⟨rfl, rfl⟩ | ⟨-, ⟨rfl, rfl⟩ | ⟨p, rfl, rfl⟩ | ⟨h, hcmd, herr⟩ | ⟨h, hh, -, hcase⟩⟩⟩ := host_cases hi hx
  · exact ⟨_, powerOn_effect s.start, rfl⟩
  · exact ⟨_, powerOff_effect s.start, rfl⟩
  · exact ⟨_, open_effect p s.start, rfl⟩
  · have hne : i ≠ .powerOn := by
      rintro rfl
      simp at hcmd
    rcases herr with ⟨-, rfl⟩ | ⟨-, -, rfl⟩
    · exact ⟨_, unresolved_effect hne .invalidHandle s.start, rfl⟩
    · exact ⟨_, unresolved_effect hne .notOpen s.start, rfl⟩
  · rcases hcase with ⟨rfl, rfl⟩ | ⟨o, rfl, rfl⟩ | ⟨data, rfl, rfl⟩ | ⟨n, rfl, -, rfl⟩
    · exact ⟨.done .unit _, close_effect (s := s.start) hh, rfl⟩
    · exact ⟨_, seek_effect (s := s.start) hh o, rfl⟩
    · exact ⟨_, write_effect (s := s.start) hh data, rfl⟩
    · exact ⟨_, read_effect (s := s.start) hh n, rfl⟩

/-- Every command that answers a next state has its effect on the registers and leaves the sequencer idle. -/
theorem exec_effect (hx : exec i s = .next t) : Effect i s t ∧ t.seq = .idle := by
  rcases next_kind hx with hi | hi
  · obtain ⟨m, he, rfl⟩ := host_effect hi hx
    exact ⟨he.reported, finish_seq m⟩
  · obtain ⟨w, o, buf, rfl⟩ := bus_next hi hx
    have hne : i ≠ .powerOn := by
      rintro rfl
      cases hi
    exact ⟨.of_untouched hne rfl rfl (.inl rfl) rfl rfl rfl, rfl⟩

/-- Every command keeps the frame store canonical. -/
theorem exec_keeps_wf (hm : s.bus.mem.wf) (hx : exec i s = .next t) : t.bus.mem.wf := by
  rcases next_kind hx with hi | hi
  · obtain ⟨-, -, -, -, -, hwf⟩ := host_bus hi hx
    exact hwf hm
  · obtain ⟨w, o, buf, rfl⟩ := bus_next hi hx
    exact xfer_wf hm w o

/-! ### The invariant -/

theorem SessionInv.positioned (hs : SessionInv s) (hh : h < s.nFiles) : Positioned s.cfg (s.record h) :=
  have hmem := record_mem (hs.listed hh)
  ⟨(hs.frames _ hmem).1, (hs.frames _ hmem).2, fun hw => hs.cursor hw _ hmem⟩

theorem FileStep.keeps_session {m : Nat} (hf : FileStep h m s t) (hs : SessionInv s) (hc : t.cfg = s.cfg) :
    SessionInv t := by
  obtain ⟨hend, hcov, hcur⟩ := hf.positioned (hs.positioned hf.known)
  exact hs.update hf.known hc hf.nFiles (hf.listed (hs.listed hf.known)) hf.other hf.path hf.room hf.nextFree hf.frames
    hend hcov hcur

theorem TableEffect.keeps_session (he : TableEffect i s t) (hs : SessionInv s) (hc : t.cfg = s.cfg) :
    SessionInv t := by
  cases he with
  | untouched ft nFiles nextFree => exact hs.congr hc ft nFiles (congrArg Fin.val nextFree)
  | file h m step writer => exact step.keeps_session hs hc
  | created p opens room new nFiles nextFree ft =>
    rw [hs.count, tableSet_length] at ft
    exact hs.create room new hc nFiles (congrArg Fin.val nextFree) ft

/-- powerOn begins a session that meets the session invariant; every other command keeps the one there is. -/
theorem Effect.keeps_session (he : Effect i s t) (hs : s.powered = true → SessionInv s) (ht : t.powered = true) :
    SessionInv t := by
  by_cases hi : i = .powerOn
  · obtain ⟨hft, hnf, hnx⟩ := he.begun hi ht
    exact .empty hft hnf (congrArg Fin.val hnx)
  · rcases he.powered hi with hp | ⟨-, hp⟩
    · exact (he.table hi).keeps_session (hs (hp.symm.trans ht)) he.cfg
    · rw [ht] at hp; cases hp

theorem exec_keeps_inv (hs : Inv s) (hx : exec i s = .next t) : Inv t := by
  obtain ⟨he, hidle⟩ := exec_effect hx
  exact ⟨exec_keeps_wf hs.mem hx, .inl hidle, he.keeps_session hs.session⟩

/-- Moving the host port past a command touches nothing the invariant speaks of. -/
theorem Inv.with_pending (hs : Inv s) (ps : List HostWord) : Inv { s with pending := ps } :=
  ⟨hs.mem, hs.quiet, fun hp => (hs.session hp).congr rfl rfl rfl rfl⟩

/-- A transfer that is part of no host command ends where its bus command does. -/
theorem continueJob_single (s : State) : continueJob .single s = s := by
  unfold continueJob; split <;> rfl

/-- A step with no host command in progress waits, runs a command of the host port, or runs a bus command on its own. -/
theorem step_next_cases (hq : s.seq = .idle ∨ ∃ w, s.seq = .waiting w .single) (hx : step s = .next t) :
    t = s ∨ (∃ i ps, exec i { s with pending := ps } = .next t) ∨ ∃ i, exec i s = .next t := by
  unfold step at hx
  split at hx
  next w job hw =>
    obtain rfl : job = .single := by
      rcases hq with hq | ⟨w', hq⟩
      · rw [hw] at hq; cases hq
      · rw [hw] at hq; cases hq; rfl
    split at hx
    next => cases hx
    next i _ =>
      split at hx
      next u hu =>
        rw [continueJob_single] at hx
        exact .inr (.inr ⟨i, hu.trans hx⟩)
      next => cases hx
      next => cases hx
  next =>
    split at hx
    next => exact .inl (Host.Outcome.next.inj hx).symm
    next p ps _ => exact .inr (.inl ⟨decodeHost p, ps, hx⟩)

/-- Settles O12: a step with no host command in progress waits or runs one command, and every command keeps the canonical
frame store and, by its effect on the registers, the session invariant. -/
theorem everyStepKeepsTheInvariant : Obligations.EveryStepKeepsTheInvariant := by
  intro s t hs hx
  rcases step_next_cases hs.quiet hx with rfl | ⟨i, ps, hx⟩ | ⟨i, hx⟩
  · exact hs
  · exact exec_keeps_inv (hs.with_pending ps) hx
  · exact exec_keeps_inv hs hx

/-- Settles O11: the frame store at reset lists no byte, the sequencer is idle, and there is no session. -/
theorem resetMeetsTheInvariant : Obligations.ResetMeetsTheInvariant :=
  ⟨reset_memory_wf, .inl rfl, nofun⟩

/-! ### Faults -/

/-- While not powered every host command but powerOn is refused (R164). -/
theorem exec_unpowered (hi : s.seq = .idle) (hp : s.powered = false) (hc : isHostCommand i = true)
    (hon : i ≠ .powerOn) : exec i s = .refused .notPowered := by
  cases i with
  | powerOn => exact absurd rfl hon
  | powerOff => rw [exec, execPowerOff, inSession_unpowered hi hp]
  | openFile p => rw [exec, execOpen, inSession_unpowered hi hp]
  | close h => rw [exec, execClose, inSession_unpowered hi hp]
  | read h n => rw [exec, execRead, inSession_unpowered hi hp]
  | write h data => rw [exec, execWrite, inSession_unpowered hi hp]
  | seek h o => rw [exec, execSeek, inSession_unpowered hi hp]
  | initSystem => cases hc
  | zeroCartridge => cases hc
  | loadCartridge c => cases hc
  | readFrame f => cases hc
  | writeFrame f => cases hc
  | busPowerOff => cases hc
  | reserved7 => cases hc

/-- A command that takes a handle faults on none that does not resolve. -/
theorem resolved_ne_fault {p q : Prop} [Decidable p] [Decidable q] {a b : State} {r : Fault}
    {o : Host.Outcome State Fault Refusal} (ho : ¬ p → ¬ q → o ≠ .fault r) :
    (if p then .next a else if q then .next b else o) ≠ .fault r := by
  split
  · nofun
  · split
    · nofun
    · exact ho ‹_› ‹_›

/-- Settles O16: of the host commands only read can fault in the idle block, on a frame list that does not cover the count
it is clamped to, which the session invariant rules out. -/
theorem hostCommandsNeverFaultUnderTheInvariant : Obligations.HostCommandsNeverFaultUnderTheInvariant := by
  intro s i r hs hi hc
  by_cases hon : i = .powerOn
  · rw [hon, exec_powerOn hi]; nofun
  cases hp : s.powered with
  | false => rw [exec_unpowered hi hp hc hon]; nofun
  | true =>
    cases i with
    | powerOn => exact absurd rfl hon
    | powerOff => rw [exec_powerOff hi hp]; nofun
    | openFile p => rw [exec_open hi hp]; nofun
    | close h => rw [exec_close hi hp]; exact resolved_ne_fault fun _ _ => nofun
    | write h data => rw [exec_write hi hp]; exact resolved_ne_fault fun _ _ => nofun
    | seek h o => rw [exec_seek hi hp]; exact resolved_ne_fault fun _ _ => nofun
    | read h n =>
      rw [exec_read hi hp]
      refine resolved_ne_fault fun hh _ => ?_
      rw [if_pos ((hs.session hp).covered (by omega) n)]
      nofun
    | initSystem => cases hc
    | zeroCartridge => cases hc
    | loadCartridge c => cases hc
    | readFrame f => cases hc
    | writeFrame f => cases hc
    | busPowerOff => cases hc
    | reserved7 => cases hc

/-! ### Ranges -/

/-- A file of a session owns no more frames than have been allocated (R126). -/
theorem SessionInv.frames_length_le (hs : SessionInv s) (hh : h < s.nFiles) :
    (s.record h).frames.length ≤ s.nextFree.val := by
  have hsub : (s.record h).frames.length ≤ (ownedAddresses s).length := by
    rw [ownedAddresses, List.length_flatMap]
    exact List.single_le_sum (fun _ _ => Nat.zero_le _) _ (List.mem_map_of_mem (record_mem (hs.listed hh)))
  have hpool := hs.pool.length_eq
  rw [List.length_map, List.length_range] at hpool
  omega

/-- Settles O35: a frame list is bounded by the pool's counter, length and cursor by the frame list. -/
theorem positionsFitTheirRegisters : Obligations.PositionsFitTheirRegisters := by
  intro s hs h hh
  obtain ⟨hend, hcov, hcur⟩ := hs.positioned hh
  have hlen := hs.frames_length_le hh
  have hpool := s.nextFree.isLt
  exact ⟨by omega, by omega, hend, by omega, hcov, hcur⟩

/-! ### The access table and the persistence of records -/

/-- The new record stands at no known handle. -/
theorem record_of_created {r : FileRecord} (ft : t.ft = tableSet s.ft s.nFiles r) (hh : h < s.nFiles) :
    t.record h = s.record h := by
  rw [State.record, ft, tableGet_tableSet_ne _ _ (by omega)]; rfl

/-- A command other than powerOn and write keeps pool, lengths and frame lists. -/
theorem TableEffect.keeps_files (he : TableEffect i s t) (hw : ∀ h data, i ≠ .write h data) :
    t.nextFree = s.nextFree ∧
      ∀ h, h < s.nFiles → (t.record h).endPos = (s.record h).endPos ∧ (t.record h).frames = (s.record h).frames := by
  cases he with
  | untouched ft nFiles nextFree => exact ⟨nextFree, fun h _ => by rw [record_congr h ft]; exact ⟨rfl, rfl⟩⟩
  | file k m step writer =>
    obtain ⟨rfl, hend⟩ | ⟨data, hi⟩ := writer
    · refine ⟨Fin.ext step.nextFree, fun h _ => ?_⟩
      by_cases hk : h = k
      · rw [hk, hend, step.frames, nextAddresses_zero, List.append_nil]; exact ⟨rfl, rfl⟩
      · rw [step.other h hk]; exact ⟨rfl, rfl⟩
    · exact absurd hi (hw k data)
  | created p opens room new nFiles nextFree ft =>
    exact ⟨nextFree, fun h hh => by rw [record_of_created ft hh]; exact ⟨rfl, rfl⟩⟩

/-- A command other than powerOn and open keeps the number of files. -/
theorem TableEffect.keeps_nFiles (he : TableEffect i s t) (ho : ∀ p, i ≠ .openFile p) : t.nFiles = s.nFiles := by
  cases he with
  | untouched ft nFiles nextFree => exact nFiles
  | file h m step writer => exact step.nFiles
  | created p opens => exact absurd opens (ho p)

/-- Settles O45: read off the effect every command has on the registers. -/
theorem registersAreWrittenByTheirCommandsOnly : Obligations.RegistersAreWrittenByTheirCommandsOnly := by
  intro i s t hx
  obtain ⟨he, -⟩ := exec_effect hx
  exact ⟨he.cfg, he.pending, fun hon hoff => (he.powered hon).resolve_right fun h => hoff h.1,
    fun hon hw => (he.table hon).keeps_files hw, fun hon ho => (he.table hon).keeps_nFiles ho⟩

/-- Settles O46: of a known handle the table's effect keeps the path, extends the frame list and raises the length. -/
theorem recordsPersistWithinASession : Obligations.RecordsPersistWithinASession := by
  intro i s t hi hx
  obtain ⟨he, -⟩ := exec_effect hx
  cases he.table hi with
  | untouched ft nFiles nextFree =>
    exact ⟨nFiles.ge, (congrArg Fin.val nextFree).ge, fun h _ => by
      rw [record_congr h ft]; exact ⟨rfl, List.prefix_refl _, le_refl _⟩⟩
  | file k m step writer =>
    refine ⟨step.nFiles.ge, by rw [step.nextFree]; omega, fun h _ => ?_⟩
    by_cases hk : h = k
    · rw [hk]; exact ⟨step.path, ⟨_, step.frames.symm⟩, step.grows⟩
    · rw [step.other h hk]; exact ⟨rfl, List.prefix_refl _, le_refl _⟩
  | created p opens room new nFiles nextFree ft =>
    exact ⟨by omega, (congrArg Fin.val nextFree).ge, fun h hh => by
      rw [record_of_created ft hh]; exact ⟨rfl, List.prefix_refl _, le_refl _⟩⟩

end Sys2Proof.Machine
end

section
/-! SUPPORT. What single commands leave of the reference device (spec/20_memory.md R66), and the read that has no address
(R62). -/

namespace Sys2Proof.Machine

variable {s t : State}

/-- ZeroCartridge changes no byte outside the mounted cartridge, also when it fails (R66, R111). -/
theorem xfer_zero_outside {b : Bus} {c : Fin 64} (hm : b.mounted = some c) {x : Nat} (hx : x / 1048576 ≠ c.val) :
    (b.xfer requestZero none).2.mem.read x = b.mem.read x := by
  cases hb : b.isOracle with
  | true => rw [(xfer_oracle hb _ _).1]
  | false =>
    rcases xfer_cases hb (serve_zero b hm) with ⟨-, hmem, -⟩ | ⟨-, hmem, -⟩
    · rw [hmem, read_fillCartridge, if_neg hx]
    · have hfill : (b.afterFailure requestZero).mem = b.mem.fillCartridge c (.unspecified b.draws) := by
        simp [Bus.afterFailure, unpack_requestZero, BusCommand.ofCode, hm]
      rw [hmem, hfill, read_fillCartridge, if_neg hx]

/-- With any Bus Transport no transfer touches the store kept for the reference device. -/
theorem deviceSame_afterTransfer_oracle (hs : s.bus.isOracle = true) (w : Word) (o : Option Frame) (buf : Frame) :
    DeviceSame s (afterTransfer s w o buf) := fun x =>
  congrArg (Memory.read · x) (xfer_oracle hs w o).1

theorem loadCartridge_deviceSame {c : BitVec 16} (h : exec (.loadCartridge c) s = .next t) : DeviceSame s t := by
  obtain ⟨hready, rfl⟩ := loadCartridge_next h
  rcases hready with hs | hc
  · exact deviceSame_afterTransfer_oracle hs _ _ _
  · exact fun x => congrArg (Memory.read · x) (xfer_load_mem s.bus ⟨c.toNat, hc⟩)

theorem readFrame_deviceSame {f : BitVec 16} (h : exec (.readFrame f) s = .next t) : DeviceSame s t := by
  obtain ⟨hready, rfl⟩ := readFrame_next h
  rcases hready with hs | ⟨hm, hf⟩
  · exact deviceSame_afterTransfer_oracle hs _ _ _
  · obtain ⟨c, hm⟩ := Option.ne_none_iff_exists'.mp hm
    exact fun x => congrArg (Memory.read · x) (xfer_read_device (.inr hm) ⟨f.toNat, hf⟩ s.scratch).1

theorem writeFrame_deviceSameOutside {f : BitVec 16} {m : Fin 64} (hm : s.bus.mounted = some m)
    (h : exec (.writeFrame f) s = .next t) : DeviceSameOutside [⟨m, Fin.ofNat 1024 f.toNat⟩] s t := by
  obtain ⟨hready, rfl⟩ := writeFrame_next h
  intro x hx
  rcases hready with hs | ⟨-, hf⟩
  · exact deviceSame_afterTransfer_oracle hs _ _ _ x
  · have hindex : Fin.ofNat 1024 f.toNat = ⟨f.toNat, hf⟩ := Fin.ext (Nat.mod_eq_of_lt hf)
    rw [hindex] at hx
    exact xfer_write_outside (.inr hm) ⟨f.toNat, hf⟩ s.scratch x (hx _ (List.mem_singleton_self _))

/-- Settles O21: each bus command is one transfer of its request, and what that transfer leaves is known also when it
fails. -/
theorem busCommandsLeaveOtherBytes : Obligations.BusCommandsLeaveOtherBytes := by
  intro s t
  refine ⟨fun c => loadCartridge_deviceSame, fun f => readFrame_deviceSame,
    fun f m => writeFrame_deviceSameOutside, fun m hm h x hx => ?_, fun i hi hs h => ?_⟩
  · obtain ⟨-, rfl⟩ := zeroCartridge_next h
    exact xfer_zero_outside hm hx
  · obtain ⟨w, o, buf, rfl⟩ := bus_next hi h
    exact deviceSame_afterTransfer_oracle hs w o buf

/-- A read of an open handle whose clamped count the frame list does not cover has no frame to fetch (R62). -/
theorem exec_read_uncovered {h count : Nat} (hu : Usable s h)
    (hc : covered (s.record h) (bytesToRead (s.record h) count) = false) :
    exec (.read h count) s = .fault .rangeNotCovered := by
  obtain ⟨hi, hp, hh, ho⟩ := hu
  rw [exec_read hi hp, if_neg (not_not_intro hh), if_neg (by rw [ho]; nofun), hc]
  rfl

/-- Settles O18: the clamped count is the one the read checks against the frame list. -/
theorem uncoveredReadStops : Obligations.UncoveredReadStops := by
  intro s h count hu hne hlt
  refine exec_read_uncovered hu (decide_eq_false ?_)
  rw [bytesToRead_eq]
  omega

end Sys2Proof.Machine
end

section
/-! SUPPORT. What the trace of a host command looks like (spec/41_bus_commands.md R116, R117; spec/20_memory.md R55): the
requests it may send and their order, and that a failure is its last event and makes the result. -/

namespace Sys2Proof.Machine

variable {s t : State} {i : Instr}

/-! ### Single requests -/

/-- A request of the block keeps to the word format, and carries a buffer exactly for the frame commands (R52, R54, R84). -/
theorem BlockRequest.contract {w : Word} {o : Option Frame} (h : BlockRequest (w, o)) :
    (unpack w).opcode.toNat ≤ 5 ∧ (unpack w).key2 = 0#8 ∧ (unpack w).status = 0#1 ∧ w &&& 0x7FFF#64 = 0#64 ∧
      (unpack w).cartridgeIndex.toNat ≤ 63 ∧ (unpack w).frameIndex.toNat ≤ 1023 ∧
      (o.isSome = true ↔ (unpack w).opcode = 3#8 ∨ (unpack w).opcode = 4#8) := by
  cases h with
  | init => rw [unpack_requestInit]; exact ⟨by decide, rfl, rfl, request_low _ _ _, by decide, by decide, by decide⟩
  | zero => rw [unpack_requestZero]; exact ⟨by decide, rfl, rfl, request_low _ _ _, by decide, by decide, by decide⟩
  | off => rw [unpack_requestOff]; exact ⟨by decide, rfl, rfl, request_low _ _ _, by decide, by decide, by decide⟩
  | load c =>
    rw [unpack_requestLoad]
    exact ⟨by simp, rfl, rfl, request_low _ _ _, by simp only [BitVec.toNat_ofNat]; omega, by simp, by simp⟩
  | read f b =>
    rw [unpack_requestRead]
    exact ⟨by simp, rfl, rfl, request_low _ _ _, by simp, by simp only [BitVec.toNat_ofNat]; omega, by simp⟩
  | write f b =>
    rw [unpack_requestWrite]
    exact ⟨by simp, rfl, rfl, request_low _ _ _, by simp, by simp only [BitVec.toNat_ofNat]; omega, by simp⟩

/-- Every event of a host command is one of the block's own requests, with a buffer back exactly for ReadFrame. -/
theorem host_event (hi : isHostCommand i = true) (hx : exec i s = .next t) {e : Event} (he : e ∈ t.bus.trace) :
    BlockRequest (e.cmd, e.out) ∧ e.inp.isSome = isRead e.cmd := by
  obtain ⟨l, hl, htrace, -⟩ := host_bus hi hx
  obtain ⟨tr, htr, hreq, hinp⟩ := transfers_trace s.start.bus l
  rw [htrace, htr, start_bus_trace, List.nil_append] at he
  exact ⟨hl _ (hreq ▸ List.mem_map_of_mem he), hinp e he⟩

/-! ### The order of requests -/

/-- The order of R117 on the request words alone; `before` is the request before them. -/
def OrderedRequests : Option Word → List Word → Prop
  | _, [] => True
  | before, w :: ws =>
    ((opcodeOf w = Config.opRead ∨ opcodeOf w = Config.opZero) →
        ∃ p, before = some p ∧ opcodeOf p = Config.opLoad) ∧
    (opcodeOf w = Config.opWrite → ∃ p, before = some p ∧ opcodeOf p = Config.opRead) ∧
    OrderedRequests (some w) ws

theorem OrderedRequests.of_prefix {ws vs : List Word} {before : Option Word} (h : OrderedRequests before vs)
    (hp : ws <+: vs) : OrderedRequests before ws := by
  obtain ⟨more, rfl⟩ := hp
  induction ws generalizing before with
  | nil => trivial
  | cons w ws ih =>
    obtain ⟨hload, hread, hrest⟩ := h
    exact ⟨hload, hread, ih hrest⟩

theorem orderedRequests_read (before : Option Word) (l : List FrameAddress) :
    OrderedRequests before (readRequests l) := by
  induction l generalizing before with
  | nil => trivial
  | cons a l ih =>
    show OrderedRequests before (requestLoad a.cart.val :: requestRead a.frame.val :: readRequests l)
    simp [OrderedRequests, ih]

theorem orderedRequests_write (before : Option Word) (l : List FrameAddress) :
    OrderedRequests before (writeRequests l) := by
  induction l generalizing before with
  | nil => trivial
  | cons a l ih =>
    show OrderedRequests before
      (requestLoad a.cart.val :: requestRead a.frame.val :: requestWrite a.frame.val :: writeRequests l)
    simp [OrderedRequests, ih]

theorem orderedRequests_zero (before : Option Word) (l : List (Fin 64)) :
    OrderedRequests before (zeroRequests l) := by
  induction l generalizing before with
  | nil => trivial
  | cons c l ih => simp [OrderedRequests, ih]

theorem orderedRequests_powerOn : OrderedRequests none powerOnRequests := by
  rw [powerOnRequests_eq]
  simp [OrderedRequests, orderedRequests_zero]

theorem orderedRequests_off : OrderedRequests none [requestOff] := by simp [OrderedRequests]

/-- Events of requests in order, of which none but the last has failed, are well ordered. -/
theorem wellOrdered_of_orderedRequests {tr : List Event} {before : Option Event}
    (hb : ∀ p, before = some p → failed p.resp = false) (hok : allOk tr.dropLast = true)
    (ho : OrderedRequests (before.map (fun e => e.cmd)) (tr.map (fun e => e.cmd))) : WellOrdered before tr := by
  induction tr generalizing before with
  | nil => trivial
  | cons e tr ih =>
    obtain ⟨hload, hread, hrest⟩ := ho
    have hprev : ∀ n, (∃ w, before.map (fun e => e.cmd) = some w ∧ opcodeOf w = n) →
        ∃ p, before = some p ∧ opcodeOf p.cmd = n ∧ failed p.resp = false := by
      rintro n ⟨w, hw, hn⟩
      obtain ⟨p, hp, rfl⟩ := Option.map_eq_some_iff.mp hw
      exact ⟨p, hp, hn, hb p hp⟩
    refine ⟨fun h => hprev _ (hload h), fun h => hprev _ (hread h), ?_⟩
    cases tr with
    | nil => trivial
    | cons e' tr =>
      rw [List.dropLast_cons_cons, allOk_cons, Bool.and_eq_true] at hok
      exact ih (fun p hp => by cases hp; simpa using hok.1) hok.2 hrest

theorem allOk_dropLast {tr : List Event} (h : allOk tr = true) : allOk tr.dropLast = true :=
  List.all_eq_true.mpr fun e he => List.all_eq_true.mp h e (List.mem_of_mem_dropLast he)

theorem StopsAtFailure.allOk_dropLast {tr : List Event} (h : StopsAtFailure tr) : allOk tr.dropLast = true := by
  obtain ⟨pre, e, rfl, hpre, -⟩ := h
  rwa [List.dropLast_concat]

/-! ### The trace and the result of a command -/

/-- The trace of a command that has come to `m` accounts for its result: on success no transfer failed; on DeviceError the
last did and none before it; on another error there is none. All requests are among the first of `ws`. -/
def Accounted (ws : List Word) : Flow Value → Prop
  | .done _ s => allOk s.bus.trace = true ∧ s.bus.trace.map (fun e => e.cmd) <+: ws
  | .raised e s => (e = .deviceError ∧ StopsAtFailure s.bus.trace ∧ s.bus.trace.map (fun e => e.cmd) <+: ws) ∨
      (e ≠ .deviceError ∧ s.bus.trace = [])

theorem Accounted.of_ok {ws : List Word} {tr : List Event} (v : Value) (htr : s.bus.trace = tr) (hok : allOk tr = true)
    (hcmds : tr.map (fun e => e.cmd) = ws) : Accounted ws (.done v s) := by
  rw [Accounted, htr]; exact ⟨hok, hcmds ▸ List.prefix_refl _⟩

theorem Accounted.of_failure {ws : List Word} {tr : List Event} (htr : s.bus.trace = tr) (hstop : StopsAtFailure tr)
    (hcmds : tr.map (fun e => e.cmd) <+: ws) : Accounted ws (.raised .deviceError s) := by
  rw [Accounted, htr]; exact .inl ⟨rfl, hstop, hcmds⟩

/-- A command that has sent nothing. -/
theorem Accounted.of_silent (v : Value) (h : s.bus.trace = []) : Accounted [] (.done v s) := .of_ok v h rfl rfl

theorem Accounted.of_error {e : ErrorKind} (he : e ≠ .deviceError) (h : s.bus.trace = []) : Accounted [] (.raised e s) :=
  .inr ⟨he, h⟩

theorem powerOn_accounted (hs : s.bus.trace = []) : Accounted powerOnRequests (endPowerOn (powerOnTransfers s)) := by
  obtain ⟨t, tr, -, htr, -, ⟨hok, hcmds, hr⟩ | ⟨hstop, hcmds, hr⟩⟩ := powerOnTransfers_cases s
  all_goals rw [hs, List.nil_append] at htr
  · rw [hr]; exact .of_ok (s := beginSession t) .unit htr hok hcmds
  · rw [hr]; exact .of_failure (s := loseSession t) htr hstop hcmds

theorem powerOff_accounted (hs : s.bus.trace = []) : Accounted [requestOff] (endPowerOff (busOff s)) := by
  obtain ⟨t, e, -, -, htr, hcmd, -, ⟨hf, hr⟩ | ⟨hf, hr⟩⟩ := request_cases requestOff s
  all_goals rw [hs, List.nil_append] at htr
  · rw [busOff, hr]
    exact .of_failure htr (stopsAtFailure_single hf) (by rw [← hcmd]; exact List.prefix_refl _)
  · rw [busOff, hr]
    exact .of_ok (s := t.setPowered false) .unit htr (by simp [hf]) (by simp [hcmd])

theorem open_accounted (hs : s.bus.trace = []) (p : Path) : Accounted [] (openPath p s) := by
  obtain ⟨h, -, -, -, hr⟩ | ⟨h, -, -, -, hr⟩ | ⟨-, -, hr⟩ | ⟨-, -, hr⟩ := openPath_cases p s
  · rw [hr]; exact .of_error (by nofun) hs
  · rw [hr]; exact .of_silent _ hs
  · rw [hr]; exact .of_error (by nofun) hs
  · rw [hr]; exact .of_silent _ hs

theorem seek_accounted (hs : s.bus.trace = []) (h o : Nat) : Accounted [] (seekTo h o s) := by
  unfold seekTo
  split
  · exact .of_error (by nofun) hs
  · exact .of_silent _ hs

theorem read_accounted (hs : s.bus.trace = []) (h n : Nat) :
    Accounted (readRequests (framesTouched (s.record h) n)) (readBytes h n s) := by
  obtain ⟨t, tr, -, -, -, htr, -, ⟨hok, hcmds, hr, -⟩ | ⟨hstop, hcmds, hr, -⟩⟩ := readBytes_cases h n s
  all_goals rw [hs, List.nil_append] at htr
  · rw [hr]; exact .of_ok _ htr hok hcmds
  · rw [hr]; exact .of_failure htr hstop hcmds

theorem write_accounted (hs : s.bus.trace = []) (h : Nat) (data : List Byte) :
    ∃ l, Accounted (writeRequests l) (writeBytes h data s) := by
  obtain ⟨-, r, -, t, tr, -, -, -, htr, -, -, -, hcase⟩ | ⟨-, t, hr, -, ho⟩ := writeBytes_cases h data s
  · rw [hs, List.nil_append] at htr
    refine ⟨framesTouched r data.length, ?_⟩
    rcases hcase with ⟨hok, hcmds, -, hr, -⟩ | ⟨hstop, hcmds, hr, -⟩
    · rw [hr]; exact .of_ok _ htr hok hcmds
    · rw [hr]; exact .of_failure htr hstop hcmds
  · exact ⟨[], by rw [hr]; exact .of_error (by nofun) (by rw [ho.bus, hs])⟩

/-- Every host command that answers a next state has sent requests in order, and its trace accounts for its result. -/
theorem host_accounted (hi : isHostCommand i = true) (hx : exec i s = .next t) :
    ∃ ws m, OrderedRequests none ws ∧ Accounted ws m ∧ t = finish m := by
  obtain ⟨-, ⟨-, rfl⟩ | ⟨-, ⟨-, rfl⟩ | ⟨p, -, rfl⟩ | ⟨h, -, ⟨-, rfl⟩ | ⟨-, -, rfl⟩⟩ | ⟨h, -, -, hcase⟩⟩⟩ := host_cases hi hx
  · exact ⟨_, _, orderedRequests_powerOn, powerOn_accounted rfl, rfl⟩
  · exact ⟨_, _, orderedRequests_off, powerOff_accounted rfl, rfl⟩
  · exact ⟨[], _, trivial, open_accounted rfl p, rfl⟩
  · exact ⟨[], .raised .invalidHandle s.start, trivial, .of_error (by nofun) rfl, rfl⟩
  · exact ⟨[], .raised .notOpen s.start, trivial, .of_error (by nofun) rfl, rfl⟩
  · rcases hcase with ⟨-, rfl⟩ | ⟨o, -, rfl⟩ | ⟨data, -, rfl⟩ | ⟨n, -, -, rfl⟩
    · exact ⟨[], .done .unit (s.start.setOpen h false), trivial, .of_silent _ rfl, rfl⟩
    · exact ⟨[], _, trivial, seek_accounted rfl h o, rfl⟩
    · obtain ⟨l, hl⟩ := write_accounted (s := s.start) rfl h data
      exact ⟨_, _, orderedRequests_write none l, hl, rfl⟩
    · exact ⟨_, _, orderedRequests_read none _, read_accounted rfl h _, rfl⟩

/-- An accounted trace is in R117's order. -/
theorem Accounted.wellOrdered {ws : List Word} {m : Flow Value} (h : Accounted ws m) (ho : OrderedRequests none ws) :
    WellOrdered none m.state.bus.trace := by
  cases m with
  | done v s =>
    obtain ⟨hok, hp⟩ := h
    exact wellOrdered_of_orderedRequests nofun (allOk_dropLast hok) (ho.of_prefix hp)
  | raised e s =>
    rcases h with ⟨-, hstop, hp⟩ | ⟨-, hnil⟩
    · exact wellOrdered_of_orderedRequests nofun hstop.allOk_dropLast (ho.of_prefix hp)
    · rw [state_raised, hnil]; trivial

/-- Settles O51: read off the account of the trace, by what the command comes to. -/
theorem deviceErrorExactlyAtTheFirstFailure : Obligations.DeviceErrorExactlyAtTheFirstFailure := by
  intro i s t hi hx
  obtain ⟨ws, m, -, hacc, rfl⟩ := host_accounted hi hx
  cases m with
  | done v s =>
    obtain ⟨hok, -⟩ := hacc
    exact .inr ⟨nofun, hok, nofun⟩
  | raised e s =>
    rcases hacc with ⟨rfl, hstop, -⟩ | ⟨hne, hnil⟩
    · exact .inl ⟨rfl, hstop⟩
    · rw [finish_bus, state_raised, hnil]
      exact .inr ⟨fun h => hne (by simpa using h), rfl, fun _ _ => rfl⟩

/-- Settles O52: each event is one of the block's own requests, and the account of the trace puts them in order. -/
theorem requestsObeyTheBusContract : Obligations.RequestsObeyTheBusContract := by
  intro i s t hi hx
  refine ⟨fun e he => ?_, ?_⟩
  · obtain ⟨hreq, hinp⟩ := host_event hi hx he
    obtain ⟨hop, hkey, hstatus, hlow, hcart, hframe, hout⟩ := hreq.contract
    refine ⟨hop, hkey, hstatus, hlow, hcart, hframe, hout, ?_⟩
    rw [hinp, isRead_iff, ← BitVec.toNat_inj]
    rfl
  · obtain ⟨ws, m, ho, hacc, rfl⟩ := host_accounted hi hx
    rw [finish_bus]
    exact hacc.wellOrdered ho

end Sys2Proof.Machine
end

section
/-! SUPPORT. The file byte space of spec/20_memory.md R62 over the reference device: what a read returns, what a write stores,
and that the frames of one file hold no byte of another (spec/42_frame_allocator.md R126, spec/44_rw_engine.md R153). -/

namespace Sys2Proof.Machine

variable {s t u : State} {h j : Nat}

/-! ### Commands on a usable handle -/

theorem exec_read_covered (hu : Usable s h) {count : Nat}
    (hc : covered (s.record h) (bytesToRead (s.record h) count) = true) :
    exec (.read h count) s = .next (finish (readBytes h (bytesToRead (s.record h) count) s.start)) := by
  obtain ⟨hi, hp, hh, ho⟩ := hu
  rw [exec_read hi hp, if_neg (not_not_intro hh), if_neg (by rw [ho]; nofun), if_pos hc]

theorem exec_write_usable (hu : Usable s h) (data : List Byte) :
    exec (.write h data) s = .next (finish (writeBytes h data s.start)) := by
  obtain ⟨hi, hp, hh, ho⟩ := hu
  rw [exec_write hi hp, if_neg (not_not_intro hh), if_neg (by rw [ho]; nofun)]

/-! ### Reading -/

/-- With the reference device a covered read succeeds with the file's bytes, and moves nothing but the cursor (R140). -/
theorem exec_read_reference (hu : Usable s h) (hs : Undisturbed s) {count n : Nat}
    (hn : n = bytesToRead (s.record h) count) (hc : covered (s.record h) n = true) :
    ∃ t, exec (.read h count) s = .next t ∧ Undisturbed t ∧ t.bus.mem = s.bus.mem ∧
      t.result = some (.success (.data (fileBytes s.bus.mem (s.record h) (s.record h).cursor n))) ∧
      t.record h = { s.record h with cursor := (s.record h).cursor + n } := by
  subst hn
  obtain ⟨t, hr, honly, ht, hmem, hcur⟩ :=
    readLoop_reference (bytesToRead (s.record h) count) h (bytesToRead (s.record h) count) [] s.start le_rfl hs
  refine ⟨finish (readBytes h (bytesToRead (s.record h) count) s.start), exec_read_covered hu hc, ?_⟩
  rw [readBytes, hr]
  refine ⟨ht, hmem, rfl, honly.record_self.trans ?_⟩
  rw [hcur]; rfl

/-- Settles O38: the loop of read over the reference device delivers the file's bytes. -/
theorem readReturnsTheFileBytes : Obligations.ReadReturnsTheFileBytes := by
  intro s h count n hu hs hn hc
  obtain ⟨t, hx, ht, hmem, hres, hrec⟩ :=
    exec_read_reference hu hs (hn.trans (bytesToRead_eq _ _).symm) (decide_eq_true hc)
  exact ⟨t, hx, ht, fun x => by rw [hmem], hres, hrec⟩

/-! ### Whose frames are whose (R32, R126) -/

theorem SessionInv.owned_nodup (hs : SessionInv s) : (ownedAddresses s).Nodup :=
  List.Nodup.of_map _ (hs.pool.nodup_iff.mpr List.nodup_range)

/-- No frame stands twice in one file's list. -/
theorem SessionInv.frames_nodup (hs : SessionInv s) (hh : h < s.nFiles) : (s.record h).frames.Nodup :=
  (List.nodup_flatMap.mp hs.owned_nodup).1 _ (record_mem (hs.listed hh))

/-- No frame stands in two files' lists. -/
theorem SessionInv.frames_disjoint (hs : SessionInv s) (hh : h < s.nFiles) (hj : j < s.nFiles) (hne : j ≠ h) :
    (s.record h).frames.Disjoint (s.record j).frames := by
  have hpair := List.pairwise_iff_getElem.mp (List.nodup_flatMap.mp hs.owned_nodup).2
  rw [record_getElem (hs.listed hh), record_getElem (hs.listed hj)]
  rcases Nat.lt_or_gt_of_ne hne with hlt | hlt
  · exact (hpair j h (hs.listed hj) (hs.listed hh) hlt).symm
  · exact hpair h j (hs.listed hh) (hs.listed hj) hlt

/-- The frame at an index inside the frame list is one of the file's own. -/
theorem frameOf_mem {r : FileRecord} {k : Nat} (hk : k < r.frames.length) : r.frames.getD k ⟨0, 0⟩ ∈ r.frames := by
  rw [List.getD_eq_getElem _ _ hk]; exact List.getElem_mem hk

/-- A transfer inside the frame list touches the file's own frames only. -/
theorem mem_frames_of_touched {r : FileRecord} {n : Nat} (hc : r.cursor + n ≤ 1024 * r.frames.length)
    {a : FrameAddress} (ha : a ∈ framesTouched r n) : a ∈ r.frames := by
  obtain ⟨k, hk, rfl⟩ := List.mem_map.mp ha
  have hlt := List.mem_range.mp hk
  refine frameOf_mem ?_
  unfold iterations at hlt
  split at hlt <;> omega

/-- What happens to frames that are not the file's leaves its bytes. -/
theorem DeviceSameOutside.fileByte {l : List FrameAddress} (hd : DeviceSameOutside l s t) {r : FileRecord}
    (hl : ∀ a ∈ l, a ∉ r.frames) {p : Nat} (hp : p < 1024 * r.frames.length) :
    fileByte t.bus.mem r p = fileByte s.bus.mem r p := by
  refine hd _ fun a ha hin => hl a ha ?_
  have hlin : a.linear = (r.frames.getD (p / 1024) ⟨0, 0⟩).linear := by
    simp only [byteAddress] at hin; omega
  rw [linear_injective hlin]
  exact frameOf_mem (by omega)

/-! ### Writing -/

/-- Appending free frames to one file of a session keeps the session's invariant. -/
theorem OnlyFrames.keeps_session {m : Nat} (ho : OnlyFrames h (nextAddresses s.nextFree.val m) s t) (hs : SessionInv s)
    (hh : h < s.nFiles) (room : s.nextFree.val + m ≤ 65536) (hn : t.nextFree.val = s.nextFree.val + m) :
    SessionInv t := by
  have hself := ho.record_self
  refine (ho.onlyFile.fileStep hh room hn (by rw [hself]) (by rw [hself]) fun ⟨hp, hq, hw⟩ => ?_).keeps_session hs ho.cfg
  rw [hself]
  exact ⟨hp.trans (by simp), hq.trans (by simp), hw⟩

/-- With the reference device a write with room succeeds: the frames missing are appended, cursor and length move past the
input, and the file holds the input from the old cursor on and what it held everywhere else (R143, R151). -/
theorem writeBytes_reference (hs : SessionInv s) (hu : Undisturbed s) (hh : h < s.nFiles) {data : List Byte}
    (room : s.nextFree.val + framesMissing (s.record h) data.length ≤ 65536) :
    ∃ t, writeBytes h data s = .done (.written data.length) t ∧ Undisturbed t ∧
      (t.record h).cursor = (s.record h).cursor + data.length ∧
      (t.record h).endPos = max (s.record h).endPos ((s.record h).cursor + data.length) ∧
      (t.record h).frames.length = (s.record h).frames.length + framesMissing (s.record h) data.length ∧
      ∀ p, p < 1024 * (t.record h).frames.length →
        fileByte t.bus.mem (t.record h) p =
          if (s.record h).cursor ≤ p ∧ p < (s.record h).cursor + data.length
          then data.getD (p - (s.record h).cursor) 0 else fileByte s.bus.mem (t.record h) p := by
  obtain ⟨-, a, ha, hna, hof⟩ | ⟨full, -⟩ := allocFrames_cases h (framesMissing (s.record h) data.length) s
  case inr => omega
  have hself := hof.record_self
  have hlen : (a.record h).frames.length = (s.record h).frames.length + framesMissing (s.record h) data.length := by
    rw [hself, List.length_append, nextAddresses_length]
  have hcur : (a.record h).cursor = (s.record h).cursor := by rw [hself]
  have hend : (a.record h).endPos = (s.record h).endPos := by rw [hself]
  have hnodup := (hof.keeps_session hs hh room hna).frames_nodup (h := h) (by rw [hof.nFiles]; exact hh)
  obtain ⟨b, hb, honly, hub, hcurb, hbytes⟩ := writeLoop_reference data.length h data a le_rfl
    (by rw [Undisturbed, hof.bus]; exact hu) hnodup (by rw [hcur, hlen]; exact framesMissing_covers _ _)
  have hrec : (commitLength h b).record h =
      { a.record h with cursor := (s.record h).cursor + data.length,
                        endPos := max (s.record h).endPos ((s.record h).cursor + data.length) } := by
    rw [commitLength_record, honly.record_self, hcurb, hcur, hend]
  have hmem : (commitLength h b).bus = b.bus := commitLength_bus h b
  refine ⟨commitLength h b, ?_, ?_, ?_, ?_, ?_, fun p hp => ?_⟩
  · rw [writeBytes, ha, bind_done, hb, endWrite_done]
  · rw [Undisturbed, hmem]; exact hub
  · rw [hrec]
  · rw [hrec]
  · rw [hrec]; exact hlen
  · have hframes : ((commitLength h b).record h).frames = (a.record h).frames := by rw [hrec]
    rw [hframes] at hp
    rw [fileByte_congr _ hframes, fileByte_congr _ hframes, hmem, hbytes p hp, hcur, hof.bus]

/-- Settles O41: the write over the reference device, with the frame count written out. -/
theorem writeChangesTheFileBytes : Obligations.WriteChangesTheFileBytes := by
  intro s h data hs hu hd room
  have hpow := hu.2.1
  have hh := hu.2.2.1
  obtain ⟨t, hr, ht, hcur, hend, hlen, hbytes⟩ := writeBytes_reference (s := s.start)
    ((hs.session hpow).congr rfl rfl rfl rfl) hd hh room
  refine ⟨finish (writeBytes h data s.start), exec_write_usable hu data, ?_⟩
  rw [hr]
  refine ⟨ht, rfl, hcur, hend, hlen.trans ?_, hbytes⟩
  simp only [record_start, framesMissing, ceilFrames]
  omega

/-! ### Other files -/

/-- A write that answers a next state was refused its handle, or ran on a known one. -/
theorem write_next_cases {data : List Byte} (hx : exec (.write h data) s = .next t) :
    (∃ e, t = s.start.reportError e) ∨ (h < s.nFiles ∧ t = finish (writeBytes h data s.start)) := by
  obtain ⟨hi, hp⟩ := write_next hx
  rw [exec_write hi hp] at hx
  split at hx
  case isTrue => exact .inl ⟨_, (Host.Outcome.next.inj hx).symm⟩
  case isFalse hh =>
    split at hx
    · exact .inl ⟨_, (Host.Outcome.next.inj hx).symm⟩
    · exact .inr ⟨not_not.mp hh, (Host.Outcome.next.inj hx).symm⟩

theorem write_record_other {data : List Byte} (hx : exec (.write h data) s = .next t) (hne : j ≠ h) :
    t.record j = s.record j := by
  rcases write_next_cases hx with ⟨e, rfl⟩ | ⟨-, rfl⟩
  · rfl
  · rw [record_finish, (writeBytes_onlyFile h data s.start).other j hne]; rfl

/-- A write on a resolved handle changes the device inside frames that its file then owns. -/
theorem writeBytes_deviceSameOutside (h : Nat) (data : List Byte) (s : State) :
    ∃ l, (∀ a ∈ l, a ∈ ((writeBytes h data s).state.record h).frames) ∧
      DeviceSameOutside l s (writeBytes h data s).state := by
  obtain ⟨-, r, hr, t, tr, -, -, -, -, hdev, hrec, -, hcase⟩ | ⟨-, t, hr, -, hof⟩ := writeBytes_cases h data s
  · have hstate : (writeBytes h data s).state = t := by
      rcases hcase with ⟨-, -, -, hw, -⟩ | ⟨-, -, hw, -⟩
      · rw [hw]; rfl
      · rw [hw]; rfl
    have hcover : r.cursor + data.length ≤ 1024 * r.frames.length := by
      rw [hr, List.length_append, nextAddresses_length]; exact framesMissing_covers (s.record h) data.length
    rw [hstate, hrec]
    exact ⟨_, fun a ha => mem_frames_of_touched hcover ha, hdev⟩
  · rw [hr, state_raised]
    exact ⟨[], nofun, fun x _ => by rw [hof.bus]⟩

/-- Whoever answers and whatever fails, a write to another file leaves a file's bytes (R153). -/
theorem write_fileByte_other (hs : Inv s) {data : List Byte} (hx : exec (.write h data) s = .next t)
    (hj : j < s.nFiles) (hne : j ≠ h) {p : Nat} (hpos : p < 1024 * (s.record j).frames.length) :
    fileByte t.bus.mem (s.record j) p = fileByte s.bus.mem (s.record j) p := by
  have ht := exec_keeps_inv hs hx
  have hother := write_record_other hx hne
  have hp := (write_next hx).2
  rcases write_next_cases hx with ⟨e, rfl⟩ | ⟨hh, rfl⟩
  · rfl
  · have honly := writeBytes_onlyFile h data s.start
    have hdisjoint := (ht.session (by rw [finish_powered, honly.powered]; exact hp)).frames_disjoint
      (by rw [finish_nFiles, honly.nFiles]; exact hh) (by rw [finish_nFiles, honly.nFiles]; exact hj) hne
    rw [hother, record_finish] at hdisjoint
    obtain ⟨l, hl, hdev⟩ := writeBytes_deviceSameOutside h data s.start
    rw [finish_bus]
    exact hdev.fileByte (fun a ha => hdisjoint (hl a ha)) hpos

/-- No write disturbs the reference device. -/
theorem write_undisturbed (hs : Inv s) (hu : Undisturbed s) {data : List Byte} (hx : exec (.write h data) s = .next t) :
    Undisturbed t := by
  rcases write_next_cases hx with ⟨e, rfl⟩ | ⟨hh, rfl⟩
  · exact hu
  · rw [Undisturbed, finish_bus]
    by_cases room : s.nextFree.val + framesMissing (s.record h) data.length ≤ 65536
    · obtain ⟨t, hr, ht, -⟩ := writeBytes_reference (s := s.start)
        ((hs.session (write_next hx).2).congr rfl rfl rfl rfl) hu hh room
      rw [hr]; exact ht
    · obtain ⟨hle, -⟩ | ⟨-, t, hr, -, hof⟩ := writeBytes_cases h data s.start
      · exact absurd hle room
      · rw [hr, state_raised, hof.bus]; exact hu

theorem fileBytes_eq_of_fileByte {m m' : Memory} {r : FileRecord} {p n : Nat}
    (hb : ∀ q, q < p + n → fileByte m' r q = fileByte m r q) : fileBytes m' r p n = fileBytes m r p n :=
  List.map_congr_left fun k hk => hb _ (by have := List.mem_range.mp hk; omega)

/-- Settles O44: the write leaves the record the read looks at and the file bytes it returns. -/
theorem readsIgnoreWritesToOtherFiles : Obligations.ReadsIgnoreWritesToOtherFiles := by
  intro s t u h j count data hs hu hne hw hr
  obtain ⟨hi, hp⟩ := read_next hr
  obtain ⟨heffect, hti⟩ := exec_effect hw
  have htp : t.powered = true := by
    rw [(heffect.powered nofun).resolve_right nofun]; exact hp
  have hnf : t.nFiles = s.nFiles := (heffect.table nofun).keeps_nFiles nofun
  have hrec := write_record_other hw hne
  by_cases hj : j < s.nFiles
  · cases ho : (s.record j).isOpen with
    | false =>
      rw [exec_read hi hp, if_neg (not_not_intro hj), if_pos ho] at hr
      cases hr
      refine ⟨t.start.reportError .notOpen, ?_, rfl, hrec⟩
      rw [exec_read hti htp, hnf, hrec, if_neg (not_not_intro hj), if_pos ho]
    | true =>
      have hcov := (hs.session hp).covered hj count
      obtain ⟨u', hr', -, -, hres, hurec⟩ := exec_read_reference ⟨hi, hp, hj, ho⟩ hu rfl hcov
      obtain ⟨v, hv, -, -, hvres, hvrec⟩ := exec_read_reference (s := t) (h := j) (count := count)
        ⟨hti, htp, hnf ▸ hj, hrec ▸ ho⟩ (write_undisturbed hs hu hw) rfl (hrec ▸ hcov)
      rw [hr'] at hr
      cases hr
      rw [hrec] at hvres hvrec
      refine ⟨v, hv, ?_, hvrec.trans hurec.symm⟩
      rw [hvres, hres, fileBytes_eq_of_fileByte fun q hq => write_fileByte_other hs hw hj hne ?_]
      obtain ⟨hend, hcur, -⟩ := (hs.session hp).positioned hj
      rw [bytesToRead_eq] at hq
      omega
  · rw [exec_read hi hp, if_pos hj] at hr
    cases hr
    refine ⟨t.start.reportError .invalidHandle, ?_, rfl, hrec⟩
    rw [exec_read hti htp, hnf, if_pos hj]

end Sys2Proof.Machine
end

section
/-! SUPPORT. Two runs of a host command that start from different contents of `scratch` (spec/10_state.md R33, decision D22):
they stay alike in all but `scratch` and the buffers passed to ReadFrame, and from a FrameFetch on `scratch` is the same
too. -/

namespace Sys2Proof.Machine

/-! ### States that differ in `scratch` and in buffers to be overwritten -/

/-- What of an event does not show a stale `scratch`: all but the buffer passed to ReadFrame. -/
def Event.view (e : Event) : Word × Option Frame × Word × Option Frame :=
  (e.cmd, if isRead e.cmd then none else e.out, e.resp, e.inp)

/-- The state with another `scratch` and another trace. -/
def State.restale (b : Frame) (tr : List Event) (s : State) : State :=
  { s with scratch := b, bus := { s.bus with trace := tr } }

/-- `u` differs from `s` at most in `scratch` and in the buffers its ReadFrames were passed. -/
def Alike (s u : State) : Prop :=
  ∃ b tr, u = s.restale b tr ∧ tr.map Event.view = s.bus.trace.map Event.view

/-- Alike, and `scratch` has been filled since. -/
def Fresh (s u : State) : Prop := Alike s u ∧ u.scratch = s.scratch

variable {s u : State}

theorem Alike.record (h : Alike s u) (j : Nat) : u.record j = s.record j := by
  obtain ⟨b, tr, rfl, -⟩ := h; rfl

theorem Alike.nFiles (h : Alike s u) : u.nFiles = s.nFiles := by
  obtain ⟨b, tr, rfl, -⟩ := h; rfl

theorem Alike.powered (h : Alike s u) : u.powered = s.powered := by
  obtain ⟨b, tr, rfl, -⟩ := h; rfl

theorem Alike.cfg (h : Alike s u) : u.cfg = s.cfg := by
  obtain ⟨b, tr, rfl, -⟩ := h; rfl

/-- Two alike states stay so under an update that neither looks at `scratch` and trace nor writes them. -/
theorem Alike.map (h : Alike s u) {g : State → State} (hg : ∀ s b tr, g (s.restale b tr) = (g s).restale b tr)
    (htrace : ∀ s, (g s).bus.trace = s.bus.trace) : Alike (g s) (g u) := by
  obtain ⟨b, tr, rfl, hv⟩ := h
  exact ⟨b, tr, hg s b tr, by rw [htrace]; exact hv⟩

theorem Alike.setRecord (h : Alike s u) (j : Nat) (r : FileRecord) : Alike (s.setRecord j r) (u.setRecord j r) :=
  h.map (fun _ _ _ => rfl) fun _ => rfl

theorem Alike.advanceCursor (h : Alike s u) (j k : Nat) : Alike (advanceCursor j k s) (advanceCursor j k u) :=
  h.map (fun _ _ _ => rfl) fun _ => rfl

theorem Alike.commitLength (h : Alike s u) (j : Nat) : Alike (commitLength j s) (commitLength j u) := by
  unfold Machine.commitLength
  rw [h.record]
  split
  · exact h.map (fun _ _ _ => rfl) fun _ => rfl
  · exact h

theorem Alike.setScratch (h : Alike s u) (b : Frame) : Fresh (s.setScratch b) (u.setScratch b) := by
  obtain ⟨c, tr, rfl, hv⟩ := h
  exact ⟨⟨b, tr, rfl, hv⟩, rfl⟩

/-! ### Pieces of a command that come to alike ends -/

/-- Both pieces go on with one value in states related by `R`, or raise one error in alike states. -/
inductive FlowsAlike {α : Type} (R : State → State → Prop) : Flow α → Flow α → Prop
  | done (a : α) {s u : State} (h : R s u) : FlowsAlike R (.done a s) (.done a u)
  | raised (e : ErrorKind) {s u : State} (h : Alike s u) : FlowsAlike R (.raised e s) (.raised e u)

theorem FlowsAlike.bind {α β : Type} {R Q : State → State → Prop} {m n : Flow α} {k l : α → State → Flow β}
    (h : FlowsAlike R m n) (hk : ∀ a s u, R s u → FlowsAlike Q (k a s) (l a u)) :
    FlowsAlike Q (m.bind k) (n.bind l) := by
  cases h with
  | done a h => exact hk a _ _ h
  | raised e h => exact .raised e h

/-- The status check looks at the response alone (R53, R55). -/
theorem FlowsAlike.statusCheck {R : State → State → Prop} (w : Word) (h : R s u) (ha : Alike s u) :
    FlowsAlike R (statusCheck w s) (statusCheck w u) := by
  unfold Machine.statusCheck
  split
  · exact .raised _ ha
  · exact .done () h

theorem FlowsAlike.finish {m n : Flow Value} (h : FlowsAlike Alike m n) : Alike (finish m) (finish n) := by
  cases h with
  | done a h => exact h.map (g := State.reportSuccess a) (fun _ _ _ => rfl) fun _ => rfl
  | raised e h => exact h.map (g := State.reportError e) (fun _ _ _ => rfl) fun _ => rfl

/-! ### Transfers -/

theorem afterFailure_retrace (b : Bus) (tr : List Event) (w : Word) :
    Bus.afterFailure { b with trace := tr } w = { b.afterFailure w with trace := tr } := by
  obtain ⟨_, mounted, _, _, _⟩ := b
  simp only [Bus.afterFailure]
  cases BusCommand.ofCode (unpack w).opcode.toNat with
  | none => rfl
  | some k => cases k <;> cases mounted <;> rfl

/-- Who answers, and with what, does not depend on the trace so far. -/
theorem respond_retrace (b : Bus) (tr : List Event) (w : Word) (o : Option Frame) :
    Bus.respond { b with trace := tr } w o = ((b.respond w o).1, { (b.respond w o).2 with trace := tr }) := by
  have hserve : Bus.serve { b with trace := tr } w o = b.serve w o := rfl
  simp only [Bus.respond, hserve]
  generalize b.serve w o = served
  obtain ⟨agent, mounted, mem, draws, trace⟩ := b
  rcases agent with (- | ⟨a, as⟩) | ovs
  · rfl
  · rfl
  · cases served with
    | none => rfl
    | some d =>
      simp only
      rcases ovs.head? with - | - | v
      · rfl
      · rfl
      · cases hv : failed v with
        | false => simp only [hv]; rfl
        | true =>
          simp only [hv, if_true]
          exact congrArg _ (afterFailure_retrace ⟨.reference ovs.tail, mounted, mem, draws, trace⟩ tr w)

theorem xfer_retrace (b : Bus) (tr : List Event) (w : Word) (o : Option Frame) :
    Bus.xfer { b with trace := tr } w o =
      ((b.xfer w o).1, { (b.xfer w o).2 with trace := tr ++ [eventOf b w o] }) := by
  simp only [Bus.xfer, respond_retrace]; rfl

/-- The buffer passed to ReadFrame is overwritten, not read (R52, R59). -/
theorem respond_read_buffer (b : Bus) (f : Nat) (c d : Frame) :
    b.respond (requestRead f) (some c) = b.respond (requestRead f) (some d) := by
  have hserve : b.serve (requestRead f) (some c) = b.serve (requestRead f) (some d) := by
    simp only [Bus.serve, unpack_requestRead]
    cases b.mounted <;> rfl
  simp only [Bus.respond, hserve]

theorem xfer_read_buffer (b : Bus) (f : Nat) (c d : Frame) :
    (b.xfer (requestRead f) (some c)).1 = (b.xfer (requestRead f) (some d)).1 ∧
    (b.xfer (requestRead f) (some c)).2 =
      { (b.xfer (requestRead f) (some d)).2 with trace := b.trace ++ [eventOf b (requestRead f) (some c)] } ∧
    (eventOf b (requestRead f) (some c)).view = (eventOf b (requestRead f) (some d)).view := by
  simp only [Bus.xfer, eventOf, Event.view, respond_read_buffer b f c d, isRead_requestRead, if_true, and_self]

/-- A transfer with the same buffer from alike states. -/
theorem Alike.issue (h : Alike s u) (w : Word) (o : Option Frame) :
    (u.issue w o).1 = (s.issue w o).1 ∧ Alike (s.issue w o).2 (u.issue w o).2 := by
  obtain ⟨b, tr, rfl, hv⟩ := h
  have hx : Bus.xfer (s.restale b tr).bus w o = _ := xfer_retrace s.bus tr w o
  refine ⟨by simp only [State.issue, hx], b, tr ++ [eventOf s.bus w o], ?_, ?_⟩
  · simp only [State.issue, hx]; rfl
  · rw [issue_trace, List.map_append, hv, List.map_append]

/-- A request with no buffer and its status check. -/
theorem request_alike (h : Alike s u) (w : Word) :
    FlowsAlike Alike (statusCheck (s.issue w none).1.resp (s.issue w none).2)
      (statusCheck (u.issue w none).1.resp (u.issue w none).2) := by
  obtain ⟨hresp, ht⟩ := h.issue w none
  rw [hresp]
  exact .statusCheck _ ht ht

theorem busInit_alike (h : Alike s u) : FlowsAlike Alike (busInit s) (busInit u) := request_alike h _

theorem busLoad_alike (h : Alike s u) (c : Nat) : FlowsAlike Alike (busLoad c s) (busLoad c u) := request_alike h _

theorem busZero_alike (h : Alike s u) : FlowsAlike Alike (busZero s) (busZero u) := request_alike h _

theorem busOff_alike (h : Alike s u) : FlowsAlike Alike (busOff s) (busOff u) := request_alike h _

/-- WriteFrame sends `scratch`, which must be the same. -/
theorem busWrite_alike (h : Fresh s u) (f : Nat) : FlowsAlike Alike (busWrite f s) (busWrite f u) := by
  obtain ⟨hresp, ht⟩ := h.1.issue (requestWrite f) (some s.scratch)
  simp only [busWrite, h.2, hresp]
  exact .statusCheck _ ht ht

/-- ReadFrame makes alike states fresh. -/
theorem busRead_fresh (h : Alike s u) (f : Nat) : FlowsAlike Fresh (busRead f s) (busRead f u) := by
  obtain ⟨hresp, ht⟩ := h.issue (requestRead f) (some u.scratch)
  obtain ⟨hans, hbus, hview⟩ := xfer_read_buffer s.bus f u.scratch s.scratch
  have hs : Alike (s.issue (requestRead f) (some s.scratch)).2 (u.issue (requestRead f) (some u.scratch)).2 := by
    obtain ⟨b, tr, hu, hv⟩ := ht
    refine ⟨b, tr, ?_, ?_⟩
    · rw [hu]
      simp only [State.issue, State.restale, hbus]
    · rw [hv, issue_trace, issue_trace, List.map_append, List.map_append, List.map_singleton, hview]
      rfl
  have hfill := hs.setScratch (s.bus.xfer (requestRead f) (some s.scratch)).1.data
  rw [issue_fst, issue_fst, hans] at hresp
  simp only [busRead, issue_fst, hresp]
  exact .statusCheck _ hfill hfill.1

theorem frameFetch_fresh (h : Alike s u) (a : FrameAddress) : FlowsAlike Fresh (frameFetch a s) (frameFetch a u) :=
  (busLoad_alike h a.cart.val).bind fun _ _ _ ht => busRead_fresh ht a.frame.val

/-! ### The loops -/

theorem zeroCartridges_alike (l : List (Fin 64)) (h : Alike s u) :
    FlowsAlike Alike (zeroCartridges l s) (zeroCartridges l u) := by
  induction l generalizing s u with
  | nil => exact .done () h
  | cons c l ih =>
    exact (busLoad_alike h c.val).bind fun _ _ _ ht => (busZero_alike ht).bind fun _ _ _ hv => ih hv

theorem readLoop_alike (fuel h rem : Nat) (out : List Byte) (ha : Alike s u) :
    FlowsAlike Alike (readLoop fuel h rem out s) (readLoop fuel h rem out u) := by
  induction fuel generalizing rem out s u with
  | zero => exact .done out ha
  | succ fuel ih =>
    simp only [readLoop, ha.record]
    split
    · exact .done out ha
    · refine (frameFetch_fresh ha _).bind fun _ t v hf => ?_
      simp only [chunkRead, hf.2, hf.1.record]
      exact ih _ _ (hf.1.advanceCursor h _)

theorem Fresh.modifyScratch (hf : Fresh s u) (h : Nat) (rest : List Byte) :
    Fresh (modifyScratch h rest s) (modifyScratch h rest u) := by
  simp only [Machine.modifyScratch, hf.2, hf.1.record]
  exact hf.1.setScratch _

theorem writeLoop_alike (fuel h : Nat) (rest : List Byte) (ha : Alike s u) :
    FlowsAlike Alike (writeLoop fuel h rest s) (writeLoop fuel h rest u) := by
  induction fuel generalizing rest s u with
  | zero => exact .done () ha
  | succ fuel ih =>
    simp only [writeLoop, ha.record]
    split
    · exact .done () ha
    · refine (frameFetch_fresh ha _).bind fun _ t v hf => ?_
      rw [hf.1.record]
      refine (busWrite_alike (hf.modifyScratch h rest) _).bind fun _ x y hw => ?_
      rw [hw.record]
      exact ih _ (hw.advanceCursor h _)

theorem allocAppend_alike (h : Nat) (ha : Alike s u) : FlowsAlike Alike (allocAppend h s) (allocAppend h u) := by
  obtain ⟨b, tr, rfl, hv⟩ := ha
  by_cases hf : s.nextFree.val < 65536
  · simp only [allocAppend, allocate, dif_pos hf, dif_pos (show (s.restale b tr).nextFree.val < 65536 from hf), bind_done]
    exact .done () ⟨b, tr, rfl, hv⟩
  · rw [allocAppend_full h hf, allocAppend_full h (s := s.restale b tr) hf]
    exact .raised _ ⟨b, tr, rfl, hv⟩

theorem allocFrames_alike (h n : Nat) (ha : Alike s u) : FlowsAlike Alike (allocFrames h n s) (allocFrames h n u) := by
  induction n generalizing s u with
  | zero => exact .done () ha
  | succ n ih => exact (allocAppend_alike h ha).bind fun _ _ _ ht => ih ht

/-! ### What each command comes to -/

theorem resolve_alike (h : Nat) (ha : Alike s u) : FlowsAlike Alike (resolve h s) (resolve h u) := by
  simp only [resolve, ha.nFiles, ha.record]
  split
  · exact .raised _ ha
  · split
    · exact .raised _ ha
    · exact .done () ha

theorem endPowerOn_alike {m n : Flow Unit} (h : FlowsAlike Alike m n) :
    FlowsAlike Alike (endPowerOn m) (endPowerOn n) := by
  cases h with
  | done a h => exact .done _ (h.map (fun _ _ _ => rfl) fun _ => rfl)
  | raised e h =>
    obtain ⟨b, tr, rfl, hv⟩ := h
    exact .raised e ⟨_, tr, rfl, hv⟩

theorem powerOn_alike (h : Alike s u) :
    FlowsAlike Alike (endPowerOn (powerOnTransfers s)) (endPowerOn (powerOnTransfers u)) :=
  endPowerOn_alike ((busInit_alike h).bind fun _ _ _ ht => zeroCartridges_alike _ ht)

theorem powerOff_alike (h : Alike s u) : FlowsAlike Alike (endPowerOff (busOff s)) (endPowerOff (busOff u)) :=
  (busOff_alike h).bind fun _ _ _ ht => .done Value.unit (ht.map (fun _ _ _ => rfl) fun _ => rfl)

theorem openPath_alike (p : Path) (h : Alike s u) : FlowsAlike Alike (openPath p s) (openPath p u) := by
  have hfind : u.findPath p = s.findPath p := by
    simp only [State.findPath, h.nFiles, h.record]
  simp only [openPath, hfind]
  cases s.findPath p with
  | some j =>
    simp only [reopen, h.record]
    split
    · exact .raised _ h
    · exact .done _ (h.setRecord _ _)
  | none =>
    simp only [createFile, h.cfg, h.nFiles]
    split
    · exact .raised _ h
    · exact .done _ ((h.setRecord _ _).map (g := fun s => { s with nFiles := _ }) (fun _ _ _ => rfl) fun _ => rfl)

theorem seekTo_alike (h o : Nat) (ha : Alike s u) : FlowsAlike Alike (seekTo h o s) (seekTo h o u) := by
  simp only [seekTo, ha.record]
  split
  · exact .raised _ ha
  · exact .done _ (ha.map (fun _ _ _ => rfl) fun _ => rfl)

theorem readBytes_alike (h n : Nat) (ha : Alike s u) : FlowsAlike Alike (readBytes h n s) (readBytes h n u) :=
  (readLoop_alike n h n [] ha).bind fun out _ _ ht => .done (Value.data out) ht

theorem endWrite_alike (h len : Nat) {m n : Flow Unit} (hm : FlowsAlike Alike m n) :
    FlowsAlike Alike (endWrite h len m) (endWrite h len n) := by
  cases hm with
  | done a ha => exact .done _ (ha.commitLength h)
  | raised e ha =>
    simp only [endWrite, ha.cfg]
    split
    · exact .raised e (ha.commitLength h)
    · exact .raised e ha

theorem writeBytes_alike (h : Nat) (data : List Byte) (ha : Alike s u) :
    FlowsAlike Alike (writeBytes h data s) (writeBytes h data u) := by
  simp only [writeBytes, ha.record]
  exact (allocFrames_alike h _ ha).bind fun _ _ _ ht => endWrite_alike h _ (writeLoop_alike _ h data ht)

/-! ### Commands -/

/-- Both outcomes are alike next states, or the same stop. -/
inductive OutcomesAlike : Host.Outcome State Fault Refusal → Host.Outcome State Fault Refusal → Prop
  | next {s u : State} (h : Alike s u) : OutcomesAlike (.next s) (.next u)
  | fault (r : Fault) : OutcomesAlike (.fault r) (.fault r)
  | refused (r : Refusal) : OutcomesAlike (.refused r) (.refused r)

/-- A body that does not tell alike states apart, run from two states that are alike once started. -/
theorem whenIdle_alike {body : State → Host.Outcome State Fault Refusal}
    (hb : ∀ s u, Alike s u → OutcomesAlike (body s) (body u)) (hseq : u.seq = s.seq) (hstart : Alike s.start u.start) :
    OutcomesAlike (whenIdle s body) (whenIdle u body) := by
  simp only [whenIdle, hseq]
  cases s.seq with
  | waiting w j => exact .fault _
  | idle => exact hb _ _ hstart

theorem inSession_alike {body : State → Host.Outcome State Fault Refusal}
    (hb : ∀ s u, Alike s u → OutcomesAlike (body s) (body u)) (hseq : u.seq = s.seq) (hstart : Alike s.start u.start) :
    OutcomesAlike (inSession s body) (inSession u body) := by
  refine whenIdle_alike (fun t v h => ?_) hseq hstart
  rw [h.powered]
  split
  · exact hb t v h
  · exact .refused _

/-- No host command looks at what `scratch` held before it. -/
theorem host_alike {i : Instr} (hi : isHostCommand i = true) (s : State) (b : Frame) :
    OutcomesAlike (exec i s) (exec i { s with scratch := b }) := by
  have hstart : Alike s.start { s with scratch := b }.start := ⟨b, [], rfl, rfl⟩
  cases i with
  | powerOn => exact whenIdle_alike (fun _ _ h => .next (powerOn_alike h).finish) rfl hstart
  | powerOff => exact inSession_alike (fun _ _ h => .next (powerOff_alike h).finish) rfl hstart
  | openFile p => exact inSession_alike (fun _ _ h => .next (openPath_alike p h).finish) rfl hstart
  | close j =>
    refine inSession_alike (fun _ _ h => .next (((resolve_alike j h).bind fun _ t v ht => ?_).finish)) rfl hstart
    exact .done _ (ht.map (fun _ _ _ => rfl) fun _ => rfl)
  | seek j o =>
    exact inSession_alike (fun _ _ h => .next ((resolve_alike j h).bind fun _ _ _ ht => seekTo_alike j o ht).finish) rfl hstart
  | write j data =>
    exact inSession_alike
      (fun _ _ h => .next ((resolve_alike j h).bind fun _ _ _ ht => writeBytes_alike j data ht).finish) rfl hstart
  | read j n =>
    simp only [exec, execRead]
    refine inSession_alike (fun t v h => ?_) rfl hstart
    have hr := resolve_alike j h
    generalize resolve j t = m at hr ⊢
    generalize resolve j v = n at hr ⊢
    cases hr with
    | done a ht =>
      simp only [ht.record]
      split
      · exact .next (readBytes_alike j _ ht).finish
      · exact .fault _
    | raised e ht => exact .next (ht.map (fun _ _ _ => rfl) fun _ => rfl)
  | initSystem => cases hi
  | zeroCartridge => cases hi
  | loadCartridge c => cases hi
  | readFrame f => cases hi
  | writeFrame f => cases hi
  | busPowerOff => cases hi
  | reserved7 => cases hi

/-- Settles O57: the two runs are alike, and an event's view is what the claim compares. -/
theorem staleScratchIsNotObservable : Obligations.StaleScratchIsNotObservable := by
  intro i s t b hi hx
  have h := host_alike hi s b
  rw [hx] at h
  cases hu : exec i { s with scratch := b } with
  | next u =>
    rw [hu] at h
    cases h with | next h
    obtain ⟨c, tr, rfl, hv⟩ := h
    exact ⟨_, rfl, rfl, hv⟩
  | fault r => rw [hu] at h; cases h
  | refused r => rw [hu] at h; cases h

end Sys2Proof.Machine
end

section
/-! SUPPORT. Opcode numbers and the names of the bus commands (spec/30_encoding.md R83, R86; spec/40_register_codec.md
R105): which number the partial decoder turns into which name, and what the word decoder does with the others. -/

namespace Sys2Proof

/-- `code` and `ofCode` are inverse to each other, so each name has exactly one number. -/
theorem BusCommand.ofCode_eq_some_iff {n : Nat} {k : BusCommand} : BusCommand.ofCode n = some k ↔ n = k.code := by
  constructor
  · intro h
    unfold BusCommand.ofCode at h
    split_ifs at h <;> cases h <;> assumption
  · rintro rfl
    cases k <;> rfl

@[simp] theorem BusCommand.ofCode_code (k : BusCommand) : BusCommand.ofCode k.code = some k :=
  BusCommand.ofCode_eq_some_iff.2 rfl

/-- The reserved numbers (R86) are those from 6 on. -/
theorem BusCommand.ofCode_eq_none_iff {n : Nat} : BusCommand.ofCode n = none ↔ 6 ≤ n := by
  constructor
  · intro h
    by_contra hn
    have hlt : n < 6 := Nat.lt_of_not_le hn
    interval_cases n <;> cases h
  · intro hn
    have hne (m : Nat) (hm : m < 6) : n ≠ m := by omega
    simp [BusCommand.ofCode, hne]

theorem BusCommand.ofCode_isSome_iff {n : Nat} : (BusCommand.ofCode n).isSome = true ↔ n ≤ 5 := by
  rw [Option.isSome_iff_ne_none, Ne, BusCommand.ofCode_eq_none_iff]
  omega

/-- The word decoder checks the opcode before every other field (R86, log entry 14). -/
theorem decode_bus_of_ofCode_none {w : Word} (h : BusCommand.ofCode (unpack w).opcode.toNat = none) :
    decode (.bus w) = .error (.reservedOpcode (unpack w).opcode) := by
  simp only [decode, decodeBus, h]

end Sys2Proof

namespace Sys2Proof.Machine

/-- Settles O5: `ofCode` inverts `code`, and it gives no name exactly from 6 on. -/
theorem opcodeNumbersNameSixCommands : Obligations.OpcodeNumbersNameSixCommands :=
  ⟨BusCommand.ofCode_code, fun _ _ h => BusCommand.ofCode_eq_some_iff.1 h, fun _ => BusCommand.ofCode_isSome_iff,
    fun _ h => decode_bus_of_ofCode_none (BusCommand.ofCode_eq_none_iff.2 h)⟩

end Sys2Proof.Machine
end

section
/-! SUPPORT. `pack` as the formula of spec/40_register_codec.md R100 on numbers, and as the sum of its five terms. -/

namespace Sys2Proof

/-- Cutting a number to `w` bits after shifting it is shifting it within `w` bits. -/
theorem ofNat_shiftLeft_eq (w x n : Nat) : BitVec.ofNat w (x <<< n) = BitVec.ofNat w x <<< n := by
  apply BitVec.eq_of_toNat_eq
  simp only [BitVec.toNat_ofNat, BitVec.toNat_shiftLeft, Nat.shiftLeft_eq, Nat.mod_mul_mod]

/-- The parts of a concatenation occupy disjoint bits, so its value is the sum of theirs. -/
theorem toNat_append_eq_add {m n : Nat} (x : BitVec m) (y : BitVec n) :
    (x ++ y).toNat = x.toNat * 2 ^ n + y.toNat := by
  rw [BitVec.toNat_append, ← Nat.shiftLeft_add_eq_or_of_lt y.isLt, Nat.shiftLeft_eq]

theorem pack_eq_ofNat (op k2 st c f : Nat) :
    pack op k2 st c f =
      BitVec.ofNat 64 (((op &&& 0xFF) <<< 56) ||| ((k2 &&& 0xFF) <<< 48) ||| ((st &&& 0x1) <<< 47) |||
        ((c &&& 0xFFFF) <<< 31) ||| ((f &&& 0xFFFF) <<< 15)) := by
  simp only [pack, BitVec.ofNat_or, BitVec.ofNat_and, ofNat_shiftLeft_eq]

theorem toNat_pack (op k2 st c f : Nat) :
    (pack op k2 st c f).toNat =
      (op % 256) * 2 ^ 56 + (k2 % 256) * 2 ^ 48 + (st % 2) * 2 ^ 47 + (c % 65536) * 2 ^ 31 + (f % 65536) * 2 ^ 15 := by
  rw [Machine.pack_eq_append]
  simp only [toNat_append_eq_add, BitVec.toNat_ofNat]
  omega

/-- The low fifteen bits are clear exactly when the word is a multiple of `2 ^ 15`. -/
theorem and_low_eq_zero_iff (w : Word) : w &&& 0x7FFF#64 = 0#64 ↔ w.toNat % 2 ^ 15 = 0 := by
  rw [← BitVec.toNat_inj, BitVec.toNat_and, ← Nat.and_two_pow_sub_one_eq_mod]
  rfl

theorem pack_low (op k2 st c f : Nat) : pack op k2 st c f &&& 0x7FFF#64 = 0#64 := by
  rw [and_low_eq_zero_iff, toNat_pack]
  omega

end Sys2Proof

namespace Sys2Proof.Machine

/-- Settles O1: the formula on numbers, the sum read off `pack` as a concatenation, and the low bits off the sum. -/
theorem packPlacesEachFieldInItsBits : Obligations.PackPlacesEachFieldInItsBits := fun op k2 st c f =>
  ⟨pack_eq_ofNat op k2 st c f, toNat_pack op k2 st c f, pack_low op k2 st c f⟩

end Sys2Proof.Machine
end

section
/-! SUPPORT. What single transfers come to: each bus command on its own (spec/41_bus_commands.md R110 to R115), and the host
command powerOff, whose one transfer is the bus command's (spec/45_lifecycle.md R162, R163). -/

namespace Sys2Proof.Machine

variable {s : State}

/-- A bus command that is ready leaves the state after its transfer. -/
theorem runBus_ready {i : Instr} {w : Word} {o : Option Frame} {op : State → Flow Unit} {buf : Frame} (hr : Ready s i)
    (hlists : (s.bus.serve w o).isSome = true ↔ s.bus.lists i)
    (hop : op s = statusCheck (s.issue w o).1.resp { (s.issue w o).2 with scratch := buf }) :
    runBus s w o op = .next (afterTransfer s w o buf) :=
  runBus_eq s w o buf op ((accepts_iff_ready s i w o hlists).mpr hr) hop

/-- The reference device lists InitSystem in every state (R59), so it is always ready. -/
theorem exec_initSystem (s : State) : exec .initSystem s = .next (afterTransfer s requestInit none s.scratch) :=
  runBus_ready (i := .initSystem) (.inr trivial) (serve_init_iff _) rfl

theorem exec_zeroCartridge (hr : Ready s .zeroCartridge) :
    exec .zeroCartridge s = .next (afterTransfer s requestZero none s.scratch) :=
  runBus_ready hr (serve_zero_iff _) rfl

theorem exec_loadCartridge {c : BitVec 16} (hr : Ready s (.loadCartridge c)) :
    exec (.loadCartridge c) s = .next (afterTransfer s (requestLoad c.toNat) none s.scratch) :=
  runBus_ready hr (serve_load_iff _ c) rfl

theorem exec_readFrame {f : BitVec 16} (hr : Ready s (.readFrame f)) :
    exec (.readFrame f) s = .next (afterTransfer s (requestRead f.toNat) (some s.scratch)
      (s.bus.xfer (requestRead f.toNat) (some s.scratch)).1.data) :=
  runBus_ready hr (serve_read_iff _ f _) rfl

theorem exec_writeFrame {f : BitVec 16} (hr : Ready s (.writeFrame f)) :
    exec (.writeFrame f) s = .next (afterTransfer s (requestWrite f.toNat) (some s.scratch) s.scratch) :=
  runBus_ready hr (serve_write_iff _ f _) rfl

/-- The reference device lists PowerOff in every state (R59), so it is always ready. -/
theorem exec_busPowerOff (s : State) : exec .busPowerOff s = .next (afterTransfer s requestOff none s.scratch) :=
  runBus_ready (i := .busPowerOff) (.inr trivial) (serve_off_iff _) rfl

/-- Settles O19: each command is the transfer of its request, and the request is the word the rule gives. -/
theorem sessionBusCommandsAreOneTransfer : Obligations.SessionBusCommandsAreOneTransfer := by
  refine ⟨fun s => ?_, fun s hr => ?_, fun s c hr => ?_, fun s => ?_⟩
  · rw [exec_initSystem, requestInit_word]
  · rw [exec_zeroCartridge hr, requestZero_word]
  · rw [exec_loadCartridge hr, requestLoad_word]
  · rw [exec_busPowerOff, requestOff_word]

/-- Settles O20: the two commands pass `scratch`, and only ReadFrame takes the callee's buffer back into it. -/
theorem frameBusCommandsAreOneTransfer : Obligations.FrameBusCommandsAreOneTransfer := by
  refine ⟨fun s f hr => ?_, fun s f hr => ?_⟩
  · rw [exec_readFrame hr, requestRead_word]
  · rw [exec_writeFrame hr, requestWrite_word]

/-- powerOff whose transfer fails ends in DeviceError and leaves the session on (R162, decision D13). -/
theorem exec_powerOff_of_failed (hi : s.seq = .idle) (hp : s.powered = true)
    (hf : failed (eventOf s.start.bus requestOff none).resp = true) :
    exec .powerOff s = .next ((s.start.issue requestOff none).2.reportError .deviceError) := by
  have hoff : busOff s.start = .raised .deviceError (s.start.issue requestOff none).2 := statusCheck_of_failed hf _
  rw [exec_powerOff hi hp, hoff]
  rfl

/-- powerOff whose transfer succeeds clears `powered` (R162). -/
theorem exec_powerOff_of_ok (hi : s.seq = .idle) (hp : s.powered = true)
    (hf : failed (eventOf s.start.bus requestOff none).resp = false) :
    exec .powerOff s = .next (((s.start.issue requestOff none).2.setPowered false).reportSuccess .unit) := by
  have hoff : busOff s.start = .done () (s.start.issue requestOff none).2 := statusCheck_of_ok hf _
  rw [exec_powerOff hi hp, hoff]
  rfl

/-- Settles O26: the one event is that of the PowerOff request; its status decides `powered` and the result, and the
transfer writes no other register. -/
theorem powerOffEndsTheSession : Obligations.PowerOffEndsTheSession := by
  intro s hi hp
  have hreference : Undisturbed s → failed (eventOf s.start.bus requestOff none).resp = false :=
    fun hu => (reference_off (b := s.start.bus) hu).1
  cases hf : failed (eventOf s.start.bus requestOff none).resp with
  | true =>
    exact ⟨_, _, exec_powerOff_of_failed hi hp hf, rfl, requestOff_word, rfl, rfl, rfl, rfl, rfl, rfl, rfl, rfl,
      .inr ⟨hf, rfl, hp⟩, hreference⟩
  | false =>
    exact ⟨_, _, exec_powerOff_of_ok hi hp hf, rfl, requestOff_word, rfl, rfl, rfl, rfl, rfl, rfl, rfl, rfl,
      .inl ⟨hf, rfl, rfl⟩, hreference⟩

end Sys2Proof.Machine
end

section
/-! SUPPORT. The Frame Allocator (spec/42_frame_allocator.md): one allocation (R121, R122), whose the allocated frames are
(R126, R127), and that a write's requests stay inside its own file's frames (spec/44_rw_engine.md R153). -/

namespace Sys2Proof.Machine

variable {s t : State} {h : Nat}

/-! ### One allocation -/

/-- The state after an allocation: `next_free` is one further. -/
def takeLowest (s : State) (hf : s.nextFree.val < 65536) : State :=
  { s with nextFree := ⟨s.nextFree.val + 1, Nat.succ_lt_succ hf⟩ }

theorem allocate_free (hf : s.nextFree.val < 65536) :
    allocate s = .done (lowestFree s.nextFree.val) (takeLowest s hf) :=
  dif_pos hf

theorem allocate_full (hf : s.nextFree.val = 65536) : allocate s = .raised .deviceFull s :=
  dif_neg (by omega)

theorem lowestFree_cart {n : Nat} (hn : n < 65536) : (lowestFree n).cart.val = n / 1024 :=
  Nat.mod_eq_of_lt (by omega)

theorem lowestFree_frame (n : Nat) : (lowestFree n).frame.val = n % 1024 :=
  Nat.mod_mod n 1024

/-- `alloc_append` with a free address left, as the two writes it makes. -/
theorem allocAppend_eq (h : Nat) (hf : s.nextFree.val < 65536) :
    allocAppend h s = .done () ((takeLowest s hf).setRecord h
      { s.record h with frames := (s.record h).frames ++ [lowestFree s.nextFree.val] }) := by
  rw [allocAppend, allocate_free hf]
  rfl

/-- Settles O32: with a free address left `allocate` takes `lowestFree`, and on the empty pool it fails. -/
theorem allocateTakesTheLowestFreeAddress : Obligations.AllocateTakesTheLowestFreeAddress := fun _ =>
  ⟨allocate_full, fun hf =>
    ⟨_, _, allocate_free hf, lowestFree_cart hf, lowestFree_frame _, rfl, rfl⟩⟩

/-- Settles O33: the two writes of `alloc_append` read off its result, which on the empty pool makes neither. -/
theorem allocationAndAppendAreOneStep : Obligations.AllocationAndAppendAreOneStep := by
  refine fun h s => ⟨fun hfull => allocAppend_full h (by omega), fun hf => ?_⟩
  refine ⟨_, _, allocAppend_eq h hf, lowestFree_linear hf, rfl, record_setRecord_self .., fun j hj => ?_, rfl⟩
  rw [record_setRecord, if_neg hj]
  rfl

/-! ### Whose the allocated frames are -/

/-- In a session the table is the list of the known handles' records. -/
theorem SessionInv.ft_eq_map_record (hs : SessionInv s) : s.ft = (List.range s.nFiles).map s.record := by
  refine List.ext_getElem (by simp [hs.count]) fun j hj _ => ?_
  rw [List.getElem_map, List.getElem_range, record_getElem hj]

/-- In a session the owned addresses are those of the known handles, handle by handle. -/
theorem SessionInv.ownedAddresses_eq (hs : SessionInv s) :
    ownedAddresses s = (List.range s.nFiles).flatMap fun h => (s.record h).frames := by
  rw [ownedAddresses, hs.ft_eq_map_record, List.flatMap_map]

/-- A frame is owned exactly when it has been allocated (R127). -/
theorem SessionInv.mem_ownedAddresses_iff (hs : SessionInv s) (a : FrameAddress) :
    a ∈ ownedAddresses s ↔ a.linear < s.nextFree.val := by
  rw [← List.mem_range, ← hs.pool.mem_iff, List.mem_map_of_injective fun _ _ => linear_injective]

/-- As many frames are owned as have been allocated. -/
theorem SessionInv.length_ownedAddresses (hs : SessionInv s) : (ownedAddresses s).length = s.nextFree.val := by
  simpa using hs.pool.length_eq

/-- Settles O34: the pool's part of the invariant, with the owned addresses listed handle by handle. -/
theorem framesBelongToOneFile : Obligations.FramesBelongToOneFile := by
  refine fun s hs => ⟨fun _ hh => hs.frames_nodup hh,
    fun _ _ hh hj hne _ hah haj => hs.frames_disjoint hh hj hne.symm hah haj, fun a => ?_, ?_⟩
  · rw [← hs.mem_ownedAddresses_iff, hs.ownedAddresses_eq]
    simp only [List.mem_flatMap, List.mem_range]
  · rw [← List.length_flatMap, ← hs.ownedAddresses_eq, hs.length_ownedAddresses]

/-! ### The requests of a write -/

/-- The transfers of a write on a resolved handle are for frames that its file then owns. -/
theorem writeBytes_requests_own_frames (h : Nat) (data : List Byte) (hs : s.bus.trace = []) :
    ∃ l, (∀ a ∈ l, a ∈ ((writeBytes h data s).state.record h).frames) ∧
      (writeBytes h data s).state.bus.trace.map (fun e => e.cmd) <+: writeRequests l := by
  obtain ⟨-, r, hr, t, tr, -, -, -, htr, -, hrec, -, hcase⟩ | ⟨-, t, hw, -, hof⟩ := writeBytes_cases h data s
  · obtain ⟨hstate, hcmds⟩ : (writeBytes h data s).state = t ∧
        tr.map (fun e => e.cmd) <+: writeRequests (framesTouched r data.length) := by
      rcases hcase with ⟨-, hcmds, -, hw, -⟩ | ⟨-, hcmds, hw, -⟩
      · exact ⟨congrArg Flow.state hw, hcmds ▸ List.prefix_rfl⟩
      · exact ⟨congrArg Flow.state hw, hcmds⟩
    have hcover : r.cursor + data.length ≤ 1024 * r.frames.length := by
      rw [hr, List.length_append, nextAddresses_length]; exact framesMissing_covers (s.record h) data.length
    rw [hstate, hrec, htr, hs, List.nil_append]
    exact ⟨_, fun a ha => mem_frames_of_touched hcover ha, hcmds⟩
  · rw [hw, state_raised, hof.bus, hs]
    exact ⟨[], nofun, List.prefix_rfl⟩

/-- Whoever answers, a write sends requests for frames of its own file only (R153). -/
theorem write_requests_own_frames {data : List Byte} (hx : exec (.write h data) s = .next t) :
    ∃ l : List FrameAddress, (∀ a ∈ l, a ∈ (t.record h).frames) ∧
      t.bus.trace.map (fun e => e.cmd) <+: writeRequests l := by
  rcases write_next_cases hx with ⟨e, rfl⟩ | ⟨-, rfl⟩
  · exact ⟨[], nofun, List.prefix_rfl⟩
  · rw [record_finish, finish_bus]
    exact writeBytes_requests_own_frames h data rfl

/-- Settles O43: the requests are for the file's own frames, which no other file shares, and no other record is
written. -/
theorem writesLeaveOtherFilesAlone : Obligations.WritesLeaveOtherFilesAlone :=
  fun _ _ _ _ hs hx => ⟨write_requests_own_frames hx, fun _ hj hne =>
    ⟨write_record_other hx hne, fun _ hp => write_fileByte_other hs hx hj hne hp⟩⟩

end Sys2Proof.Machine
end

section
/-! SUPPORT. The File Table (spec/43_file_table.md): the handle checks that come first (R130), the state after a command that
writes one record, and open and close read off it (R131, R133, R136). -/

namespace Sys2Proof.Machine

variable {s : State} {h : Nat}

/-! ### Handles that do not resolve (R130) -/

/-- The commands given a handle: close, read, write and seek. -/
def TakesHandle (h : Nat) (i : Instr) : Prop :=
  i = .close h ∨ (∃ n, i = .read h n) ∨ (∃ data, i = .write h data) ∨ ∃ o, i = .seek h o

/-- The checks of `resolve` stand before the command's own part. -/
theorem TakesHandle.exec_eq {i : Instr} (ht : TakesHandle h i) (hi : s.seq = .idle) (hp : s.powered = true) :
    ∃ own : Host.Outcome State Fault Refusal, exec i s =
      if ¬ h < s.nFiles then .next (s.start.reportError .invalidHandle)
      else if (s.record h).isOpen = false then .next (s.start.reportError .notOpen)
      else own := by
  rcases ht with rfl | ⟨n, rfl⟩ | ⟨data, rfl⟩ | ⟨o, rfl⟩
  · exact ⟨_, exec_close hi hp h⟩
  · exact ⟨_, exec_read hi hp h n⟩
  · exact ⟨_, exec_write hi hp h data⟩
  · exact ⟨_, exec_seek hi hp h o⟩

theorem TakesHandle.exec_unknown {i : Instr} (ht : TakesHandle h i) (hi : s.seq = .idle) (hp : s.powered = true)
    (hu : s.nFiles ≤ h) : exec i s = .next (s.start.reportError .invalidHandle) := by
  obtain ⟨own, hx⟩ := ht.exec_eq hi hp
  rw [hx, if_pos (Nat.not_lt.mpr hu)]

theorem TakesHandle.exec_closed {i : Instr} (ht : TakesHandle h i) (hi : s.seq = .idle) (hp : s.powered = true)
    (hh : h < s.nFiles) (hc : (s.record h).isOpen = false) : exec i s = .next (s.start.reportError .notOpen) := by
  obtain ⟨own, hx⟩ := ht.exec_eq hi hp
  rw [hx, if_neg (not_not_intro hh), if_pos hc]

/-- Settles O28: `resolve` case by case, and the commands that run it first. -/
theorem handleChecksComeFirst : Obligations.HandleChecksComeFirst :=
  ⟨fun _ _ => ⟨fun hu => resolve_unknown (Nat.not_lt.mpr hu), resolve_closed, resolve_open⟩,
   fun _ _ _ hi hp ht => ⟨TakesHandle.exec_unknown ht hi hp, TakesHandle.exec_closed ht hi hp⟩⟩

/-! ### Commands that write one record -/

/-- A command that writes `r` at handle `h` and reports `v` leaves every other record and register as it was. -/
theorem setRecord_reportSuccess_frame (s : State) (h : Nat) (r : FileRecord) (v : Value) :
    let t := (s.start.setRecord h r).reportSuccess v
    t.result = some (.success v) ∧ t.record h = r ∧ SameTableExcept h s t ∧
      t.nextFree = s.nextFree ∧ t.scratch = s.scratch ∧ SameSession s t ∧ NoTransfer s t := by
  have hother : ∀ j, j ≠ h → (s.start.setRecord h r).record j = s.record j := fun j hj => by
    rw [record_setRecord, if_neg hj, record_start]
  exact ⟨rfl, record_setRecord_self .., ⟨rfl, hother⟩, rfl, rfl, ⟨rfl, rfl, rfl, rfl⟩, rfl⟩

/-! ### open (R131) -/

section
variable {p : Path} (hi : s.seq = .idle) (hp : s.powered = true)
include hi hp

theorem exec_open_of_open (hf : s.findPath p = some h) (ho : (s.record h).isOpen = true) :
    exec (.openFile p) s = .next (s.start.reportError .alreadyOpen) := by
  rw [exec_open hi hp, openPath_open (s := s.start) hf ho, finish_raised]

theorem exec_open_of_closed (hf : s.findPath p = some h) (hc : (s.record h).isOpen = false) :
    exec (.openFile p) s = .next
      ((s.start.setRecord h { s.record h with isOpen := true, cursor := 0 }).reportSuccess (.handle h)) := by
  rw [exec_open hi hp, openPath_closed (s := s.start) hf hc, finish_done, record_start]

theorem exec_open_of_full (hf : s.findPath p = none) (hm : s.cfg.maxFiles ≤ s.nFiles) :
    exec (.openFile p) s = .next (s.start.reportError .tooManyFiles) := by
  rw [exec_open hi hp, openPath_full (s := s.start) hf hm, finish_raised]

theorem exec_open_of_new (hf : s.findPath p = none) (hm : s.nFiles < s.cfg.maxFiles) :
    ∃ t, exec (.openFile p) s = .next t ∧ t.result = some (.success (.handle s.nFiles)) ∧ t.nFiles = s.nFiles + 1 ∧
      t.record s.nFiles = { path := p, isOpen := true, endPos := 0, cursor := 0, frames := [] } ∧
      (∀ j, j ≠ s.nFiles → t.record j = s.record j) ∧
      t.nextFree = s.nextFree ∧ t.scratch = s.scratch ∧ SameSession s t ∧ NoTransfer s t := by
  refine ⟨finish (openPath p s.start), exec_open hi hp p, ?_⟩
  rw [openPath_new (s := s.start) hf hm]
  exact ⟨rfl, rfl, record_setRecord_self .., fun j hj => (record_setRecord s.start s.nFiles j _).trans (if_neg hj),
    rfl, rfl, ⟨rfl, rfl, rfl, rfl⟩, rfl⟩

end

/-- Settles O27: the lookup finds the path's one record or none, and each has its two cases. -/
theorem openFollowsItsRule : Obligations.OpenFollowsItsRule := by
  refine fun s p hi hp => ⟨fun h hh hpath hunique => ?_, fun hnone => ?_⟩
  · have hf : s.findPath p = some h := findPath_unique hh hpath hunique
    exact ⟨exec_open_of_open hi hp hf,
      fun hc => ⟨_, exec_open_of_closed hi hp hf hc, setRecord_reportSuccess_frame ..⟩⟩
  · have hf : s.findPath p = none := findPath_none.mpr hnone
    exact ⟨fun hm => exec_open_of_full hi hp hf hm.ge, exec_open_of_new hi hp hf⟩

/-! ### close (R133) and reopening (R136) -/

theorem exec_close_usable (hu : Usable s h) :
    exec (.close h) s = .next ((s.start.setOpen h false).reportSuccess .unit) := by
  obtain ⟨hi, hp, hh, ho⟩ := hu
  rw [exec_close hi hp, if_neg (not_not_intro hh), if_neg (by rw [ho]; nofun)]

/-- Settles O29: close writes the one record, whose cleared flag makes the second close fail. -/
theorem closeClearsTheOpenFlag : Obligations.CloseClearsTheOpenFlag := by
  refine fun s h hi hp => ⟨TakesHandle.exec_unknown (.inl rfl) hi hp, TakesHandle.exec_closed (.inl rfl) hi hp,
    fun hh ho => ⟨_, exec_close_usable ⟨hi, hp, hh, ho⟩, ?_⟩⟩
  obtain ⟨hresult, hrec, htable, hfree, hscratch, hsession, hbus⟩ :=
    setRecord_reportSuccess_frame s h (withOpen false (s.record h)) .unit
  exact ⟨hresult, hrec, htable, hfree, hscratch, hsession, hbus,
    TakesHandle.exec_closed (.inl rfl) rfl hp hh (congrArg FileRecord.isOpen hrec)⟩

/-- Settles O30, from O29 and O27: close keeps every path, so open finds the same record, closed, and reopens it. -/
theorem reopenKeepsTheFile : Obligations.ReopenKeepsTheFile := by
  intro s h ⟨hi, hp, hh, ho⟩ hunique
  obtain ⟨-, -, hcloses⟩ := closeClearsTheOpenFlag s h hi hp
  obtain ⟨t, hclose, -, hrec, ⟨hn, hother⟩, -, -, ⟨-, hpowered, -, hidle⟩, -⟩ := hcloses hh ho
  have hpath (j : Nat) : (t.record j).path = (s.record j).path := by
    by_cases hj : j = h
    · rw [hj, hrec]
    · rw [hother j hj]
  obtain ⟨hknown, -⟩ := openFollowsItsRule t (s.record h).path hidle (hpowered.trans hp)
  obtain ⟨-, hreopens⟩ := hknown h (hn ▸ hh) (hpath h) fun j hj hjp => hunique j (hn ▸ hj) (hpath j ▸ hjp)
  obtain ⟨u, hopen, hresult, hurec, ⟨hun, huother⟩, -⟩ := hreopens (congrArg FileRecord.isOpen hrec)
  exact ⟨t, u, hclose, hopen, hresult, hun.trans hn, by rw [hurec, hrec],
    fun j hj => (huother j hj).trans (hother j hj)⟩

end Sys2Proof.Machine
end

section
/-! SUPPORT. The Read/Write Engine (spec/44_rw_engine.md): seek (R147), read and write of an open handle for any Bus Transport
(R140 to R146), the read/write inverse over the reference device (R152), and the open flags (R148). -/

namespace Sys2Proof.Machine

variable {i : Instr} {s t : State} {h : Nat}

/-! ### seek (R147) -/

theorem exec_seek_usable (hu : Usable s h) (o : Nat) : exec (.seek h o) s = .next (finish (seekTo h o s.start)) := by
  obtain ⟨hi, hp, hh, ho⟩ := hu
  rw [exec_seek hi hp, if_neg (not_not_intro hh), if_neg (by rw [ho]; nofun)]

theorem seekTo_beyond {o : Nat} (hlt : (s.record h).endPos < o) : seekTo h o s = .raised .outOfRange s := if_pos hlt

theorem seekTo_within {o : Nat} (hle : o ≤ (s.record h).endPos) : seekTo h o s = .done .unit (s.setCursor h o) :=
  if_neg (Nat.not_lt.mpr hle)

/-- Settles O31: `resolve` first, then the one comparison with the length, and the one record written. -/
theorem seekFollowsItsRule : Obligations.SeekFollowsItsRule := by
  have takes (h o : Nat) : TakesHandle h (.seek h o) := .inr (.inr (.inr ⟨o, rfl⟩))
  refine fun s h o hi hp => ⟨(takes h o).exec_unknown hi hp, (takes h o).exec_closed hi hp, fun hh ho => ?_⟩
  have hx := exec_seek_usable ⟨hi, hp, hh, ho⟩ o
  refine ⟨fun hlt => ?_, fun hle => ⟨_, hx, ?_⟩⟩
  · rw [hx, seekTo_beyond (s := s.start) hlt, finish_raised]
  · rw [seekTo_within (s := s.start) hle, finish_done]
    exact setRecord_reportSuccess_frame s h { s.record h with cursor := o } .unit

/-! ### read and write of an open handle (R140 to R146) -/

/-- A flow that changes one file leaves the rest of table and session alone, once reported. -/
theorem OnlyFile.finish_frame {m : Flow Value} (ho : OnlyFile h s.start m.state) :
    SameTableExcept h s (finish m) ∧ SameSession s (finish m) := by
  refine ⟨⟨?_, fun j hj => ?_⟩, ?_, ?_, ?_, finish_seq m⟩
  · rw [finish_nFiles, ho.nFiles, start_nFiles]
  · rw [record_finish, ho.other j hj, record_start]
  · rw [finish_cfg, ho.cfg, start_cfg]
  · rw [finish_powered, ho.powered, start_powered]
  · rw [finish_pending, ho.pending, start_pending]

/-- Settles O37: what the loop of read can do, reported. -/
theorem readDeliversOrAborts : Obligations.ReadDeliversOrAborts := by
  intro s h count n hu hn hcov
  rw [← bytesToRead_eq] at hn
  subst hn
  have hx := exec_read_covered hu (decide_eq_true hcov)
  obtain ⟨t, tr, hc, hmem, -, htr, hscratch, hcase⟩ :=
    readBytes_cases h (bytesToRead (s.record h) count) s.start
  rw [start_bus_trace, List.nil_append] at htr
  subst htr
  have hdevice : ∀ x, t.bus.mem.read x = s.bus.mem.read x := fun x => by rw [hmem, start_bus_mem]
  obtain ⟨honly, -, -⟩ := readBytes_cursor h (bytesToRead (s.record h) count) s.start
  obtain ⟨htable, hsession⟩ := honly.onlyFile.finish_frame
  refine ⟨_, hx, htable, ?_⟩
  rcases hcase with ⟨hok, hcmds, hr, hlen, hcur⟩ | ⟨hstop, hcmds, hr, hcur⟩
  · rw [hr, finish_done] at hsession ⊢
    exact ⟨hc.nextFree, hsession, hdevice, hc.record_self, hscratch, .inl ⟨hok, hcmds, rfl, hlen, hcur⟩⟩
  · rw [hr, finish_raised] at hsession ⊢
    exact ⟨hc.nextFree, hsession, hdevice, hc.record_self, hscratch, .inr ⟨hstop, hcmds, rfl, hcur⟩⟩

/-- Settles O39: what a write with room in the pool can do, reported. -/
theorem writeStoresOrAborts : Obligations.WriteStoresOrAborts := by
  rintro s h m data r hu rfl room rfl
  have hx := exec_write_usable hu data
  obtain ⟨htable, hsession⟩ := (writeBytes_onlyFile h data s.start).finish_frame
  obtain ⟨-, r, rfl, t, tr, -, hfree, -, htr, hdevice, hrec, hscratch, hcase⟩ | ⟨full, -⟩ :=
    writeBytes_cases h data s.start
  case inr => exact absurd room (Nat.not_le.mpr full)
  rw [start_bus_trace, List.nil_append] at htr
  subst htr
  refine ⟨_, hx, htable, ?_⟩
  rcases hcase with ⟨hok, hcmds, hsent, hr, hcur, hend⟩ | ⟨hstop, hcmds, hr, hcur, hend⟩
  · rw [hr, finish_done] at hsession ⊢
    exact ⟨hfree, hsession, hdevice, hrec, hscratch, .inl ⟨hok, hcmds, hsent, rfl, hcur, hend⟩⟩
  · rw [hr, finish_raised] at hsession ⊢
    exact ⟨hfree, hsession, hdevice, hrec, hscratch, .inr ⟨hstop, hcmds, rfl, hcur, hend⟩⟩

/-- Settles O40: the allocation loop takes what is left and the write ends there. -/
theorem writeWithoutRoomIsDeviceFull : Obligations.WriteWithoutRoomIsDeviceFull := by
  intro s h data hu full
  have hx := exec_write_usable hu data
  obtain ⟨htable, hsession⟩ := (writeBytes_onlyFile h data s.start).finish_frame
  obtain ⟨room, -⟩ | ⟨-, t, hr, hfree, ho⟩ := writeBytes_cases h data s.start
  case inl => exact absurd room (Nat.not_le.mpr full)
  refine ⟨_, hx, ?_⟩
  rw [hr, finish_raised] at htable hsession ⊢
  exact ⟨rfl, hfree, ho.record_self, htable, ho.scratch, hsession, ho.bus⟩

/-! ### The read/write inverse (R152) -/

/-- A write on a usable handle leaves it usable. -/
theorem usable_after_write (hu : Usable s h) {data : List Byte} (hx : exec (.write h data) s = .next t) :
    Usable t h := by
  rw [exec_write_usable hu] at hx
  cases hx
  obtain ⟨-, hp, hh, ho⟩ := hu
  have honly := writeBytes_onlyFile h data s.start
  exact ⟨finish_seq _, by rw [finish_powered, honly.powered]; exact hp, by rw [finish_nFiles, honly.nFiles]; exact hh,
    by rw [record_finish, honly.isOpen]; exact ho⟩

/-- File bytes that are, position by position, those of a list are the list. -/
theorem fileBytes_eq_of_getD {m : Memory} {r : FileRecord} {p : Nat} {data : List Byte}
    (hb : ∀ k, k < data.length → fileByte m r (p + k) = data.getD k 0) : fileBytes m r p data.length = data := by
  refine List.ext_getElem (by simp [fileBytes]) fun k _ hk => ?_
  rw [← List.getD_eq_getElem _ 0 hk, ← hb k hk]
  simp [fileBytes]

/-- Settles O42, from O41 and O31: the write puts the input into the file, the seek keeps the file and the device, and the
read delivers the file's bytes. -/
theorem readReturnsWhatWasWritten : Obligations.ReadReturnsWhatWasWritten := by
  intro s h data hs hu hd room
  obtain ⟨t, hwrite, htd, htres, -, hend, hlen, hbytes⟩ := writeChangesTheFileBytes s h data hs hu hd room
  obtain ⟨hti, htp, hth, hto⟩ := usable_after_write hu hwrite
  obtain ⟨-, -, hseeks⟩ := seekFollowsItsRule t h (s.record h).cursor hti htp
  obtain ⟨u, hseek, hures, hurec, ⟨hun, -⟩, -, -, ⟨-, hup, -, hui⟩, hubus⟩ := (hseeks hth hto).2 (by omega)
  have huu : Usable u h := ⟨hui, hup.trans htp, hun ▸ hth, by rw [hurec]; exact hto⟩
  have hcount : data.length = bytesToRead (u.record h) data.length := by
    rw [bytesToRead_eq, hurec]; dsimp only; omega
  have hinside : (s.record h).cursor + data.length ≤ 1024 * (t.record h).frames.length := by omega
  have hcov : covered (u.record h) data.length = true := by
    rw [covered, hurec]; exact decide_eq_true (.inr hinside)
  obtain ⟨v, hread, -, -, hvres, -⟩ := exec_read_reference huu (by rw [Undisturbed, hubus]; exact htd) hcount hcov
  refine ⟨t, u, v, hwrite, hseek, hread, htres, hures, hvres.trans ?_⟩
  rw [hubus, hurec, fileBytes_withCursor]
  dsimp only
  rw [fileBytes_eq_of_getD fun k hk => ?_]
  rw [hbytes _ (by omega), if_pos ⟨by omega, by omega⟩, Nat.add_sub_cancel_left]

/-! ### The open flags (R28, R148) -/

/-- What R148 lets a command do to the open flag of `h`. -/
def FlagRule (i : Instr) (h : Nat) (s t : State) : Prop :=
  ((t.record h).isOpen = (s.record h).isOpen ∨
    (i = .close h ∧ (s.record h).isOpen = true ∧ (t.record h).isOpen = false) ∨
    (i = .openFile (s.record h).path ∧ (s.record h).isOpen = false ∧ (t.record h).isOpen = true)) ∧
  (∀ e, t.result = some (.error e) → (t.record h).isOpen = (s.record h).isOpen ∧ t.nFiles = s.nFiles)

/-- A command that keeps flag and number of files, with whatever result. -/
theorem FlagRule.of_same (hf : (t.record h).isOpen = (s.record h).isOpen) (hn : t.nFiles = s.nFiles) : FlagRule i h s t :=
  ⟨.inl hf, fun _ _ => ⟨hf, hn⟩⟩

theorem OnlyFile.isOpen_eq {k : Nat} (ho : OnlyFile k s t) (h : Nat) : (t.record h).isOpen = (s.record h).isOpen := by
  by_cases hk : h = k
  · rw [hk, ho.isOpen]
  · rw [ho.other h hk]

/-- A flow that changes one file keeps every flag and the number of files. -/
theorem OnlyFile.flagRule {k : Nat} {m : Flow Value} (ho : OnlyFile k s.start m.state) : FlagRule i h s (finish m) :=
  .of_same (by rw [record_finish, ho.isOpen_eq, record_start]) (by rw [finish_nFiles, ho.nFiles, start_nFiles])

theorem powerOff_flagRule (s : State) : FlagRule i h s (finish (endPowerOff (busOff s.start))) := by
  obtain ⟨t, -, -, rfl, -, -, -, ⟨-, hr⟩ | ⟨-, hr⟩⟩ := request_cases requestOff s.start
  · rw [busOff, hr]; exact .of_same rfl rfl
  · rw [busOff, hr]; exact .of_same rfl rfl

/-- open reopens the path's own record, if closed, and keeps every other flag. -/
theorem open_flagRule (hh : h < s.nFiles) (p : Path) : FlagRule (.openFile p) h s (finish (openPath p s.start)) := by
  obtain ⟨k, -, -, -, hr⟩ | ⟨k, -, hpath, hclosed, hr⟩ | ⟨-, -, hr⟩ | ⟨-, -, hr⟩ := openPath_cases p s.start
  · rw [hr]; exact .of_same rfl rfl
  · rw [hr]
    refine ⟨?_, nofun⟩
    by_cases hk : h = k
    · subst hk
      exact .inr (.inr ⟨congrArg _ hpath.symm, hclosed, congrArg FileRecord.isOpen (record_setRecord_self ..)⟩)
    · exact .inl (congrArg FileRecord.isOpen ((record_setRecord s.start k h _).trans (if_neg hk)))
  · rw [hr]; exact .of_same rfl rfl
  · rw [hr]
    exact ⟨.inl (congrArg FileRecord.isOpen (record_of_created (s := s) rfl hh)), nofun⟩

/-- close of an open handle clears its flag and keeps every other. -/
theorem close_flagRule {k : Nat} (ho : (s.record k).isOpen = true) :
    FlagRule (.close k) h s ((s.start.setOpen k false).reportSuccess .unit) := by
  refine ⟨?_, nofun⟩
  by_cases hk : h = k
  · subst hk
    exact .inr (.inl ⟨rfl, ho, congrArg FileRecord.isOpen (record_setRecord_self ..)⟩)
  · exact .inl (congrArg FileRecord.isOpen ((record_setOpen _ k h false).trans (if_neg hk)))

theorem seek_flagRule (k o : Nat) (s : State) : FlagRule i h s (finish (seekTo k o s.start)) := by
  rcases Nat.lt_or_ge (s.record k).endPos o with hlt | hle
  · rw [seekTo_beyond (s := s.start) hlt]; exact .of_same rfl rfl
  · rw [seekTo_within (s := s.start) hle]
    refine .of_same ?_ rfl
    rw [record_finish, state_done, record_setCursor]
    split
    next hk => rw [hk]; rfl
    next => rfl

/-- Settles O47: only open and close write a flag, command by command. -/
theorem openFlagsFollowTheStateMachine : Obligations.OpenFlagsFollowTheStateMachine := by
  intro i s t h hon hx hh
  show FlagRule i h s t
  rcases next_kind hx with hi | hi
  case inr =>
    obtain ⟨w, o, buf, rfl⟩ := bus_next hi hx
    exact .of_same rfl rfl
  obtain ⟨-, ⟨hpowerOn, -⟩ | ⟨-, ⟨-, rfl⟩ | ⟨p, rfl, rfl⟩ | ⟨k, -, ⟨-, rfl⟩ | ⟨-, -, rfl⟩⟩ | ⟨k, -, ho, hcase⟩⟩⟩ :=
    host_cases hi hx
  · exact absurd hpowerOn hon
  · exact powerOff_flagRule s
  · exact open_flagRule hh p
  · exact .of_same rfl rfl
  · exact .of_same rfl rfl
  · rcases hcase with ⟨rfl, rfl⟩ | ⟨o, -, rfl⟩ | ⟨data, -, rfl⟩ | ⟨n, -, -, rfl⟩
    · exact close_flagRule ho
    · exact seek_flagRule k o s
    · exact (writeBytes_onlyFile k data s.start).flagRule
    · exact (readBytes_cursor k _ s.start).1.onlyFile.flagRule

end Sys2Proof.Machine
end

section
/-! SUPPORT. What powerOn of the idle block answers (spec/45_lifecycle.md R160, R161): a session with no file, or the block
not powered after the first transfer that fails. -/

namespace Sys2Proof.Machine

variable {s t : State}

theorem OnlyBusSide.cfg (h : OnlyBusSide s t) : t.cfg = s.cfg := (congrArg State.cfg h :)

theorem OnlyBusSide.pending (h : OnlyBusSide s t) : t.pending = s.pending := (congrArg State.pending h :)

theorem OnlyBusSide.scratch (h : OnlyBusSide s t) : t.scratch = s.scratch := (congrArg State.scratch h :)

/-- A failed powerOn leaves `n_files` in the register's range (R38). -/
theorem loseSession_nFiles_le (s : State) : (loseSession s).nFiles ≤ s.cfg.maxFiles :=
  Nat.le_of_lt_succ (Nat.mod_lt _ (Nat.succ_pos _))

/-- powerOn whose transfers all succeed begins a session (R160). -/
theorem exec_powerOn_of_done (hi : s.seq = .idle) (hr : powerOnTransfers s.start = .done () t) :
    exec .powerOn s = .next ((beginSession t).reportSuccess .unit) := by
  rw [exec_powerOn hi, hr]
  rfl

/-- powerOn with a transfer that fails loses what there was and answers that failure (R161). -/
theorem exec_powerOn_of_raised {e : ErrorKind} (hi : s.seq = .idle) (hr : powerOnTransfers s.start = .raised e t) :
    exec .powerOn s = .next ((loseSession t).reportError e) := by
  rw [exec_powerOn hi, hr]
  rfl

/-- Settles O24: the transfers from the empty trace on all succeed or stop at the first failure, and what follows them
adds no event to the trace. -/
theorem powerOnStartsASessionOrStops : Obligations.PowerOnStartsASessionOrStops := by
  intro s hi
  obtain ⟨t, tr, honly, htr, hout, hcase⟩ := powerOnTransfers_cases s.start
  obtain rfl : t.bus.trace = tr := htr
  have hcfg : t.cfg = s.cfg := honly.cfg
  have hpending : t.pending = s.pending := honly.pending
  have hscratch : t.scratch = s.scratch := honly.scratch
  rcases hcase with ⟨hok, hcmds, hr⟩ | ⟨hstop, hcmds, hr⟩
  · exact ⟨_, exec_powerOn_of_done hi hr, hcfg, hpending, rfl, hout,
      .inl ⟨hok, hcmds, rfl, rfl, rfl, rfl, rfl, hscratch⟩⟩
  · exact ⟨_, exec_powerOn_of_raised hi hr, hcfg, hpending, rfl, hout,
      .inr ⟨hstop, hcmds, rfl, rfl, hcfg ▸ loseSession_nFiles_le t⟩⟩

end Sys2Proof.Machine
end

section
/-! SUPPORT. What one step does, by what stands at the port: the sequencer waiting for a transfer, or idle with the next host
command or none (spec/44_rw_engine.md R150, spec/60_exceptions.md R178). -/

namespace Sys2Proof.Machine

variable {s t : State} {w : Word} {job : Job} {i : Instr}

/-- With nothing presented the idle block waits. -/
theorem step_of_nothing (hi : s.seq = .idle) (hp : s.pending = []) : step s = .next s := by
  simp only [step, hi, hp]

/-- The idle block runs the host command presented next; every presentation names one (R88, R89). -/
theorem step_of_host {p : HostWord} {ps : List HostWord} (hi : s.seq = .idle) (hp : s.pending = p :: ps) :
    step s = exec (decodeHost p) { s with pending := ps } := by
  simp only [step, hi, hp, decode]

theorem step_of_no_request {e : DecodeError} (hw : s.seq = .waiting w job) (hd : decode (.bus w) = .error e) :
    step s = .refused (.notARequest e) := by
  simp only [step, hw, hd]

theorem step_of_request (hw : s.seq = .waiting w job) (hd : decode (.bus w) = .ok i) (hx : exec i s = .next t) :
    step s = .next (continueJob job t) := by
  simp only [step, hw, hd, hx]

/-- A transfer that is part of no host command is its bus command and nothing more. -/
theorem step_of_single (hw : s.seq = .waiting w .single) (hd : decode (.bus w) = .ok i) : step s = exec i s := by
  cases hx : exec i s with
  | next t => rw [step_of_request hw hd hx, continueJob_single]
  | fault r => simp only [step, hw, hd, hx]
  | refused r => simp only [step, hw, hd, hx]

/-- Settles O9: clause by clause the branch of the step that what stands at the port selects. -/
theorem stepRunsTheDecodedCommand : Obligations.StepRunsTheDecodedCommand := by
  refine ⟨fun s p ps i hi hp hd => ?_, fun s w i hw hd => step_of_single hw hd,
    fun s t w j i hw hd hx => step_of_request hw hd hx, fun s w j e hw hd => step_of_no_request hw hd,
    fun s hi hp => step_of_nothing hi hp, fun s p => step_of_host rfl rfl, fun s w i hd => step_of_single rfl hd⟩
  obtain rfl := Except.ok.inj hd
  exact step_of_host hi hp

end Sys2Proof.Machine
end

section
/-! SUPPORT. How each host command can come out (spec/60_exceptions.md R175, R186): with which result, and which errors leave
the state in which it was started. -/

namespace Sys2Proof.Machine

variable {s t : State} {i : Instr} {h : Nat}

/-- How the host command `i`, started in `s`, can come out: with a success value of its row in R186; with an error of its row,
nothing changed; or with an error that may come late, DeviceError, or DeviceFull from a pool that was not empty (R175). -/
inductive ComesOut (i : Instr) (s : State) : Flow Value → Prop
  | success {v : Value} {t : State} (row : MayEndIn i (.success v)) : ComesOut i s (.done v t)
  | early {e : ErrorKind} (row : MayEndIn i (.error e)) : ComesOut i s (.raised e s)
  | failed {t : State} (row : MayEndIn i (.error .deviceError)) : ComesOut i s (.raised .deviceError t)
  | exhausted {t : State} (row : MayEndIn i (.error .deviceFull)) (pool : s.nextFree.val ≠ 65536) :
      ComesOut i s (.raised .deviceFull t)

theorem powerOn_comesOut (s : State) : ComesOut .powerOn s (endPowerOn (powerOnTransfers s)) := by
  obtain ⟨t, tr, -, -, -, ⟨-, -, hr⟩ | ⟨-, -, hr⟩⟩ := powerOnTransfers_cases s
  · rw [hr]; exact .success (.inl rfl)
  · rw [hr]; exact .failed (.inr rfl)

theorem powerOff_comesOut (s : State) : ComesOut .powerOff s (endPowerOff (busOff s)) := by
  obtain ⟨t, e, -, -, -, -, -, ⟨-, hr⟩ | ⟨-, hr⟩⟩ := request_cases requestOff s
  · rw [busOff, hr]; exact .failed (.inr rfl)
  · rw [busOff, hr]; exact .success (.inl rfl)

theorem open_comesOut (p : Path) (s : State) : ComesOut (.openFile p) s (openPath p s) := by
  obtain ⟨h, -, -, -, hr⟩ | ⟨h, -, -, -, hr⟩ | ⟨-, -, hr⟩ | ⟨-, -, hr⟩ := openPath_cases p s
  · rw [hr]; exact .early (.inr (.inl rfl))
  · rw [hr]; exact .success (.inl ⟨h, rfl⟩)
  · rw [hr]; exact .early (.inr (.inr rfl))
  · rw [hr]; exact .success (.inl ⟨s.nFiles, rfl⟩)

theorem seek_comesOut (h o : Nat) (s : State) : ComesOut (.seek h o) s (seekTo h o s) := by
  unfold seekTo
  split
  · exact .early (.inr (.inr (.inr rfl)))
  · exact .success (.inl rfl)

/-- A read delivers the count it was clamped to, which is at most the one it was given (R140). -/
theorem read_comesOut (h count : Nat) (s : State) :
    ComesOut (.read h count) s (readBytes h (bytesToRead (s.record h) count) s) := by
  have hle : bytesToRead (s.record h) count ≤ count := bytesToRead_eq (s.record h) count ▸ Nat.min_le_left _ _
  obtain ⟨t, tr, -, -, -, -, -, ⟨-, -, hr, hlen, -⟩ | ⟨-, -, hr, -⟩⟩ :=
    readBytes_cases h (bytesToRead (s.record h) count) s
  · rw [hr]; exact .success (.inl ⟨_, hlen.trans_le hle, rfl⟩)
  · rw [hr]; exact .failed (.inr (.inr (.inr rfl)))

/-- With the pool empty the first allocation fails and nothing has been taken (R145). -/
theorem allocFrames_of_empty_pool (hf : s.nextFree.val = 65536) {n : Nat} (hn : n ≠ 0) :
    allocFrames h n s = .raised .deviceFull s := by
  obtain ⟨m, rfl⟩ := Nat.exists_eq_succ_of_ne_zero hn
  rw [allocFrames, allocAppend_full h (by omega), bind_raised]

/-- A write that finds no room is precise when the pool was empty before it (R145, R175). -/
theorem write_comesOut (h : Nat) (data : List Byte) (s : State) :
    ComesOut (.write h data) s (writeBytes h data s) := by
  obtain ⟨-, r, -, t, tr, -, -, -, -, -, -, -, ⟨-, -, -, hr, -⟩ | ⟨-, -, hr, -⟩⟩ | ⟨hfull, t, hr, -⟩ :=
    writeBytes_cases h data s
  · rw [hr]; exact .success (.inl rfl)
  · rw [hr]; exact .failed (.inr (.inr (.inr (.inr rfl))))
  · by_cases hf : s.nextFree.val = 65536
    · rw [writeBytes, allocFrames_of_empty_pool hf (by omega), bind_raised]
      exact .early (.inr (.inr (.inr (.inl rfl))))
    · rw [hr]; exact .exhausted (.inr (.inr (.inr (.inl rfl)))) hf

/-- Each command that takes a handle has the two errors of one that does not resolve in its row (R130, R186). -/
theorem TakesHandle.mayEndIn (ht : TakesHandle h i) :
    MayEndIn i (.error .invalidHandle) ∧ MayEndIn i (.error .notOpen) := by
  obtain rfl | ⟨count, rfl⟩ | ⟨data, rfl⟩ | ⟨o, rfl⟩ := ht
  · exact ⟨.inr (.inl rfl), .inr (.inr rfl)⟩
  all_goals exact ⟨.inr (.inl rfl), .inr (.inr (.inl rfl))⟩

/-- Every host command that answers a next state has come out in one of the ways listed, and has reported. -/
theorem host_comesOut (hi : isHostCommand i = true) (hx : exec i s = .next t) :
    ∃ m, ComesOut i s.start m ∧ t = finish m := by
  obtain ⟨-, ⟨rfl, rfl⟩ | ⟨-, ⟨rfl, rfl⟩ | ⟨p, rfl, rfl⟩ | ⟨h, hcmd, herr⟩ | ⟨h, -, -, hcase⟩⟩⟩ := host_cases hi hx
  · exact ⟨_, powerOn_comesOut s.start, rfl⟩
  · exact ⟨_, powerOff_comesOut s.start, rfl⟩
  · exact ⟨_, open_comesOut p s.start, rfl⟩
  · have htakes : TakesHandle h i := by unfold TakesHandle; tauto
    obtain ⟨hunknown, hclosed⟩ := htakes.mayEndIn
    rcases herr with ⟨-, rfl⟩ | ⟨-, -, rfl⟩
    · exact ⟨_, .early hunknown, rfl⟩
    · exact ⟨_, .early hclosed, rfl⟩
  · rcases hcase with ⟨rfl, rfl⟩ | ⟨o, rfl, rfl⟩ | ⟨data, rfl, rfl⟩ | ⟨n, rfl, -, rfl⟩
    · exact ⟨.done .unit (s.start.setOpen h false), .success (.inl rfl), rfl⟩
    · exact ⟨_, seek_comesOut h o s.start, rfl⟩
    · exact ⟨_, write_comesOut h data s.start, rfl⟩
    · exact ⟨_, read_comesOut h n s.start, rfl⟩

/-- Settles O48: each way of coming out reports a result of the command's row. -/
theorem resultsOfEachCommand : Obligations.ResultsOfEachCommand := by
  intro i s t hi hx
  obtain ⟨m, hm, rfl⟩ := host_comesOut hi hx
  cases hm with
  | success row => exact ⟨_, rfl, row⟩
  | early row => exact ⟨_, rfl, row⟩
  | failed row => exact ⟨_, rfl, row⟩
  | exhausted row _ => exact ⟨_, rfl, row⟩

/-- Settles O50: of the ways of coming out, the premises leave only the error raised in the state the command started in. -/
theorem earlyErrorsArePrecise : Obligations.EarlyErrorsArePrecise := by
  intro i s t e hi hx he hdev hfull
  obtain ⟨m, hm, rfl⟩ := host_comesOut hi hx
  cases hm with
  | success _ => cases he
  | early _ => cases he; rfl
  | failed _ => cases he; exact absurd rfl hdev
  | exhausted _ pool => cases he; exact absurd (hfull rfl) pool

end Sys2Proof.Machine
end

section
/-! SUPPORT. The last result is not read and not kept (spec/60_exceptions.md R172, R177): whatever it was, every piece of a
host command runs alike and carries it along, and the report at the end overwrites it. -/

namespace Sys2Proof.Machine

variable (r : Option HostResult) (s : State)

/-- The state with another last result. -/
def State.withResult (r : Option HostResult) (s : State) : State := { s with result := r }

/-- The flow that ends in the state with another last result. -/
def Flow.withResult {α : Type} (r : Option HostResult) : Flow α → Flow α
  | .done a s => .done a (s.withResult r)
  | .raised e s => .raised e (s.withResult r)

@[simp] theorem record_withResult (h : Nat) : (s.withResult r).record h = s.record h := rfl
@[simp] theorem findPath_withResult (p : Path) : (s.withResult r).findPath p = s.findPath p := rfl
@[simp] theorem done_withResult {α : Type} (a : α) : (Flow.done a s).withResult r = .done a (s.withResult r) := rfl

/-- What comes next carries the last result on where each continuation does. -/
theorem bind_withResult {α β : Type} {r : Option HostResult} (m : Flow α) {k : α → State → Flow β}
    (hk : ∀ a t, k a (t.withResult r) = (k a t).withResult r) : (m.withResult r).bind k = (m.bind k).withResult r := by
  cases m with
  | done a t => exact hk a t
  | raised e t => rfl

/-- The report overwrites the last result. -/
theorem finish_withResult (m : Flow Value) : finish (m.withResult r) = finish m := by
  cases m <;> rfl

/-! ### Transfers -/

theorem statusCheck_withResult (w : Word) : statusCheck w (s.withResult r) = (statusCheck w s).withResult r := by
  rw [statusCheck, statusCheck, apply_ite (Flow.withResult r)]
  rfl

theorem busInit_withResult : busInit (s.withResult r) = (busInit s).withResult r :=
  statusCheck_withResult r (s.issue requestInit none).2 _

theorem busZero_withResult : busZero (s.withResult r) = (busZero s).withResult r :=
  statusCheck_withResult r (s.issue requestZero none).2 _

theorem busLoad_withResult (c : Nat) : busLoad c (s.withResult r) = (busLoad c s).withResult r :=
  statusCheck_withResult r (s.issue (requestLoad c) none).2 _

theorem busRead_withResult (f : Nat) : busRead f (s.withResult r) = (busRead f s).withResult r :=
  let x := s.issue (requestRead f) (some s.scratch)
  statusCheck_withResult r (x.2.setScratch x.1.data) _

theorem busWrite_withResult (f : Nat) : busWrite f (s.withResult r) = (busWrite f s).withResult r :=
  statusCheck_withResult r (s.issue (requestWrite f) (some s.scratch)).2 _

theorem busOff_withResult : busOff (s.withResult r) = (busOff s).withResult r :=
  statusCheck_withResult r (s.issue requestOff none).2 _

theorem frameFetch_withResult (a : FrameAddress) : frameFetch a (s.withResult r) = (frameFetch a s).withResult r := by
  rw [frameFetch, busLoad_withResult]
  exact bind_withResult _ fun _ t => busRead_withResult r t _

/-! ### The loops -/

theorem zeroCartridges_withResult (l : List (Fin 64)) :
    zeroCartridges l (s.withResult r) = (zeroCartridges l s).withResult r := by
  induction l generalizing s with
  | nil => rfl
  | cons c l ih =>
    rw [zeroCartridges, busLoad_withResult]
    refine bind_withResult _ fun _ t => ?_
    rw [busZero_withResult]
    exact bind_withResult _ fun _ u => ih u

theorem readLoop_withResult (fuel h rem : Nat) (out : List Byte) :
    readLoop fuel h rem out (s.withResult r) = (readLoop fuel h rem out s).withResult r := by
  induction fuel generalizing rem out s with
  | zero => rfl
  | succ fuel ih =>
    simp only [readLoop, record_withResult]
    split
    · rfl
    · rw [frameFetch_withResult]
      exact bind_withResult _ fun _ t => ih (advanceCursor h _ t) _ _

theorem writeLoop_withResult (fuel h : Nat) (rest : List Byte) :
    writeLoop fuel h rest (s.withResult r) = (writeLoop fuel h rest s).withResult r := by
  induction fuel generalizing rest s with
  | zero => rfl
  | succ fuel ih =>
    simp only [writeLoop, record_withResult]
    split
    · rfl
    · rw [frameFetch_withResult]
      refine bind_withResult _ fun _ t => ?_
      have hstore : frameStore (frameAtCursor (t.record h)).frame (modifyScratch h rest (t.withResult r)) =
          (frameStore (frameAtCursor (t.record h)).frame (modifyScratch h rest t)).withResult r :=
        busWrite_withResult r (modifyScratch h rest t) _
      rw [record_withResult, hstore]
      exact bind_withResult _ fun _ u => ih (advanceCursor h _ u) _

theorem allocAppend_withResult (h : Nat) : allocAppend h (s.withResult r) = (allocAppend h s).withResult r := by
  have halloc : allocate (s.withResult r) = (allocate s).withResult r := by
    by_cases hf : s.nextFree.val < 65536
    · rw [allocate_free hf, allocate_free (s := s.withResult r) hf]; rfl
    · rw [allocate, allocate, dif_neg hf, dif_neg (show ¬ (s.withResult r).nextFree.val < 65536 from hf)]; rfl
  rw [allocAppend, halloc]
  exact bind_withResult _ fun _ _ => rfl

theorem allocFrames_withResult (h n : Nat) :
    allocFrames h n (s.withResult r) = (allocFrames h n s).withResult r := by
  induction n generalizing s with
  | zero => rfl
  | succ n ih =>
    rw [allocFrames, allocAppend_withResult]
    exact bind_withResult _ fun _ t => ih t

/-! ### What each command comes to -/

theorem resolve_withResult (h : Nat) : resolve h (s.withResult r) = (resolve h s).withResult r := by
  rw [resolve, resolve, apply_ite (Flow.withResult r), apply_ite (Flow.withResult r)]
  rfl

theorem powerOn_withResult :
    endPowerOn (powerOnTransfers (s.withResult r)) = (endPowerOn (powerOnTransfers s)).withResult r := by
  have htransfers : powerOnTransfers (s.withResult r) = (powerOnTransfers s).withResult r := by
    rw [powerOnTransfers, busInit_withResult]
    exact bind_withResult _ fun _ t => zeroCartridges_withResult r t _
  rw [htransfers]
  cases powerOnTransfers s <;> rfl

theorem powerOff_withResult :
    endPowerOff (busOff (s.withResult r)) = (endPowerOff (busOff s)).withResult r := by
  rw [busOff_withResult]
  exact bind_withResult _ fun _ _ => rfl

theorem openPath_withResult (p : Path) : openPath p (s.withResult r) = (openPath p s).withResult r := by
  simp only [openPath, findPath_withResult]
  cases s.findPath p with
  | some h => simp only [reopen, apply_ite (Flow.withResult r)]; rfl
  | none => simp only [createFile, apply_ite (Flow.withResult r)]; rfl

theorem seekTo_withResult (h o : Nat) : seekTo h o (s.withResult r) = (seekTo h o s).withResult r := by
  rw [seekTo, seekTo, apply_ite (Flow.withResult r)]
  rfl

theorem readBytes_withResult (h n : Nat) : readBytes h n (s.withResult r) = (readBytes h n s).withResult r := by
  rw [readBytes, readLoop_withResult]
  exact bind_withResult _ fun _ _ => rfl

theorem commitLength_withResult (h : Nat) : commitLength h (s.withResult r) = (commitLength h s).withResult r := by
  rw [commitLength, commitLength, apply_ite (State.withResult r)]
  rfl

theorem abortLength_withResult (h : Nat) : abortLength h (s.withResult r) = (abortLength h s).withResult r := by
  rw [abortLength, abortLength, commitLength_withResult, apply_ite (State.withResult r)]
  rfl

theorem endWrite_withResult (h len : Nat) (m : Flow Unit) :
    endWrite h len (m.withResult r) = (endWrite h len m).withResult r := by
  cases m with
  | done a t => exact congrArg (Flow.done _) (commitLength_withResult r t h)
  | raised e t => exact congrArg (Flow.raised e) (abortLength_withResult r t h)

theorem writeBytes_withResult (h : Nat) (data : List Byte) :
    writeBytes h data (s.withResult r) = (writeBytes h data s).withResult r := by
  rw [writeBytes, allocFrames_withResult]
  refine bind_withResult _ fun _ t => ?_
  rw [writeLoop_withResult, endWrite_withResult]

/-! ### Commands -/

/-- The state with another last result and another last trace: all an earlier command leaves that this one must not read. -/
def State.withHistory (r : Option HostResult) (tr : List Event) (s : State) : State :=
  { s with result := r, bus := { s.bus with trace := tr } }

variable {r s}

/-- The start of a command forgets the last trace. -/
theorem start_withHistory (tr : List Event) : (s.withHistory r tr).start = s.start.withResult r := rfl

/-- A body that does not look at the last result, run by a command. -/
theorem whenIdle_withHistory {body : State → Host.Outcome State Fault Refusal}
    (hb : ∀ t, body (t.withResult r) = body t) (tr : List Event) :
    whenIdle (s.withHistory r tr) body = whenIdle s body := by
  have hseq : (s.withHistory r tr).seq = s.seq := rfl
  simp only [whenIdle, hseq, start_withHistory, hb]

theorem inSession_withHistory {body : State → Host.Outcome State Fault Refusal}
    (hb : ∀ t, body (t.withResult r) = body t) (tr : List Event) :
    inSession (s.withHistory r tr) body = inSession s body :=
  whenIdle_withHistory (fun t => by rw [hb]; rfl) tr

/-- The outcome of a command in session whose piece carries the last result along. -/
theorem inSession_report_withHistory {f : State → Flow Value} (hf : ∀ t, f (t.withResult r) = (f t).withResult r)
    (tr : List Event) :
    inSession (s.withHistory r tr) (fun t => .next (finish (f t))) = inSession s (fun t => .next (finish (f t))) :=
  inSession_withHistory (fun t => by rw [hf, finish_withResult]) tr

/-- The same for a piece that runs on a resolved handle. -/
theorem inSession_resolve_withHistory {f : State → Flow Value} (hf : ∀ t, f (t.withResult r) = (f t).withResult r)
    (h : Nat) (tr : List Event) :
    inSession (s.withHistory r tr) (fun t => .next (finish ((resolve h t).bind fun _ u => f u))) =
      inSession s (fun t => .next (finish ((resolve h t).bind fun _ u => f u))) :=
  inSession_report_withHistory
    (fun t => by rw [resolve_withResult]; exact bind_withResult _ fun _ u => hf u) tr

/-- Settles O59: the start of a command empties the trace, its pieces carry the last result along, and its report
overwrites it. -/
theorem earlierResultsAreForgotten : Obligations.EarlierResultsAreForgotten := by
  intro i s r tr hi
  change exec i (s.withHistory r tr) = exec i s
  cases i with
  | powerOn =>
    simp only [exec, execPowerOn]
    refine whenIdle_withHistory (fun t => ?_) tr
    rw [powerOn_withResult, finish_withResult]
  | powerOff =>
    exact inSession_report_withHistory (f := fun t => endPowerOff (busOff t)) (fun t => powerOff_withResult r t) tr
  | openFile p => exact inSession_report_withHistory (fun t => openPath_withResult r t p) tr
  | close h => exact inSession_resolve_withHistory (fun _ => rfl) h tr
  | seek h o => exact inSession_resolve_withHistory (fun t => seekTo_withResult r t h o) h tr
  | write h data => exact inSession_resolve_withHistory (fun t => writeBytes_withResult r t h data) h tr
  | read h n =>
    simp only [exec, execRead]
    refine inSession_withHistory (fun t => ?_) tr
    rw [resolve_withResult]
    cases resolve h t with
    | raised e u => rfl
    | done a u => simp only [done_withResult, record_withResult, readBytes_withResult, finish_withResult]
  | initSystem => cases hi
  | zeroCartridge => cases hi
  | loadCartridge c => cases hi
  | readFrame f => cases hi
  | writeFrame f => cases hi
  | busPowerOff => cases hi
  | reserved7 => cases hi

end Sys2Proof.Machine
end

section
/-! SUPPORT. The codec's round trips and the independence of its fields (spec/40_register_codec.md R102 to R104): `unpack` as
the digits of the word's number, `pack` as their sum, and a field as the bits its mask leaves. -/

namespace Sys2Proof

/-! ### Fields to word to fields (R102) -/

/-- The general law of R102: each field holds its argument cut to the field's width. -/
theorem unpack_pack (op k2 st c f : Nat) :
    unpack (pack op k2 st c f) =
      { opcode := BitVec.ofNat 8 op, key2 := BitVec.ofNat 8 k2, status := BitVec.ofNat 1 st,
        cartridgeIndex := BitVec.ofNat 16 c, frameIndex := BitVec.ofNat 16 f } := by
  simp only [Machine.unpack_eq_extract, Fields.mk.injEq, ← BitVec.toNat_inj, BitVec.extractLsb'_toNat, BitVec.toNat_ofNat,
    toNat_pack, Nat.shiftRight_eq_div_pow]
  omega

/-! ### Word to fields to word (R103) -/

/-- The fields are the word's number in mixed radix, its low fifteen bits left out. -/
theorem toNat_repack_unpack (w : Word) : (unpack w).repack.toNat = w.toNat / 2 ^ 15 * 2 ^ 15 := by
  have hw := w.isLt
  simp only [Fields.repack, toNat_pack, Machine.unpack_eq_extract, BitVec.extractLsb'_toNat, Nat.shiftRight_eq_div_pow]
  omega

theorem toNat_and_high (w : Word) : (w &&& 0xFFFFFFFFFFFF8000#64).toNat = w.toNat / 2 ^ 15 * 2 ^ 15 := by
  have hw := w.isLt
  have hmask : 0xFFFFFFFFFFFF8000#64 = BitVec.allOnes 64 <<< 15 := by decide
  rw [hmask, ← BitVec.shiftLeft_ushiftRight, BitVec.toNat_shiftLeft, BitVec.toNat_ushiftRight, Nat.shiftLeft_eq,
    Nat.shiftRight_eq_div_pow]
  omega

theorem repack_unpack (w : Word) : (unpack w).repack = w &&& 0xFFFFFFFFFFFF8000#64 :=
  BitVec.eq_of_toNat_eq ((toNat_repack_unpack w).trans (toNat_and_high w).symm)

theorem repack_unpack_eq_self_iff (w : Word) : (unpack w).repack = w ↔ w &&& 0x7FFF#64 = 0#64 := by
  rw [← BitVec.toNat_inj, toNat_repack_unpack, and_low_eq_zero_iff]
  omega

/-- Every value of the fields is in range, so none is lost by packing (R102). -/
theorem unpack_repack (u : Fields) : unpack u.repack = u := by
  simp only [Fields.repack, unpack_pack, BitVec.ofNat_toNat, BitVec.setWidth_eq]

theorem repack_injective {u v : Fields} (h : u.repack = v.repack) : u = v := by
  rw [← unpack_repack u, h, unpack_repack]

theorem exists_repack_eq_iff (w : Word) : (∃ u : Fields, u.repack = w) ↔ w &&& 0x7FFF#64 = 0#64 :=
  ⟨fun ⟨_, hu⟩ => hu ▸ pack_low .., fun h => ⟨unpack w, (repack_unpack_eq_self_iff w).mpr h⟩⟩

/-! ### Field independence (R104) -/

/-- Words that agree under a mask agree in every field the mask covers. -/
theorem extract_eq_of_and_eq {v w m : Word} (start len : Nat) (hm : m.extractLsb' start len = BitVec.allOnes len)
    (h : v &&& m = w &&& m) : v.extractLsb' start len = w.extractLsb' start len := by
  have hx := congrArg (BitVec.extractLsb' start len) h
  simpa only [BitVec.extractLsb'_and, hm, BitVec.and_allOnes] using hx

/-- What an argument of `pack` puts in its field lies under the field's mask. -/
theorem shifted_and_not_mask (x m : Word) (n : Nat) : (x &&& m) <<< n &&& ~~~(m <<< n) = 0#64 := by
  rw [BitVec.shiftLeft_and_distrib, BitVec.and_assoc, BitVec.and_not_self]
  exact BitVec.and_zero

/-- Setting bits outside a field leaves the field. -/
theorem extract_or_of_outside (w : Word) {m : Word} {start len : Nat} (hm : m.extractLsb' start len = 0#len) :
    (w ||| m).extractLsb' start len = w.extractLsb' start len := by
  rw [BitVec.extractLsb'_or, hm, BitVec.or_zero]

end Sys2Proof

namespace Sys2Proof.Machine

/-- Settles O2: the masking law, with masks as remainders. -/
theorem unpackOfPackMasksEachField : Obligations.UnpackOfPackMasksEachField := by
  intro op k2 st c f
  rw [unpack_pack]
  simp only [BitVec.toNat_ofNat]
  exact ⟨⟨(Nat.and_two_pow_sub_one_eq_mod op 8).symm, (Nat.and_two_pow_sub_one_eq_mod k2 8).symm,
      (Nat.and_two_pow_sub_one_eq_mod st 1).symm, (Nat.and_two_pow_sub_one_eq_mod c 16).symm,
      (Nat.and_two_pow_sub_one_eq_mod f 16).symm⟩,
    fun hop hk hst hc hf => ⟨trivial, Nat.mod_eq_of_lt hop, Nat.mod_eq_of_lt hk, Nat.mod_eq_of_lt hst, Nat.mod_eq_of_lt hc,
      Nat.mod_eq_of_lt hf⟩⟩

/-- Settles O3: the repacked word drops exactly the digits below the fields, and unpacking undoes packing. -/
theorem packOfUnpackClearsUnusedBits : Obligations.PackOfUnpackClearsUnusedBits :=
  ⟨repack_unpack, repack_unpack_eq_self_iff, fun _ _ => repack_injective, exists_repack_eq_iff⟩

/-- Settles O4: a field is the part of the word under its mask, an argument of `pack` vanishes outside its own, and the
status bit is a mask that covers the status field and touches no other. -/
theorem fieldsAreIndependent : Obligations.FieldsAreIndependent := by
  refine ⟨fun v w => ?_, fun op k2 st c f x => ?_, fun w => ?_⟩
  · simp only [unpack_eq_extract]
    exact ⟨extract_eq_of_and_eq 56 8 (by decide), extract_eq_of_and_eq 48 8 (by decide),
      extract_eq_of_and_eq 47 1 (by decide), extract_eq_of_and_eq 31 16 (by decide),
      extract_eq_of_and_eq 15 16 (by decide)⟩
  · have hop (y : Word) : (y &&& 0xFF#64) <<< 56 &&& ~~~0xFF00000000000000#64 = 0#64 := shifted_and_not_mask y _ _
    have hk (y : Word) : (y &&& 0xFF#64) <<< 48 &&& ~~~0x00FF000000000000#64 = 0#64 := shifted_and_not_mask y _ _
    have hst (y : Word) : (y &&& 0x1#64) <<< 47 &&& ~~~0x0000800000000000#64 = 0#64 := shifted_and_not_mask y _ _
    have hc (y : Word) : (y &&& 0xFFFF#64) <<< 31 &&& ~~~0x00007FFF80000000#64 = 0#64 := shifted_and_not_mask y _ _
    have hf (y : Word) : (y &&& 0xFFFF#64) <<< 15 &&& ~~~0x000000007FFF8000#64 = 0#64 := shifted_and_not_mask y _ _
    simp only [pack, BitVec.and_or_distrib_right, hop, hk, hst, hc, hf, and_self]
  · simp only [unpack_eq_extract, Fields.mk.injEq]
    refine ⟨extract_or_of_outside w (by decide), extract_or_of_outside w (by decide), ?_,
      extract_or_of_outside w (by decide), extract_or_of_outside w (by decide)⟩
    rw [BitVec.extractLsb'_or]
    exact BitVec.or_allOnes

end Sys2Proof.Machine
end

section
/-! SUPPORT. Decoding and encoding are inverse (spec/30_encoding.md R84 to R90): a word decodes exactly when it is the
request word of a bus command, and a host presentation keeps its code. -/

namespace Sys2Proof

/-- The opcode and the two indices that the request word of a bus command holds (R84). -/
def requestFields : Instr → Option (BusCommand × BitVec 16 × BitVec 16)
  | .initSystem => some (.initSystem, 0#16, 0#16)
  | .zeroCartridge => some (.zeroCartridge, 0#16, 0#16)
  | .loadCartridge c => some (.loadCartridge, c, 0#16)
  | .readFrame f => some (.readFrame, 0#16, f)
  | .writeFrame f => some (.writeFrame, 0#16, f)
  | .busPowerOff => some (.powerOff, 0#16, 0#16)
  | .powerOn => none
  | .powerOff => none
  | .openFile _ => none
  | .close _ => none
  | .read _ _ => none
  | .write _ _ => none
  | .seek _ _ => none
  | .reserved7 => none

/-- A request word: the command's opcode number and the two indices, every other field 0 (R84, R85). -/
def requestWord (k : BusCommand) (c f : BitVec 16) : Word := pack k.code 0 0 c.toNat f.toNat

variable {i : Instr} {k : BusCommand} {c f : BitVec 16} {w : Word}

theorem encode_of_requestFields (h : requestFields i = some (k, c, f)) : encode i = .bus (requestWord k c f) := by
  cases i <;> cases h <;> rfl

theorem unpack_requestWord (k : BusCommand) (c f : BitVec 16) :
    unpack (requestWord k c f) =
      { opcode := BitVec.ofNat 8 k.code, key2 := 0#8, status := 0#1, cartridgeIndex := c, frameIndex := f } := by
  rw [requestWord, unpack_pack, BitVec.ofNat_toNat, BitVec.ofNat_toNat, BitVec.setWidth_eq, BitVec.setWidth_eq]

theorem toNat_ofNat_code (k : BusCommand) : (BitVec.ofNat 8 k.code).toNat = k.code := by
  cases k <;> rfl

/-- A word with the fields of a request word and nothing below them is that request word (R54, R84). -/
theorem eq_requestWord (hop : (unpack w).opcode.toNat = k.code) (hkey : (unpack w).key2 = 0#8)
    (hstatus : (unpack w).status = 0#1) (hlow : w &&& 0x7FFF#64 = 0#64) :
    w = requestWord k (unpack w).cartridgeIndex (unpack w).frameIndex := by
  rw [requestWord, ← hop, ← (repack_unpack_eq_self_iff w).mpr hlow, unpack_repack, Fields.repack, hkey, hstatus]
  rfl

/-- The request word of a bus command decodes to it. -/
theorem decodeBus_of_requestFields (h : requestFields i = some (k, c, f)) : decodeBus (requestWord k c f) = .ok i := by
  have hlow : requestWord k c f &&& 0x7FFF#64 = 0#64 := pack_low ..
  cases i <;> cases h
  all_goals simp only [decodeBus, unpack_requestWord, toNat_ofNat_code, BusCommand.ofCode_code, hlow]; rfl

/-- A check that was passed, and what it guards. -/
theorem of_guard_eq_ok {p : Prop} [Decidable p] {j : Instr} {e : DecodeError}
    (h : (if p then .ok j else .error e : Except DecodeError Instr) = .ok i) : p ∧ i = j := by
  split at h
  next hp => exact ⟨hp, (Except.ok.inj h).symm⟩
  next => cases h

theorem of_refuse_eq_ok {p : Prop} [Decidable p] {x : Except DecodeError Instr} {e : DecodeError}
    (h : (if p then .error e else x) = .ok i) : ¬ p ∧ x = .ok i := by
  split at h
  next => cases h
  next hp => exact ⟨hp, h⟩

/-- Only request words decode. -/
theorem requestFields_of_decodeBus (h : decodeBus w = .ok i) :
    ∃ k c f, requestFields i = some (k, c, f) ∧ w = requestWord k c f := by
  cases hk : BusCommand.ofCode (unpack w).opcode.toNat with
  | none => simp only [decodeBus, hk] at h; cases h
  | some k =>
    simp only [decodeBus, hk] at h
    obtain ⟨hkey, h⟩ := of_refuse_eq_ok h
    obtain ⟨hstatus, h⟩ := of_refuse_eq_ok h
    obtain ⟨hlow, h⟩ := of_refuse_eq_ok h
    refine ⟨k, (unpack w).cartridgeIndex, (unpack w).frameIndex, ?_,
      eq_requestWord (BusCommand.ofCode_eq_some_iff.mp hk) (not_not.mp hkey) (not_not.mp hstatus) (not_not.mp hlow)⟩
    cases k with
    | initSystem => obtain ⟨⟨hc, hf⟩, rfl⟩ := of_guard_eq_ok h; rw [hc, hf, requestFields]
    | zeroCartridge => obtain ⟨⟨hc, hf⟩, rfl⟩ := of_guard_eq_ok h; rw [hc, hf, requestFields]
    | loadCartridge => obtain ⟨hf, rfl⟩ := of_guard_eq_ok h; rw [hf, requestFields]
    | readFrame => obtain ⟨hc, rfl⟩ := of_guard_eq_ok h; rw [hc, requestFields]
    | writeFrame => obtain ⟨hc, rfl⟩ := of_guard_eq_ok h; rw [hc, requestFields]
    | powerOff => obtain ⟨⟨hc, hf⟩, rfl⟩ := of_guard_eq_ok h; rw [hc, hf, requestFields]

/-- The instruction a presentation names is presented with the same code (R88, R89). -/
theorem encode_decodeHost (p : HostWord) : ∃ q : HostWord, encode (decodeHost p) = .host q ∧ q.hcmd = p.hcmd := by
  obtain ⟨⟨⟨n, hn⟩⟩, path, handle, number, data⟩ := p
  interval_cases n <;> exact ⟨_, rfl, rfl⟩

end Sys2Proof

namespace Sys2Proof.Machine

/-- Settles O7: a bus command goes through the fields of its request word, a host command keeps its code and operand
lines. -/
theorem decodeOfEncodeIsTheInstruction : Obligations.DecodeOfEncodeIsTheInstruction := by
  intro i
  cases hr : requestFields i with
  | some r =>
    rw [encode_of_requestFields hr]
    exact decodeBus_of_requestFields hr
  | none => cases i <;> cases hr <;> rfl

/-- Settles O8: a word that decodes is a request word, and the code of a host presentation selects the instruction that
encodes to it. -/
theorem decodedWordIsTheRequestWord : Obligations.DecodedWordIsTheRequestWord := by
  refine ⟨fun w i h => ?_, fun p i h => ?_⟩
  · obtain ⟨k, c, f, hr, rfl⟩ := requestFields_of_decodeBus h
    exact encode_of_requestFields hr
  · obtain rfl := Except.ok.inj h
    exact encode_decodeHost p

/-- Settles O6: the decoder run on each of the fourteen words and presentations. -/
theorem wordsDecodeAsTheSpecWritesThem : Obligations.WordsDecodeAsTheSpecWritesThem := by
  unfold Obligations.WordsDecodeAsTheSpecWritesThem
  decide

end Sys2Proof.Machine
end

section
/-! SUPPORT. Reset and stops (spec/70_reset_and_hazards.md R190, R194; spec/45_lifecycle.md R164; spec/30_encoding.md R89;
spec/20_memory.md section 3): when an instruction has no effect, and which stop it answers. -/

namespace Sys2Proof.Machine

variable {s : State} {i : Instr}

/-- Settles O10: the two registers R38 gives a value, and nothing stands at the host port. -/
theorem hardwareResetLeavesTheBlockIdle : Obligations.HardwareResetLeavesTheBlockIdle :=
  ⟨rfl, rfl, step_of_nothing rfl rfl⟩

/-- Settles O13: `powered` is checked before a command's own part, and powerOn does not check it. -/
theorem commandsRefusedWhileUnpowered : Obligations.CommandsRefusedWhileUnpowered := fun _ hi hp =>
  ⟨fun _ hc hon => exec_unpowered hi hp hc hon, _, exec_powerOn hi⟩

/-- Host code 7 names the reserved command, whatever the operand lines hold (R89). -/
theorem decodeHost_seven {p : HostWord} (h : p.hcmd = 7#3) : decodeHost p = .reserved7 := by
  simp only [decodeHost, h]
  rfl

/-- Settles O14: the refusal looks at no state, and the idle block passes on what it decodes. -/
theorem reservedHostCodeRefused : Obligations.ReservedHostCodeRefused := by
  refine ⟨fun _ => rfl, fun p h => congrArg Except.ok (decodeHost_seven h), fun s p ps hi hp h => ?_⟩
  rw [step_of_host hi hp, decodeHost_seven h]
  rfl

/-! ### A host command while the sequencer waits (R194, U18) -/

theorem whenIdle_waiting {w : Word} {j : Job} (hw : s.seq = .waiting w j)
    (body : State → Host.Outcome State Fault Refusal) : whenIdle s body = .fault .hostOverlap := by
  simp only [whenIdle, hw]

theorem inSession_waiting {w : Word} {j : Job} (hw : s.seq = .waiting w j)
    (body : State → Host.Outcome State Fault Refusal) : inSession s body = .fault .hostOverlap :=
  whenIdle_waiting hw _

/-- Settles O15: every host command looks at the sequencer before anything else, `powered` included. -/
theorem overlappingHostCommandFaults : Obligations.OverlappingHostCommandFaults := by
  intro s w j i hw hi
  cases i with
  | powerOn => rw [exec, execPowerOn, whenIdle_waiting hw]
  | powerOff => rw [exec, execPowerOff, inSession_waiting hw]
  | openFile p => rw [exec, execOpen, inSession_waiting hw]
  | close h => rw [exec, execClose, inSession_waiting hw]
  | read h n => rw [exec, execRead, inSession_waiting hw]
  | write h data => rw [exec, execWrite, inSession_waiting hw]
  | seek h o => rw [exec, execSeek, inSession_waiting hw]
  | initSystem => cases hi
  | zeroCartridge => cases hi
  | loadCartridge c => cases hi
  | readFrame f => cases hi
  | writeFrame f => cases hi
  | busPowerOff => cases hi
  | reserved7 => cases hi

/-! ### A bus command in a case the reference device does not list (R59) -/

theorem runBus_not_ready {w : Word} {o : Option Frame} {op : State → Flow Unit} (hr : ¬ Ready s i)
    (hlists : (s.bus.serve w o).isSome = true ↔ s.bus.lists i) : runBus s w o op = .fault .environment :=
  if_neg (mt (accepts_iff_ready s i w o hlists).mp hr)

/-- Settles O17: each bus command asks whether its own request is listed. -/
theorem unlistedRequestsFault : Obligations.UnlistedRequestsFault := by
  intro s i hi hr
  cases i with
  | initSystem => exact runBus_not_ready hr (serve_init_iff _)
  | zeroCartridge => exact runBus_not_ready hr (serve_zero_iff _)
  | loadCartridge c => exact runBus_not_ready hr (serve_load_iff _ c)
  | readFrame f => exact runBus_not_ready hr (serve_read_iff _ f _)
  | writeFrame f => exact runBus_not_ready hr (serve_write_iff _ f _)
  | busPowerOff => exact runBus_not_ready hr (serve_off_iff _)
  | powerOn => cases hi
  | powerOff => cases hi
  | openFile p => cases hi
  | close h => cases hi
  | read h n => cases hi
  | write h data => cases hi
  | seek h o => cases hi
  | reserved7 => cases hi

/-- Settles O49: the codes as decision D7 numbers them. -/
theorem resultCodesAreNumbered : Obligations.ResultCodesAreNumbered :=
  ⟨fun _ => rfl, rfl, rfl, rfl, rfl, rfl, rfl, rfl⟩

end Sys2Proof.Machine
end

section
/-! SUPPORT. The reference device of spec/20_memory.md section 3: its table for every word (R59), and what powerOn makes of
it (R191). -/

namespace Sys2Proof.Machine

variable {b : Bus} {w : Word} {o : Option Frame}

/-- A request's echo is the request without the bits below its fields (R59, R103). -/
theorem echo_eq (hs : (unpack w).status = 0#1) : echo w = w &&& 0xFFFFFFFFFFFF8000#64 := by
  rw [← repack_unpack, Fields.repack, hs]
  rfl

/-- The undisturbed reference device in a listed case: the request back with status 0, and what the case serves. -/
theorem xfer_listed (hb : b.agent = .reference []) (hs : (unpack w).status = 0#1) {d : Served}
    (hd : b.serve w o = some d) :
    (b.xfer w o).1.resp = w &&& 0xFFFFFFFFFFFF8000#64 ∧ (b.xfer w o).1.data = d.data ∧
      (b.xfer w o).2.mounted = d.mounted ∧ (b.xfer w o).2.mem = d.mem := by
  obtain ⟨hanswer, -, hmounted, hmem⟩ := xfer_reference hb hd
  rw [hanswer]
  exact ⟨echo_eq hs, rfl, hmounted, hmem⟩

section
variable (hs : (unpack w).status = 0#1)
include hs

theorem serve_of_init (hop : (unpack w).opcode = 0#8) :
    b.serve w o = some { data := Frame.zero, mounted := none, mem := .unspecified b.draws } := by
  simp [Bus.serve, hs, hop, BusCommand.ofCode]

theorem serve_of_zero (hop : (unpack w).opcode = 1#8) {m : Fin 64} (hm : b.mounted = some m) :
    b.serve w o = some { data := Frame.zero, mounted := some m, mem := b.mem.fillCartridge m .zero } := by
  simp [Bus.serve, hs, hop, BusCommand.ofCode, hm]

theorem serve_of_load (hop : (unpack w).opcode = 2#8) {c : Fin 64} (hc : (unpack w).cartridgeIndex.toNat = c.val) :
    b.serve w o = some { data := Frame.zero, mounted := some c, mem := b.mem } := by
  simp [Bus.serve, hs, hop, BusCommand.ofCode, hc]

theorem serve_of_read (hop : (unpack w).opcode = 3#8) {m : Fin 64} (hm : b.mounted = some m) {f : Fin 1024}
    (hf : (unpack w).frameIndex.toNat = f.val) (buf : Frame) :
    b.serve w (some buf) = some { data := b.mem.readFrame ⟨m, f⟩, mounted := some m, mem := b.mem } := by
  simp [Bus.serve, hs, hop, BusCommand.ofCode, hm, hf]

theorem serve_of_write (hop : (unpack w).opcode = 4#8) {m : Fin 64} (hm : b.mounted = some m) {f : Fin 1024}
    (hf : (unpack w).frameIndex.toNat = f.val) (buf : Frame) :
    b.serve w (some buf) = some { data := Frame.zero, mounted := some m, mem := b.mem.writeFrame ⟨m, f⟩ buf } := by
  simp [Bus.serve, hs, hop, BusCommand.ofCode, hm, hf]

theorem serve_of_off (hop : (unpack w).opcode = 5#8) :
    b.serve w o = some { data := Frame.zero, mounted := none, mem := .unspecified b.draws } := by
  simp [Bus.serve, hs, hop, BusCommand.ofCode]

end

/-- The bytes of a frame, as the row of R59's table numbers them (R67). -/
theorem read_writeFrame_row (m : Memory) (c : Fin 64) (f : Fin 1024) (buf : Frame) (x : Nat) :
    (m.writeFrame ⟨c, f⟩ buf).read x =
      if (c.val * 1024 + f.val) * 1024 ≤ x ∧ x < (c.val * 1024 + f.val) * 1024 + 1024
      then buf.bytes.getD (x - (c.val * 1024 + f.val) * 1024) 0 else m.read x := by
  have hstart : byteAddress ⟨c, f⟩ 0 = (c.val * 1024 + f.val) * 1024 := Nat.add_zero _
  have hend : byteAddress ⟨c, f⟩ 1024 = (c.val * 1024 + f.val) * 1024 + 1024 := by
    simp only [byteAddress, FrameAddress.linear]
  rw [read_writeFrame, hstart, hend]

/-- Settles O23: row by row what the device serves, read byte by byte. -/
theorem referenceDeviceFollowsItsTable : Obligations.ReferenceDeviceFollowsItsTable := by
  intro b w o hb hs
  refine ⟨fun hop => ?_, fun hop m hm => ?_, fun hop c hc => ?_, fun hop m f buf hm hf ho => ?_,
    fun hop m f buf hm hf ho => ?_, fun hop => ?_⟩
  · obtain ⟨hresp, -, hmounted, -⟩ := xfer_listed (o := o) hb hs (serve_of_init hs hop)
    exact ⟨hresp, hmounted⟩
  · obtain ⟨hresp, -, hmounted, hmem⟩ := xfer_listed (o := o) hb hs (serve_of_zero hs hop hm)
    exact ⟨hresp, hmounted, fun x => by rw [hmem, read_fillCartridge]⟩
  · obtain ⟨hresp, -, hmounted, hmem⟩ := xfer_listed (o := o) hb hs (serve_of_load hs hop hc)
    exact ⟨hresp, hmounted, fun x => by rw [hmem]⟩
  · subst ho
    obtain ⟨hresp, hdata, hmounted, hmem⟩ := xfer_listed hb hs (serve_of_read hs hop hm hf buf)
    exact ⟨hresp, hmounted, fun x => by rw [hmem], fun i hi => by rw [hdata, readFrame_get _ _ hi]; rfl⟩
  · subst ho
    obtain ⟨hresp, -, hmounted, hmem⟩ := xfer_listed hb hs (serve_of_write hs hop hm hf buf)
    exact ⟨hresp, hmounted, fun x => by rw [hmem, read_writeFrame_row]⟩
  · obtain ⟨hresp, -, hmounted, -⟩ := xfer_listed (o := o) hb hs (serve_of_off hs hop)
    exact ⟨hresp, hmounted⟩

theorem zeroRequests_length (l : List (Fin 64)) : (zeroRequests l).length = 2 * l.length := by
  induction l with
  | nil => rfl
  | cons c l ih => rw [zeroRequests_cons, List.length_cons, List.length_cons, List.length_cons, ih]; omega

/-- InitSystem, and two requests for each of the 64 cartridges (R160). -/
theorem powerOnRequests_length : powerOnRequests.length = 129 := by
  rw [powerOnRequests_eq, List.length_cons, zeroRequests_length, List.length_finRange]

/-- The transfers of powerOn, when none fails, are all there are (R160, R202). -/
theorem powerOnTransfers_done_length {s t : State} (hr : powerOnTransfers s = .done () t) :
    t.bus.trace.length = s.bus.trace.length + 129 := by
  obtain ⟨u, tr, -, htr, -, ⟨-, hcmds, hu⟩ | ⟨-, -, hu⟩⟩ := powerOnTransfers_cases s
  · rw [hr] at hu
    obtain rfl : t = u := (Flow.done.inj hu).2
    rw [htr, List.length_append, ← powerOnRequests_length, ← hcmds, List.length_map]
  · rw [hr] at hu
    cases hu

/-- Settles O25: over the undisturbed reference device the transfers of powerOn succeed and zero the device, and beginning a
session touches nothing of it. -/
theorem powerOnZeroesTheReferenceDevice : Obligations.PowerOnZeroesTheReferenceDevice := by
  intro s hi hu
  obtain ⟨t, hr, ht, hmounted, hzero⟩ := powerOnTransfers_reference (s := s.start) hu
  exact ⟨_, exec_powerOn_of_done hi hr, rfl, rfl, rfl, rfl, powerOnTransfers_done_length hr, hzero, hmounted, ht⟩

end Sys2Proof.Machine
end

section
/-! SUPPORT. How much a command does: the iterations of a read or write and the bytes of each (spec/44_rw_engine.md R149,
spec/70_reset_and_hazards.md R196), and the transfers of a command that succeeds (R202). -/

namespace Sys2Proof.Machine

variable {s t : State} {h : Nat}

/-- Settles O36: a chunk ends with the range or with its frame, and the iterations are one more than those of the rest. -/
theorem chunksStayInsideTheBuffer : Obligations.ChunksStayInsideTheBuffer := by
  intro r n hn hcover
  have hoffset : offsetAtCursor r = r.cursor % 1024 := rfl
  have hinside := chunkSize_inside r n
  refine ⟨by omega, chunkSize_pos hn.ne', by omega, chunkSize_le r n, by omega, fun hlt => ?_, if_neg hn.ne', ?_⟩
  · obtain ⟨hend, hfull⟩ := (chunkSize_cases r n).resolve_left hlt.ne
    exact ⟨by omega, hfull⟩
  · rw [iterations_step r hn.ne', Nat.add_comm]

/-! ### Transfers of a command that succeeds -/

/-- A command that reports success came to that value. -/
theorem done_of_finish_success {m : Flow Value} {v : Value} (hv : (finish m).result = some (.success v)) :
    ∃ u, m = .done v u := by
  cases m with
  | done w u => cases hv; exact ⟨u, rfl⟩
  | raised e u => cases hv

/-- The commands of the File Table, none of which issues a transfer (spec/43_file_table.md, R147). -/
def IsTableCommand (i : Instr) : Prop := (∃ p, i = .openFile p) ∨ (∃ h, i = .close h) ∨ ∃ h o, i = .seek h o

theorem seekTo_bus (h o : Nat) (s : State) : (seekTo h o s).state.bus = s.bus := by
  unfold seekTo; split <;> rfl

theorem resolve_bind_bus (h : Nat) (s : State) {k : Unit → State → Flow Value}
    (hk : ∀ u, (k () u).state.bus = u.bus) : ((resolve h s).bind k).state.bus = s.bus := by
  have hs := congrArg State.bus (resolve_state h s)
  cases hr : resolve h s with
  | done a u => rw [hr] at hs; exact (hk u).trans hs
  | raised e u => rw [hr] at hs; exact hs

theorem IsTableCommand.bus_eq {i : Instr} (hi : IsTableCommand i) (hx : exec i s = .next t) : t.bus = s.start.bus := by
  rcases hi with ⟨p, rfl⟩ | ⟨h, rfl⟩ | ⟨h, o, rfl⟩
  · obtain ⟨-, -, rfl⟩ := open_next hx
    rw [finish_bus, openPath_bus]
  · obtain ⟨-, -, hb⟩ := inSession_next (by simpa only [exec, execClose] using hx)
    rw [← Host.Outcome.next.inj hb, finish_bus, resolve_bind_bus h _ fun u => rfl]
  · obtain ⟨-, -, hb⟩ := inSession_next (by simpa only [exec, execSeek] using hx)
    rw [← Host.Outcome.next.inj hb, finish_bus, resolve_bind_bus h _ fun u => seekTo_bus h o u]

theorem IsTableCommand.trace_length {i : Instr} (hi : IsTableCommand i) (hx : exec i s = .next t) :
    t.bus.trace.length = 0 := by
  rw [hi.bus_eq hx]
  rfl

/-- A read that answers a next state was refused its handle, or ran on a known one. -/
theorem read_next_cases {count : Nat} (hx : exec (.read h count) s = .next t) :
    (∃ e, t = s.start.reportError e) ∨ t = finish (readBytes h (bytesToRead (s.record h) count) s.start) := by
  obtain ⟨hi, hp⟩ := read_next hx
  rw [exec_read hi hp] at hx
  split at hx
  case isTrue => exact .inl ⟨_, (Host.Outcome.next.inj hx).symm⟩
  case isFalse =>
    split at hx
    case isTrue => exact .inl ⟨_, (Host.Outcome.next.inj hx).symm⟩
    case isFalse =>
      split at hx
      case isTrue => exact .inr (Host.Outcome.next.inj hx).symm
      case isFalse => cases hx

theorem powerOff_done_length {u : State} {v : Value} (hm : endPowerOff (busOff s) = .done v u) :
    u.bus.trace.length = s.bus.trace.length + 1 := by
  obtain ⟨w, e, -, -, htr, -, -, ⟨-, hr⟩ | ⟨-, hr⟩⟩ := request_cases requestOff s
  · rw [busOff, hr] at hm; cases hm
  · rw [busOff, hr] at hm
    cases hm
    exact (congrArg List.length htr).trans List.length_append

theorem endPowerOn_done_length {u : State} {v : Value} (hm : endPowerOn (powerOnTransfers s) = .done v u) :
    u.bus.trace.length = s.bus.trace.length + 129 := by
  cases hr : powerOnTransfers s with
  | done a w => rw [hr] at hm; cases hm; exact powerOnTransfers_done_length (t := w) hr
  | raised e w => rw [hr] at hm; cases hm

/-- Two transfers for each frame touched (R141). -/
theorem readBytes_done_length {n : Nat} {u : State} {v : Value} (hm : readBytes h n s = .done v u) :
    u.bus.trace.length = s.bus.trace.length + 2 * iterations (s.record h).cursor n := by
  obtain ⟨w, tr, -, -, -, htr, -, ⟨-, hcmds, hr, -⟩ | ⟨-, -, hr, -⟩⟩ := readBytes_cases h n s
  · rw [hr] at hm
    cases hm
    rw [htr, List.length_append, ← List.length_map (as := tr), hcmds, readRequests_length, framesTouched_length]
  · rw [hr] at hm; cases hm

/-- Three transfers for each frame touched (R144). -/
theorem writeBytes_done_length {data : List Byte} {u : State} {v : Value} (hm : writeBytes h data s = .done v u) :
    u.bus.trace.length = s.bus.trace.length + 3 * iterations (s.record h).cursor data.length := by
  obtain ⟨-, r, rfl, w, tr, -, -, -, htr, -, -, -, ⟨-, hcmds, -, hr, -⟩ | ⟨-, -, hr, -⟩⟩ | ⟨-, w, hr, -⟩ :=
    writeBytes_cases h data s
  · rw [hr] at hm
    cases hm
    rw [htr, List.length_append, ← List.length_map (as := tr), hcmds, writeRequests_length, framesTouched_length]
  · rw [hr] at hm; cases hm
  · rw [hr] at hm; cases hm

/-- Settles O53: command by command the transfers of a run that came to a value, from the empty trace on. -/
theorem transferCountsOfSuccess : Obligations.TransferCountsOfSuccess := by
  intro i s t v hx hv
  refine ⟨?_, ?_, fun p hi => IsTableCommand.trace_length (.inl ⟨p, hi⟩) hx,
    fun h hi => IsTableCommand.trace_length (.inr (.inl ⟨h, hi⟩)) hx,
    fun h o hi => IsTableCommand.trace_length (.inr (.inr ⟨h, o, hi⟩)) hx, ?_, ?_⟩
  · rintro rfl
    obtain ⟨-, rfl⟩ := powerOn_next hx
    obtain ⟨u, hm⟩ := done_of_finish_success hv
    rw [finish_bus, hm]
    exact endPowerOn_done_length hm
  · rintro rfl
    obtain ⟨-, -, rfl⟩ := powerOff_next hx
    obtain ⟨u, hm⟩ := done_of_finish_success hv
    rw [finish_bus, hm]
    exact powerOff_done_length hm
  · rintro h count rfl
    rw [← bytesToRead_eq]
    rcases read_next_cases hx with ⟨e, rfl⟩ | rfl
    · cases hv
    · obtain ⟨u, hm⟩ := done_of_finish_success hv
      rw [finish_bus, hm]
      exact (readBytes_done_length hm).trans (Nat.zero_add _)
  · rintro h data rfl
    rcases write_next_cases hx with ⟨e, rfl⟩ | ⟨-, rfl⟩
    · cases hv
    · obtain ⟨u, hm⟩ := done_of_finish_success hv
      rw [finish_bus, hm]
      exact (writeBytes_done_length hm).trans (Nat.zero_add _)

end Sys2Proof.Machine
end

section
/-! SUPPORT. Two runs side by side: a relation between states that each transfer keeps is kept by the transfers of powerOn.
With it, that powerOn reads none of the registers reset leaves unspecified (spec/70_reset_and_hazards.md R190). -/

namespace Sys2Proof.Machine

/-! ### Related flows -/

/-- Both pieces go on with one value, or raise one error, in states related by `R`. -/
inductive FlowsRelated {α : Type} (R : State → State → Prop) : Flow α → Flow α → Prop
  | done (a : α) {s u : State} (h : R s u) : FlowsRelated R (.done a s) (.done a u)
  | raised (e : ErrorKind) {s u : State} (h : R s u) : FlowsRelated R (.raised e s) (.raised e u)

/-- Both outcomes are related next states, or the same stop. -/
inductive OutcomesRelated (R : State → State → Prop) :
    Host.Outcome State Fault Refusal → Host.Outcome State Fault Refusal → Prop
  | next {s u : State} (h : R s u) : OutcomesRelated R (.next s) (.next u)
  | fault (r : Fault) : OutcomesRelated R (.fault r) (.fault r)
  | refused (r : Refusal) : OutcomesRelated R (.refused r) (.refused r)

variable {R : State → State → Prop} {s u : State}

theorem FlowsRelated.bind {α β : Type} {m n : Flow α} {k l : α → State → Flow β} (h : FlowsRelated R m n)
    (hk : ∀ a s u, R s u → FlowsRelated R (k a s) (l a u)) : FlowsRelated R (m.bind k) (n.bind l) := by
  cases h with
  | done a h => exact hk a _ _ h
  | raised e h => exact .raised e h

/-- The status check looks at the status of the response alone (R53, R55). -/
theorem FlowsRelated.statusCheck {x y : Word} (hxy : failed y = failed x) (h : R s u) :
    FlowsRelated R (statusCheck x s) (statusCheck y u) := by
  unfold Machine.statusCheck
  rw [hxy]
  split
  · exact .raised _ h
  · exact .done () h

/-- A transfer with no buffer keeps `R` and gets the same status in related states. -/
def KeptByTransfers (R : State → State → Prop) : Prop :=
  ∀ (w : Word) (s u : State), R s u →
    failed (u.issue w none).1.resp = failed (s.issue w none).1.resp ∧ R (s.issue w none).2 (u.issue w none).2

/-- One request with no buffer and its status check. -/
theorem KeptByTransfers.request (hR : KeptByTransfers R) (w : Word) (h : R s u) :
    FlowsRelated R (Machine.statusCheck (s.issue w none).1.resp (s.issue w none).2)
      (Machine.statusCheck (u.issue w none).1.resp (u.issue w none).2) :=
  .statusCheck (hR w s u h).1 (hR w s u h).2

theorem KeptByTransfers.zeroCartridges (hR : KeptByTransfers R) (l : List (Fin 64)) (h : R s u) :
    FlowsRelated R (zeroCartridges l s) (zeroCartridges l u) := by
  induction l generalizing s u with
  | nil => exact .done () h
  | cons c l ih =>
    exact (hR.request (requestLoad c.val) h).bind fun _ _ _ ht => (hR.request requestZero ht).bind fun _ _ _ hv => ih hv

theorem KeptByTransfers.powerOnTransfers (hR : KeptByTransfers R) (h : R s u) :
    FlowsRelated R (powerOnTransfers s) (powerOnTransfers u) :=
  (hR.request requestInit h).bind fun _ _ _ ht => hR.zeroCartridges _ ht

/-! ### The registers reset leaves unspecified (R38, R190) -/

/-- The state with other values of `next_free`, `n_files`, the table and `scratch`. -/
def State.withUnspecified (a : Fin 65537) (n : Nat) (c : List FileRecord) (b : Frame) (s : State) : State :=
  { s with nextFree := a, nFiles := n, ft := c, scratch := b }

/-- A transfer that passes no buffer reads none of these registers, and writes none. -/
theorem keptByTransfers_withUnspecified (a : Fin 65537) (n : Nat) (c : List FileRecord) (b : Frame) :
    KeptByTransfers (fun s u => u = s.withUnspecified a n c b) := by
  rintro w s _ rfl
  exact ⟨rfl, rfl⟩

/-- Settles O58: the transfers carry the four registers along unread; a session that begins overwrites all but `scratch`,
one that is lost all four. -/
theorem unspecifiedRegistersAreNotRead : Obligations.UnspecifiedRegistersAreNotRead := by
  intro s a n c b
  change exec .powerOn (s.withUnspecified a n c b) = _
  cases hi : s.seq with
  | waiting w j => simp only [exec, execPowerOn, whenIdle_waiting hi, whenIdle_waiting (s := s.withUnspecified a n c b) hi]
  | idle =>
    have h := (keptByTransfers_withUnspecified a n c b).powerOnTransfers (s := s.start) rfl
    rw [exec_powerOn hi, exec_powerOn (s := s.withUnspecified a n c b) hi]
    change FlowsRelated _ _ (powerOnTransfers (s.withUnspecified a n c b).start) at h
    generalize powerOnTransfers s.start = m at h ⊢
    generalize powerOnTransfers (s.withUnspecified a n c b).start = m' at h ⊢
    cases h with
    | done _ h => rw [h]; rfl
    | raised e h => rw [h]; rfl

end Sys2Proof.Machine
end

section
/-! SUPPORT. Two runs of a host command whose Bus Transports give answers that agree in status and data (spec/20_memory.md
R53, decision D4): they stay alike in all but the recorded responses and the answers still to come. -/

namespace Sys2Proof.Machine

/-! ### Bus sides whose answers agree -/

/-- The answers agree in all the block reads of them. -/
def AnswersAgree (a a' : Answer) : Prop := failed a.resp = failed a'.resp ∧ a.data = a'.data

/-- What of an event does not show more of the response than its status. -/
def Event.statusView (e : Event) : Word × Option Frame × Bool × Option Frame := (e.cmd, e.out, failed e.resp, e.inp)

/-- The bus side with other answers to come and another trace. -/
def Bus.withAnswers (b : Bus) (as : List Answer) (tr : List Event) : Bus := { b with agent := .oracle as, trace := tr }

/-- `c` differs from `b` at most in the answers to come and in the responses recorded, and those agree. -/
def BusesAgree (b c : Bus) : Prop :=
  ∃ as as' tr, b.agent = .oracle as ∧ List.Forall₂ AnswersAgree as as' ∧ c = b.withAnswers as' tr ∧
    tr.map Event.statusView = b.trace.map Event.statusView

/-- `u` differs from `s` at most in the bus side, and the bus sides agree. -/
def StatesAgree (s u : State) : Prop := ∃ c, u = { s with bus := c } ∧ BusesAgree s.bus c

/-- What a Bus Transport's transfer leaves of the bus side: the answers but the first, and one more event. -/
theorem xfer_oracle_eq {b : Bus} {as : List Answer} (hb : b.agent = .oracle as) (w : Word) (o : Option Frame) :
    b.xfer w o = (oracleAnswer as b.draws 0,
      { b with agent := .oracle as.tail, draws := b.draws + 1, trace := b.trace ++ [eventOf b w o] }) := by
  cases as with
  | nil => simp [Bus.xfer, Bus.respond, hb, eventOf, oracleAnswer]
  | cons a as => simp [Bus.xfer, Bus.respond, hb, eventOf, oracleAnswer]

theorem oracleAnswer_agree {as as' : List Answer} (h : List.Forall₂ AnswersAgree as as') (n : Nat) :
    AnswersAgree (oracleAnswer as n 0) (oracleAnswer as' n 0) := by
  cases h with
  | nil => exact ⟨rfl, rfl⟩
  | cons h _ => exact h

/-- The same transfer on bus sides that agree gets answers that agree and leaves bus sides that do. -/
theorem BusesAgree.xfer {b c : Bus} (h : BusesAgree b c) (w : Word) (o : Option Frame) :
    AnswersAgree (b.xfer w o).1 (c.xfer w o).1 ∧ BusesAgree (b.xfer w o).2 (c.xfer w o).2 := by
  obtain ⟨as, as', tr, hb, has, rfl, htr⟩ := h
  have hanswer := oracleAnswer_agree has b.draws
  have hevent : (eventOf (b.withAnswers as' tr) w o).statusView = (eventOf b w o).statusView := by
    simp only [Event.statusView, eventOf, (xfer_takes_first_answer hb w o).1,
      (xfer_takes_first_answer (b := b.withAnswers as' tr) rfl w o).1]
    exact congrArg₂ (fun x (y : Frame) => (w, o, x, if isRead w then some y else none)) hanswer.1.symm hanswer.2.symm
  rw [xfer_oracle_eq hb, xfer_oracle_eq (b := b.withAnswers as' tr) rfl]
  have htail : List.Forall₂ AnswersAgree as.tail as'.tail := by simpa only [List.drop_one] using List.forall₂_drop 1 has
  refine ⟨hanswer, as.tail, as'.tail, _, rfl, htail, rfl, ?_⟩
  show (tr ++ [_]).map _ = (b.trace ++ [_]).map _
  rw [List.map_append, List.map_append, htr, List.map_singleton, hevent, List.map_singleton]

variable {s u : State}

/-! ### States that agree -/

theorem StatesAgree.record (h : StatesAgree s u) (j : Nat) : u.record j = s.record j := by
  obtain ⟨c, rfl, -⟩ := h; rfl

theorem StatesAgree.nFiles (h : StatesAgree s u) : u.nFiles = s.nFiles := by
  obtain ⟨c, rfl, -⟩ := h; rfl

theorem StatesAgree.powered (h : StatesAgree s u) : u.powered = s.powered := by
  obtain ⟨c, rfl, -⟩ := h; rfl

theorem StatesAgree.cfg (h : StatesAgree s u) : u.cfg = s.cfg := by
  obtain ⟨c, rfl, -⟩ := h; rfl

theorem StatesAgree.scratch (h : StatesAgree s u) : u.scratch = s.scratch := by
  obtain ⟨c, rfl, -⟩ := h; rfl

/-- An update that does not look at the bus side, and leaves it. -/
theorem StatesAgree.map (h : StatesAgree s u) {g : State → State}
    (hg : ∀ s (c : Bus), g { s with bus := c } = { g s with bus := c }) (hbus : ∀ s, (g s).bus = s.bus) :
    StatesAgree (g s) (g u) := by
  obtain ⟨c, rfl, hc⟩ := h
  exact ⟨c, hg s c, by rw [hbus]; exact hc⟩

theorem StatesAgree.issue (h : StatesAgree s u) (w : Word) (o : Option Frame) :
    AnswersAgree (s.issue w o).1 (u.issue w o).1 ∧ StatesAgree (s.issue w o).2 (u.issue w o).2 := by
  obtain ⟨c, rfl, hc⟩ := h
  obtain ⟨hanswer, hbus⟩ := hc.xfer w o
  exact ⟨hanswer, _, rfl, hbus⟩

theorem keptByTransfers_statesAgree : KeptByTransfers StatesAgree := fun w _ _ h =>
  ⟨(h.issue w none).1.1.symm, (h.issue w none).2⟩

theorem StatesAgree.commitLength (h : StatesAgree s u) (j : Nat) : StatesAgree (commitLength j s) (commitLength j u) := by
  unfold Machine.commitLength
  rw [h.record]
  split
  · exact h.map (g := fun s => s.setEnd j _) (fun _ _ => rfl) fun _ => rfl
  · exact h

theorem StatesAgree.abortLength (h : StatesAgree s u) (j : Nat) : StatesAgree (abortLength j s) (abortLength j u) := by
  unfold Machine.abortLength
  rw [h.cfg]
  split
  · exact h.commitLength j
  · exact h

/-! ### The frame commands and the loops -/

theorem busRead_agree (h : StatesAgree s u) (f : Nat) : FlowsRelated StatesAgree (busRead f s) (busRead f u) := by
  obtain ⟨⟨hstatus, hdata⟩, ht⟩ := h.issue (requestRead f) (some s.scratch)
  simp only [busRead, h.scratch, ← hdata]
  exact .statusCheck hstatus.symm (ht.map (fun _ _ => rfl) fun _ => rfl)

theorem busWrite_agree (h : StatesAgree s u) (f : Nat) : FlowsRelated StatesAgree (busWrite f s) (busWrite f u) := by
  obtain ⟨⟨hstatus, -⟩, ht⟩ := h.issue (requestWrite f) (some s.scratch)
  simp only [busWrite, h.scratch]
  exact .statusCheck hstatus.symm ht

theorem frameFetch_agree (h : StatesAgree s u) (a : FrameAddress) :
    FlowsRelated StatesAgree (frameFetch a s) (frameFetch a u) :=
  (keptByTransfers_statesAgree.request (requestLoad a.cart.val) h).bind fun _ _ _ ht => busRead_agree ht a.frame.val

theorem readLoop_agree (fuel h rem : Nat) (out : List Byte) (ha : StatesAgree s u) :
    FlowsRelated StatesAgree (readLoop fuel h rem out s) (readLoop fuel h rem out u) := by
  induction fuel generalizing rem out s u with
  | zero => exact .done out ha
  | succ fuel ih =>
    simp only [readLoop, ha.record]
    split
    · exact .done out ha
    · refine (frameFetch_agree ha _).bind fun _ t v ht => ?_
      simp only [chunkRead, ht.record, ht.scratch]
      exact ih _ _ (ht.map (g := advanceCursor h _) (fun _ _ => rfl) fun _ => rfl)

theorem StatesAgree.modifyScratch (ha : StatesAgree s u) (h : Nat) (rest : List Byte) :
    StatesAgree (modifyScratch h rest s) (modifyScratch h rest u) :=
  ha.map (fun _ _ => rfl) fun _ => rfl

theorem writeLoop_agree (fuel h : Nat) (rest : List Byte) (ha : StatesAgree s u) :
    FlowsRelated StatesAgree (writeLoop fuel h rest s) (writeLoop fuel h rest u) := by
  induction fuel generalizing rest s u with
  | zero => exact .done () ha
  | succ fuel ih =>
    simp only [writeLoop, ha.record]
    split
    · exact .done () ha
    · refine (frameFetch_agree ha _).bind fun _ t v ht => ?_
      rw [ht.record]
      refine (busWrite_agree (ht.modifyScratch h rest) _).bind fun _ t' v' ht' => ?_
      rw [ht'.record]
      exact ih _ (ht'.map (g := advanceCursor h _) (fun _ _ => rfl) fun _ => rfl)

theorem allocAppend_agree (h : Nat) (ha : StatesAgree s u) :
    FlowsRelated StatesAgree (allocAppend h s) (allocAppend h u) := by
  obtain ⟨c, rfl, hc⟩ := ha
  by_cases hf : s.nextFree.val < 65536
  · rw [allocAppend_eq h hf, allocAppend_eq h (s := { s with bus := c }) hf]
    exact .done () ⟨c, rfl, hc⟩
  · rw [allocAppend_full h hf, allocAppend_full h (s := { s with bus := c }) hf]
    exact .raised _ ⟨c, rfl, hc⟩

theorem allocFrames_agree (h n : Nat) (ha : StatesAgree s u) :
    FlowsRelated StatesAgree (allocFrames h n s) (allocFrames h n u) := by
  induction n generalizing s u with
  | zero => exact .done () ha
  | succ n ih => exact (allocAppend_agree h ha).bind fun _ _ _ ht => ih ht

/-! ### What each command comes to -/

theorem resolve_agree (h : Nat) (ha : StatesAgree s u) : FlowsRelated StatesAgree (resolve h s) (resolve h u) := by
  simp only [resolve, ha.nFiles, ha.record]
  split
  · exact .raised _ ha
  · split
    · exact .raised _ ha
    · exact .done () ha

/-- A failed powerOn loses nothing of a Bus Transport other than the reference device. -/
theorem BusesAgree.lose {b c : Bus} (h : BusesAgree b c) : c.lose = c ∧ b.lose = b := by
  obtain ⟨as, as', tr, hb, -, rfl, -⟩ := h
  exact ⟨lose_of_oracle (as := as') rfl, lose_of_oracle hb⟩

theorem StatesAgree.loseSession (h : StatesAgree s u) : StatesAgree (loseSession s) (loseSession u) := by
  obtain ⟨c, rfl, hc⟩ := h
  have hdraws : c.draws = s.bus.draws := by obtain ⟨as, as', tr, -, -, rfl, -⟩ := hc; rfl
  refine ⟨c, ?_, by rw [loseSession_bus, hc.lose.2]; exact hc⟩
  simp only [Machine.loseSession, hdraws, hc.lose.1]

theorem endPowerOn_agree {m n : Flow Unit} (h : FlowsRelated StatesAgree m n) :
    FlowsRelated StatesAgree (endPowerOn m) (endPowerOn n) := by
  cases h with
  | done a h => exact .done _ (h.map (fun _ _ => rfl) fun _ => rfl)
  | raised e h => exact .raised e h.loseSession

theorem powerOff_agree (h : StatesAgree s u) :
    FlowsRelated StatesAgree (endPowerOff (busOff s)) (endPowerOff (busOff u)) :=
  (keptByTransfers_statesAgree.request requestOff h).bind fun _ _ _ ht =>
    .done Value.unit (ht.map (fun _ _ => rfl) fun _ => rfl)

theorem openPath_agree (p : Path) (h : StatesAgree s u) :
    FlowsRelated StatesAgree (openPath p s) (openPath p u) := by
  have hfind : u.findPath p = s.findPath p := by
    simp only [State.findPath, h.nFiles, h.record]
  simp only [openPath, hfind]
  cases s.findPath p with
  | some j =>
    simp only [reopen, h.record]
    split
    · exact .raised _ h
    · exact .done _ (h.map (fun _ _ => rfl) fun _ => rfl)
  | none =>
    obtain ⟨c, rfl, hc⟩ := h
    simp only [createFile]
    split
    · exact .raised _ ⟨c, rfl, hc⟩
    · exact .done _ ⟨c, rfl, hc⟩

theorem seekTo_agree (h o : Nat) (ha : StatesAgree s u) : FlowsRelated StatesAgree (seekTo h o s) (seekTo h o u) := by
  simp only [seekTo, ha.record]
  split
  · exact .raised _ ha
  · exact .done _ (ha.map (fun _ _ => rfl) fun _ => rfl)

theorem readBytes_agree (h n : Nat) (ha : StatesAgree s u) :
    FlowsRelated StatesAgree (readBytes h n s) (readBytes h n u) :=
  (readLoop_agree n h n [] ha).bind fun out _ _ ht => .done (Value.data out) ht

theorem endWrite_agree (h len : Nat) {m n : Flow Unit} (hm : FlowsRelated StatesAgree m n) :
    FlowsRelated StatesAgree (endWrite h len m) (endWrite h len n) := by
  cases hm with
  | done a ha => exact .done _ (ha.commitLength h)
  | raised e ha => exact .raised e (ha.abortLength h)

theorem writeBytes_agree (h : Nat) (data : List Byte) (ha : StatesAgree s u) :
    FlowsRelated StatesAgree (writeBytes h data s) (writeBytes h data u) := by
  simp only [writeBytes, ha.record]
  exact (allocFrames_agree h _ ha).bind fun _ _ _ ht => endWrite_agree h _ (writeLoop_agree _ h data ht)

theorem FlowsRelated.finish_agree {m n : Flow Value} (h : FlowsRelated StatesAgree m n) :
    StatesAgree (finish m) (finish n) := by
  cases h with
  | done a h => exact h.map (g := State.reportSuccess a) (fun _ _ => rfl) fun _ => rfl
  | raised e h => exact h.map (g := State.reportError e) (fun _ _ => rfl) fun _ => rfl

/-! ### Commands -/

theorem whenIdle_agree {body : State → Host.Outcome State Fault Refusal}
    (hb : ∀ s u, StatesAgree s u → OutcomesRelated StatesAgree (body s) (body u)) (hseq : u.seq = s.seq)
    (hstart : StatesAgree s.start u.start) : OutcomesRelated StatesAgree (whenIdle s body) (whenIdle u body) := by
  simp only [whenIdle, hseq]
  cases s.seq with
  | waiting w j => exact .fault _
  | idle => exact hb _ _ hstart

theorem inSession_agree {body : State → Host.Outcome State Fault Refusal}
    (hb : ∀ s u, StatesAgree s u → OutcomesRelated StatesAgree (body s) (body u)) (hseq : u.seq = s.seq)
    (hstart : StatesAgree s.start u.start) : OutcomesRelated StatesAgree (inSession s body) (inSession u body) := by
  refine whenIdle_agree (fun t v h => ?_) hseq hstart
  rw [h.powered]
  split
  · exact hb t v h
  · exact .refused _

/-- No host command reads more of the answers than status and data. -/
theorem host_agree {i : Instr} (hi : isHostCommand i = true) (hs : StatesAgree s.start u.start)
    (hseq : u.seq = s.seq) : OutcomesRelated StatesAgree (exec i s) (exec i u) := by
  cases i with
  | powerOn =>
    exact whenIdle_agree
      (fun _ _ h => .next (endPowerOn_agree (keptByTransfers_statesAgree.powerOnTransfers h)).finish_agree) hseq hs
  | powerOff => exact inSession_agree (fun _ _ h => .next (powerOff_agree h).finish_agree) hseq hs
  | openFile p => exact inSession_agree (fun _ _ h => .next (openPath_agree p h).finish_agree) hseq hs
  | close j =>
    refine inSession_agree (fun _ _ h => .next (((resolve_agree j h).bind fun _ t v ht => ?_).finish_agree)) hseq hs
    exact .done _ (ht.map (fun _ _ => rfl) fun _ => rfl)
  | seek j o =>
    exact inSession_agree (fun _ _ h => .next ((resolve_agree j h).bind fun _ _ _ ht => seekTo_agree j o ht).finish_agree)
      hseq hs
  | write j data =>
    exact inSession_agree
      (fun _ _ h => .next ((resolve_agree j h).bind fun _ _ _ ht => writeBytes_agree j data ht).finish_agree) hseq hs
  | read j n =>
    simp only [exec, execRead]
    refine inSession_agree (fun t v h => ?_) hseq hs
    have hr := resolve_agree j h
    generalize resolve j t = m at hr ⊢
    generalize resolve j v = m' at hr ⊢
    cases hr with
    | raised e ht => exact .next (ht.map (fun _ _ => rfl) fun _ => rfl)
    | done a ht =>
      simp only [ht.record]
      split
      · exact .next (readBytes_agree j _ ht).finish_agree
      · exact .fault _
  | initSystem => cases hi
  | zeroCartridge => cases hi
  | loadCartridge c => cases hi
  | readFrame f => cases hi
  | writeFrame f => cases hi
  | busPowerOff => cases hi
  | reserved7 => cases hi

/-- Settles O56: the two runs start with answers that agree and no event, and an event's view is what the claim compares. -/
theorem responsesAreReadForStatusOnly : Obligations.ResponsesAreReadForStatusOnly := by
  intro i s t as bs hi hs hagree hx
  have hstart : StatesAgree s.start { s with bus := { s.bus with agent := .oracle bs } }.start :=
    ⟨_, rfl, as, bs, [], hs, hagree, rfl, rfl⟩
  have h := host_agree hi hstart rfl
  rw [hx] at h
  cases hu : exec i { s with bus := { s.bus with agent := .oracle bs } } with
  | next u =>
    rw [hu] at h
    cases h with | next h
    obtain ⟨c, rfl, as', bs', tr, -, -, rfl, hview⟩ := h
    exact ⟨_, rfl, rfl, hview⟩
  | fault r => rw [hu] at h; cases h
  | refused r => rw [hu] at h; cases h

end Sys2Proof.Machine
end

section
/-! SUPPORT. The sequencer against the whole command (spec/44_rw_engine.md R150, decision D20): each step of a waiting
sequencer runs one request of the command and goes on where the command goes on. -/

namespace Sys2Proof.Machine

variable {s t u v : State} {job : Job} {m : Flow Unit} {w : Word} {o : Option Frame} {buf : Frame} {i : Instr}
  {r : Option HostResult}

/-! ### One step of a waiting sequencer -/

/-- What the sequencer does when the transfer of `job` and its status check have come to `m`. -/
def resume (job : Job) : Flow Unit → State
  | .done _ t => onSuccess job (t.withResult (some (.success .unit)))
  | .raised e t => onFailure job (t.withResult (some (.error e)))

/-- The bus command reports what its status check came to, and the sequencer reads off the report how to go on. -/
theorem continueJob_afterTransfer (hi : s.seq = .idle) (job : Job) (w : Word) (o : Option Frame) (buf : Frame) :
    continueJob job (afterTransfer s w o buf) =
      resume job (statusCheck (s.issue w o).1.resp { (s.issue w o).2 with scratch := buf }) := by
  have hidle : (s.issue w o).2.seq = .idle := hi
  cases hf : failed (s.bus.xfer w o).1.resp with
  | true =>
    have hcheck : failed (s.issue w o).1.resp = true := hf
    rw [statusCheck_of_failed hcheck]
    simp only [continueJob, afterTransfer, hf, if_true, resume, State.withResult, hidle]
    rfl
  | false =>
    have hcheck : failed (s.issue w o).1.resp = false := hf
    rw [statusCheck_of_ok hcheck]
    simp only [continueJob, afterTransfer, hf, resume, State.withResult, hidle]
    rfl

/-- A step runs the bus command of the request word; which result stood there before plays no part. -/
theorem step_await (hi : s.seq = .idle) (hd : decode (.bus w) = .ok i)
    (hx : exec i ((s.withResult r).await w job) = .next (afterTransfer ((s.withResult r).await w job) w o buf)) :
    step ((s.withResult r).await w job) =
      .next (resume job (statusCheck (s.issue w o).1.resp { (s.issue w o).2 with scratch := buf })) := by
  rw [step_of_request rfl hd hx, ← continueJob_afterTransfer hi]
  rfl

/-- Every index of the device is an operand. -/
theorem exists_operand {n : Nat} (hn : n < 65536) : ∃ x : BitVec 16, x.toNat = n :=
  ⟨BitVec.ofNat 16 n, Nat.mod_eq_of_lt hn⟩

theorem decode_request {i : Instr} (he : encode i = .bus w) : decode (.bus w) = .ok i :=
  he ▸ decodeOfEncodeIsTheInstruction i

theorem step_init (hi : s.seq = .idle) : step ((s.withResult r).await requestInit job) = .next (resume job (busInit s)) :=
  step_await hi (decode_request (i := .initSystem) rfl) (exec_initSystem _)

theorem step_off (hi : s.seq = .idle) : step ((s.withResult r).await requestOff job) = .next (resume job (busOff s)) :=
  step_await hi (decode_request (i := .busPowerOff) rfl) (exec_busPowerOff _)

theorem step_load (hi : s.seq = .idle) (c : Fin 64) :
    step ((s.withResult r).await (requestLoad c.val) job) = .next (resume job (busLoad c.val s)) := by
  obtain ⟨x, hx⟩ := exists_operand (n := c.val) (by omega)
  rw [← hx]
  exact step_await hi (decode_request (i := .loadCartridge x) rfl) (exec_loadCartridge (.inr (hx.trans_lt c.isLt)))

theorem Bus.hasMounted.ready {c : Fin 64} {j : Instr} (hc : s.bus.hasMounted c)
    (hlists : s.bus.mounted ≠ none → s.bus.lists j) : Ready s j :=
  hc.imp_right fun hm => hlists (by rw [hm]; nofun)

theorem step_zero (hi : s.seq = .idle) {c : Fin 64} (hc : s.bus.hasMounted c) :
    step ((s.withResult r).await requestZero job) = .next (resume job (busZero s)) :=
  step_await hi (decode_request (i := .zeroCartridge) rfl) (exec_zeroCartridge (hc.ready id))

theorem step_read (hi : s.seq = .idle) {c : Fin 64} (hc : s.bus.hasMounted c) (f : Fin 1024) :
    step ((s.withResult r).await (requestRead f.val) job) = .next (resume job (busRead f.val s)) := by
  obtain ⟨x, hx⟩ := exists_operand (n := f.val) (by omega)
  rw [← hx]
  exact step_await hi (decode_request (i := .readFrame x) rfl)
    (exec_readFrame (hc.ready fun hm => ⟨hm, hx.trans_lt f.isLt⟩))

theorem step_write (hi : s.seq = .idle) {c : Fin 64} (hc : s.bus.hasMounted c) (f : Fin 1024) :
    step ((s.withResult r).await (requestWrite f.val) job) = .next (resume job (busWrite f.val s)) := by
  obtain ⟨x, hx⟩ := exists_operand (n := f.val) (by omega)
  rw [← hx]
  exact step_await hi (decode_request (i := .writeFrame x) rfl)
    (exec_writeFrame (hc.ready fun hm => ⟨hm, hx.trans_lt f.isLt⟩))

/-! ### The requests of a command -/

/-- `m` is one transfer of `s` with its status check. -/
def OneTransfer (s : State) (m : Flow Unit) : Prop :=
  ∃ x t, m = statusCheck x t ∧ OnlyBus s t ∧ t.bus.trace.length = s.bus.trace.length + 1

theorem oneTransfer_request (s : State) (w : Word) (o : Option Frame) :
    OneTransfer s (statusCheck (s.issue w o).1.resp (s.issue w o).2) :=
  ⟨_, _, rfl, OnlyBus.issue s w o, List.length_append⟩

theorem oneTransfer_busRead (f : Nat) (s : State) : OneTransfer s (busRead f s) :=
  ⟨_, _, rfl, (OnlyBus.issue s _ _).trans (OnlyBus.setScratch _ _), List.length_append⟩

theorem done_of_statusCheck {x : Word} (h : statusCheck x t = .done () u) : failed x = false ∧ t = u := by
  cases hf : failed x with
  | true => rw [statusCheck_of_failed hf] at h; cases h
  | false => rw [statusCheck_of_ok hf] at h; cases h; exact ⟨rfl, rfl⟩

/-- After a LoadCartridge that succeeded its cartridge is mounted (R193). -/
theorem hasMounted_of_busLoad {c : Fin 64} (h : busLoad c.val s = .done () t) : t.bus.hasMounted c := by
  obtain ⟨hok, rfl⟩ := done_of_statusCheck h
  exact xfer_load_at s.bus c hok

theorem hasMounted_of_busRead {c : Fin 64} {f : Fin 1024} (hc : s.bus.hasMounted c) (h : busRead f.val s = .done () t) :
    t.bus.hasMounted c := by
  obtain ⟨-, rfl⟩ := done_of_statusCheck h
  exact xfer_read_at hc f s.scratch

/-! ### Walking -/

theorem awaitRead_trace (j : ReadJob) (s : State) : (awaitRead j s).bus.trace = s.bus.trace := by
  unfold awaitRead; split <;> rfl

theorem awaitWrite_trace (j : WriteJob) (s : State) : (awaitWrite j s).bus.trace = s.bus.trace := by
  unfold awaitWrite
  split
  · rw [reportSuccess_bus, commitLength_bus]
  · rfl

theorem onSuccess_trace (job : Job) (s : State) : (onSuccess job s).bus.trace = s.bus.trace := by
  cases job with
  | zero c => unfold onSuccess; dsimp only; split <;> rfl
  | readFetch j => exact awaitRead_trace _ _
  | writeStore j => exact awaitWrite_trace _ _
  | _ => rfl

theorem abort_trace (h : Nat) (s : State) (e : ErrorKind) : ((abortLength h s).reportError e).bus.trace = s.bus.trace := by
  rw [reportError_bus, abortLength_bus]

theorem onFailure_trace (job : Job) (s : State) : (onFailure job s).bus.trace = s.bus.trace := by
  cases job with
  | writeLoad j => exact abort_trace _ _ _
  | writeFetch j => exact abort_trace _ _ _
  | writeStore j => exact abort_trace _ _ _
  | _ => rfl

theorem resume_trace (job : Job) (m : Flow Unit) : (resume job m).bus.trace = m.state.bus.trace := by
  cases m with
  | done a t => exact onSuccess_trace _ _
  | raised e t => exact onFailure_trace _ _

/-- The sequencer gets from `u` to `t` in as many steps as `t` has events more. -/
def Walks (u t : State) : Prop :=
  ∃ n, u.bus.trace.length + n = t.bus.trace.length ∧ Host.Core.run Sys2Proof.core n u = .next t

theorem run_of_step {M : Host.Core} {x y : M.State} (h : M.step x = .next y) (n : Nat) : M.run (n + 1) x = M.run n y := by
  rw [Host.Core.run, h]

theorem Walks.refl (t : State) : Walks t t := ⟨0, rfl, rfl⟩

theorem Walks.of_eq (h : u = t) : Walks u t := h ▸ .refl u

theorem Walks.step (hs : step u = .next v) (hlen : v.bus.trace.length = u.bus.trace.length + 1) (h : Walks v t) :
    Walks u t := by
  obtain ⟨n, hn, hrun⟩ := h
  exact ⟨n + 1, by omega, (run_of_step (M := Sys2Proof.core) hs n).trans hrun⟩

/-- The sequencer waits for the first transfer of a command, which ends its flows by `ending`. The walk reaches the end of
the whole command if the job's failure is that of the command, and the walk from its success reaches the end of what
follows. -/
theorem Walks.request {α : Type} {ending : Flow α → Flow Value} {next : State → Flow α}
    (hstep : Machine.step ((s.withResult r).await w job) = .next (resume job m)) (hone : OneTransfer s m)
    (hfail : ∀ t, onFailure job (t.withResult (some (.error .deviceError))) = finish (ending (.raised .deviceError t)))
    (hdone : ∀ t, m = .done () t → OnlyBus s t →
      Walks (onSuccess job (t.withResult (some (.success .unit)))) (finish (ending (next t)))) :
    Walks ((s.withResult r).await w job) (finish (ending (m.bind fun _ t => next t))) := by
  obtain ⟨x, t, rfl, hbus, hlen⟩ := hone
  refine .step hstep ?_ ?_
  · rw [resume_trace, statusCheck_state, hlen]
    rfl
  · cases hf : failed x with
    | true => rw [statusCheck_of_failed hf]; exact .of_eq (hfail t)
    | false => rw [statusCheck_of_ok hf]; exact hdone t (statusCheck_of_ok hf t) hbus

theorem OnlyBus.idle (h : OnlyBus s t) (hi : s.seq = .idle) : t.seq = .idle := h.seq.trans hi

/-! ### powerOn and powerOff (R160, R162) -/

theorem finRange_drop (c : Fin 64) :
    (List.finRange 64).drop c.val = c :: (List.finRange 64).drop (c.val + 1) := by
  rw [List.drop_eq_getElem_cons (by simp), List.getElem_finRange]
  rfl

/-- One cartridge, before the walk over those of `l`. -/
theorem cartridge_walks (c : Fin 64) (l : List (Fin 64)) (hi : s.seq = .idle)
    (hrest : ∀ u, u.seq = .idle →
      Walks (onSuccess (.zero c) (u.withResult (some (.success .unit)))) (finish (endPowerOn (zeroCartridges l u)))) :
    Walks (awaitLoad c (s.withResult r)) (finish (endPowerOn (zeroCartridges (c :: l) s))) := by
  refine .request (step_load hi c) (oneTransfer_request _ _ _) (fun _ => rfl) fun t ht hst => ?_
  exact .request (step_zero (hst.idle hi) (hasMounted_of_busLoad ht)) (oneTransfer_request _ _ _) (fun _ => rfl)
    fun u _ htu => hrest u (htu.idle (hst.idle hi))

/-- The loop over the cartridges from `c` on; `k` cartridges come after `c`. -/
theorem zeroCartridges_walks (k : Nat) {c : Fin 64} (hk : c.val + k = 63) (hi : s.seq = .idle) :
    Walks (awaitLoad c (s.withResult r)) (finish (endPowerOn (zeroCartridges ((List.finRange 64).drop c.val) s))) := by
  induction k generalizing c s r with
  | zero =>
    rw [finRange_drop, List.drop_of_length_le (by simp; omega)]
    refine cartridge_walks c [] hi fun u _ => .of_eq ?_
    rw [onSuccess, dif_neg (by omega)]
    rfl
  | succ k ih =>
    rw [finRange_drop]
    refine cartridge_walks c _ hi fun u hu => ?_
    rw [onSuccess, dif_pos (by omega)]
    exact ih (c := ⟨c.val + 1, by omega⟩) (by dsimp only; omega) hu

theorem powerOn_walks (hi : s.seq = .idle) :
    Walks (s.await requestInit .init) (finish (endPowerOn (powerOnTransfers s))) :=
  .request (r := s.result) (step_init hi) (oneTransfer_request _ _ _) (fun _ => rfl)
    fun _ _ hst => zeroCartridges_walks 63 (c := 0) rfl (hst.idle hi)

theorem powerOff_walks (hi : s.seq = .idle) : Walks (s.await requestOff .off) (finish (endPowerOff (busOff s))) :=
  .request (r := s.result) (ending := id) (next := fun t => .done .unit (t.setPowered false)) (step_off hi)
    (oneTransfer_request _ _ _) (fun _ => rfl) fun _ _ _ => .of_eq rfl

/-! ### read and write (R141, R144) -/

theorem Flow.bind_assoc {α β γ : Type} (m : Flow α) (k : α → State → Flow β) (l : β → State → Flow γ) :
    (m.bind k).bind l = m.bind fun a t => (k a t).bind l := by
  cases m <;> rfl

/-- How read ends: with the bytes its loop has gathered (R140). -/
def endRead (m : Flow (List Byte)) : Flow Value := m.bind fun out t => .done (.data out) t

/-- The loop of read (R141). -/
theorem readLoop_walks (fuel h : Nat) {rem : Nat} (out : List Byte) (hrem : rem ≤ fuel) (hi : s.seq = .idle) :
    Walks (awaitRead { handle := h, rem := rem, out := out } (s.withResult r))
      (finish (endRead (readLoop fuel h rem out s))) := by
  induction fuel generalizing rem out s r with
  | zero =>
    obtain rfl : rem = 0 := by omega
    exact .of_eq rfl
  | succ fuel ih =>
    by_cases h0 : rem = 0
    · subst h0
      exact .of_eq rfl
    · rw [awaitRead, if_neg h0, readLoop, if_neg h0, frameFetch, Flow.bind_assoc]
      refine .request (step_load hi _) (oneTransfer_request _ _ _) (fun _ => rfl) fun t ht hst => ?_
      rw [← hst.record h]
      refine .request (step_read (hst.idle hi) (hasMounted_of_busLoad ht) _) (oneTransfer_busRead _ _) (fun _ => rfl)
        fun u _ htu => ?_
      have hpos := chunkSize_pos (r := u.record h) h0
      exact ih (rem := rem - chunkSize (u.record h) rem) (s := advanceCursor h (chunkSize (u.record h) rem) u) _ (by omega)
        (htu.idle (hst.idle hi))

theorem readBytes_walks (h n : Nat) (hi : s.seq = .idle) :
    Walks (awaitRead { handle := h, rem := n, out := [] } s) (finish (readBytes h n s)) :=
  readLoop_walks (r := s.result) n h [] (le_refl n) hi

/-- ABORT of write (R146): the length update of the abort path, then DeviceError. -/
theorem abort_eq_endWrite (h len : Nat) (t : State) (r : Option HostResult) :
    (abortLength h (t.withResult r)).reportError .deviceError = finish (endWrite h len (.raised .deviceError t)) := by
  rw [endWrite_raised, abortLength_withResult]
  rfl

/-- FINISH of write, with the length update (R143, R150). -/
theorem awaitWrite_nil (h len : Nat) (s : State) (r : Option HostResult) :
    awaitWrite { handle := h, rest := [], total := len } (s.withResult r) = finish (endWrite h len (.done () s)) := by
  show (commitLength h (s.withResult r)).reportSuccess (.written len) = _
  rw [endWrite_done, commitLength_withResult]
  rfl

/-- The loop of write (R144). -/
theorem writeLoop_walks (fuel h len : Nat) {rest : List Byte} (hrest : rest.length ≤ fuel) (hi : s.seq = .idle) :
    Walks (awaitWrite { handle := h, rest := rest, total := len } (s.withResult r))
      (finish (endWrite h len (writeLoop fuel h rest s))) := by
  induction fuel generalizing rest s r with
  | zero =>
    obtain rfl : rest = [] := List.length_eq_zero_iff.mp (by omega)
    exact .of_eq (awaitWrite_nil ..)
  | succ fuel ih =>
    by_cases h0 : rest.length = 0
    · obtain rfl : rest = [] := List.length_eq_zero_iff.mp h0
      exact .of_eq (awaitWrite_nil ..)
    · rw [awaitWrite, if_neg h0, writeLoop, if_neg h0, frameFetch, Flow.bind_assoc]
      refine .request (step_load hi _) (oneTransfer_request _ _ _) (fun _ => abort_eq_endWrite ..) fun t ht hst => ?_
      rw [← hst.record h]
      have hat := hasMounted_of_busLoad ht
      refine .request (step_read (hst.idle hi) hat _) (oneTransfer_busRead _ _) (fun _ => abort_eq_endWrite ..)
        fun u hu htu => ?_
      have hat : u.bus.hasMounted _ := hasMounted_of_busRead hat hu
      have hstore := step_write (s := modifyScratch h rest u) (r := some (.success .unit))
        (job := .writeStore { handle := h, rest := rest, total := len }) (htu.idle (hst.idle hi))
        hat (frameAtCursor (u.record h)).frame
      refine .request hstore (oneTransfer_request _ _ _) (fun _ => abort_eq_endWrite ..) fun v _ huv => ?_
      have hpos := chunkSize_pos (r := v.record h) h0
      exact ih (rest := rest.drop (chunkSize (v.record h) rest.length))
        (s := advanceCursor h (chunkSize (v.record h) rest.length) v) (by rw [List.length_drop]; omega)
        (huv.idle (htu.idle (hst.idle hi)))

/-- Allocation neither starts a transfer nor issues one. -/
theorem allocFrames_keeps_seq_and_trace (h n : Nat) (s : State) :
    (allocFrames h n s).state.seq = s.seq ∧ (allocFrames h n s).state.bus.trace = s.bus.trace := by
  rcases allocFrames_cases h n s with ⟨-, v, hr, -, ho⟩ | ⟨-, v, hr, -, ho⟩
  · rw [hr]; exact ⟨ho.seq, congrArg Bus.trace ho.bus⟩
  · rw [hr]; exact ⟨ho.seq, congrArg Bus.trace ho.bus⟩

/-! ### Accepting a command (R150: CHECK and ALLOC) -/

/-- The sequencer accepts the command in a state with no event from which it walks to `t`. -/
def AcceptWalks (i : Instr) (s t : State) : Prop := ∃ u, accept i s = .next u ∧ u.bus.trace = [] ∧ Walks u t

theorem resolve_cases (h : Nat) (s : State) : resolve h s = .done () s ∨ ∃ e, resolve h s = .raised e s := by
  have hs := resolve_state h s
  cases hr : resolve h s with
  | done a u => rw [hr] at hs; exact .inl (by rw [← hs]; rfl)
  | raised e u => rw [hr] at hs; exact .inr ⟨e, by rw [← hs]; rfl⟩

theorem acceptWalks_read {h count : Nat} (hx : exec (.read h count) s = .next t) : AcceptWalks (.read h count) s t := by
  obtain ⟨hi, hp, hb⟩ := inSession_next (by simpa only [exec, execRead] using hx)
  rw [AcceptWalks, accept, inSession_powered hi hp]
  rcases resolve_cases h s.start with hr | ⟨e, hr⟩
  · simp only [hr] at hb ⊢
    split at hb
    case isTrue hc =>
      rw [if_pos hc, ← Host.Outcome.next.inj hb]
      exact ⟨_, rfl, awaitRead_trace _ _, readBytes_walks h _ hi⟩
    case isFalse => cases hb
  · simp only [hr] at hb ⊢
    exact ⟨_, rfl, rfl, .of_eq (Host.Outcome.next.inj hb)⟩

theorem acceptWalks_write {h : Nat} {data : List Byte} (hx : exec (.write h data) s = .next t) :
    AcceptWalks (.write h data) s t := by
  obtain ⟨hi, hp, hb⟩ := inSession_next (by simpa only [exec, execWrite] using hx)
  rw [AcceptWalks, accept, inSession_powered hi hp]
  rcases resolve_cases h s.start with hr | ⟨e, hr⟩
  · simp only [hr, bind_done, writeBytes] at hb ⊢
    have hkeeps := allocFrames_keeps_seq_and_trace h (framesMissing (s.start.record h) data.length) s.start
    generalize allocFrames h (framesMissing (s.start.record h) data.length) s.start = m at hb hkeeps ⊢
    obtain rfl := Host.Outcome.next.inj hb
    obtain ⟨hseq, htrace⟩ := hkeeps
    cases m with
    | done a u =>
      exact ⟨_, rfl, (awaitWrite_trace _ _).trans htrace,
        writeLoop_walks (r := u.result) data.length h data.length (le_refl _) (hseq.trans hi)⟩
    | raised e u => exact ⟨_, rfl, htrace, .refl _⟩
  · simp only [hr, bind_raised, finish_raised] at hb ⊢
    exact ⟨_, rfl, rfl, .of_eq (Host.Outcome.next.inj hb)⟩

theorem acceptWalks_table (hi : IsTableCommand i) (hx : exec i s = .next t) : AcceptWalks i s t := by
  have haccept : accept i s = exec i s := by
    rcases hi with ⟨p, rfl⟩ | ⟨h, rfl⟩ | ⟨h, o, rfl⟩ <;> rfl
  exact ⟨t, haccept.trans hx, by rw [hi.bus_eq hx]; rfl, .refl t⟩

/-- Settles O55: the sequencer accepts what the whole command checks and allocates, and walks to its end. -/
theorem sequencerAgreesWithTheWholeCommand : Obligations.SequencerAgreesWithTheWholeCommand := by
  intro i s t hi hx
  have hwalk : AcceptWalks i s t := by
    cases i with
    | powerOn =>
      obtain ⟨hidle, rfl⟩ := powerOn_next hx
      exact ⟨_, by rw [accept, whenIdle_idle hidle], rfl, powerOn_walks hidle⟩
    | powerOff =>
      obtain ⟨hidle, hp, rfl⟩ := powerOff_next hx
      exact ⟨_, by rw [accept, inSession_powered hidle hp], rfl, powerOff_walks hidle⟩
    | openFile p => exact acceptWalks_table (.inl ⟨p, rfl⟩) hx
    | close h => exact acceptWalks_table (.inr (.inl ⟨h, rfl⟩)) hx
    | seek h o => exact acceptWalks_table (.inr (.inr ⟨h, o, rfl⟩)) hx
    | read h n => exact acceptWalks_read hx
    | write h data => exact acceptWalks_write hx
    | initSystem => cases hi
    | zeroCartridge => cases hi
    | loadCartridge c => cases hi
    | readFrame f => cases hi
    | writeFrame f => cases hi
    | busPowerOff => cases hi
    | reserved7 => cases hi
  obtain ⟨u, haccept, hempty, n, hn, hrun⟩ := hwalk
  rw [hempty, List.length_nil, Nat.zero_add] at hn
  exact ⟨u, haccept, hn ▸ hrun⟩

end Sys2Proof.Machine
end
